-- ==== Sys2Proof/Word.lean ====
section
/-! DEFINITION. The words the machine is built from. -/

namespace Sys2Proof

/-- One byte of memory (R50). -/
abbrev Byte := BitVec 8

/-- A 64-bit register or a zero-extended narrower value (R9). -/
abbrev Word := BitVec 64

/-- A segment selector (R23). -/
abbrev Selector := BitVec 16

end Sys2Proof
end

