-- ==== Sys2Proof/Config.lean ====
section
/-! DEFINITION. The free values: bits the spec leaves unspecified after an instruction that goes on (log 5).
They have no body, so nothing can be proved about a value of them. -/

namespace Sys2Proof

/-- RSP[63:32] after a load of a popped 32-bit or 16-bit stack pointer (R21, R143, R173; 92 D18; 93 U1), at the draw
counter of the state.  DESIGN CHOICE (log 5): a free value, safe. -/
opaque Config.freeRspHigh : Nat → BitVec 32

/-- Bits 31:16 of the stack pointer after an outer return at operand size 16 (R143, R173; 92 D18; 93 U1), at the
draw counter of the state.  DESIGN CHOICE (log 5): a free value, safe. -/
opaque Config.freeRspMid : Nat → BitVec 16

end Sys2Proof
end

