-- ==== Sys2Proof/Syntax.lean ====
section
/-! DEFINITION. The four forms of `RET` with the prefixes they carry (R70, R71, R76). -/

namespace Sys2Proof

/-- The admitted prefixes (R76): whether byte `66` is present, and the low four bits `WRXB` of the REX byte if one
is present. -/
structure Prefixes where
  opSize : Bool
  rex    : Option (BitVec 4)
  deriving DecidableEq, Repr

/-- One constructor per row of spec/opcode_table.json. -/
inductive Instr where
  /-- `RET_NEAR`, `C3` (R90). -/
  | retNear (p : Prefixes)
  /-- `RET_FAR`, `CB` (R110). -/
  | retFar (p : Prefixes)
  /-- `RET_NEAR_IMM16`, `C2 lo hi` (R91). -/
  | retNearImm16 (p : Prefixes) (imm : BitVec 16)
  /-- `RET_FAR_IMM16`, `CA lo hi` (R111). -/
  | retFarImm16 (p : Prefixes) (imm : BitVec 16)
  deriving DecidableEq, Repr

/-- The prefixes of an instruction. -/
def Instr.prefixes : Instr → Prefixes
  | .retNear p => p
  | .retFar p => p
  | .retNearImm16 p _ => p
  | .retFarImm16 p _ => p

/-- Near or far: bit `f` of the opcode byte (R71). -/
def Instr.isFar : Instr → Bool
  | .retNear _ => false
  | .retFar _ => true
  | .retNearImm16 _ _ => false
  | .retFarImm16 _ _ => true

/-- The immediate, where the form has one (R74). -/
def Instr.imm : Instr → Option (BitVec 16)
  | .retNear _ => none
  | .retFar _ => none
  | .retNearImm16 _ v => some v
  | .retFarImm16 _ v => some v

end Sys2Proof
end

