-- ==== Sys2Proof/WellFormed.lean ====
section
/-! DEFINITION. Which prefixes a form may carry in a mode (R76, R80). -/

namespace Sys2Proof

/-- A REX byte is a prefix in 64-bit mode only (R76, R80). -/
def Prefixes.rexAllowed (is64 : Bool) (p : Prefixes) : Bool :=
  p.rex.isNone || is64

/-- A near return carries no `66` in 64-bit mode (R76; 92 D27; log 21). -/
def Prefixes.opSizeAllowed (is64 far : Bool) (p : Prefixes) : Bool :=
  !p.opSize || far || !is64

/-- The instruction's prefixes are admitted in the mode (`is64`: 64-bit mode).  Every value of `imm16` is legal
(R79). -/
def Instr.wellFormed (is64 : Bool) (i : Instr) : Bool :=
  i.prefixes.rexAllowed is64 && i.prefixes.opSizeAllowed is64 i.isFar

end Sys2Proof
end

