-- ==== Sys2Proof/Decode.lean ====
section
/-! DEFINITION. The decoder (R71 to R80), total on any bytes and rejecting by name; after it the encoder. -/

namespace Sys2Proof

/-- Why bytes are not decoded. -/
inductive DecodeError where
  /-- The bytes end before the instruction does. -/
  | truncated
  /-- A `RET` opcode behind a prefix R76 does not admit (R78; 92 D27, D29). -/
  | prefixNotAdmitted
  /-- Not one of the four forms, whatever prefixes stand before it (R79; 92 D35). -/
  | notARet
  deriving DecidableEq, Repr

/-- The longest instruction the decoder takes: `66`, REX, opcode, two immediate bytes (R75, R80). -/
def maxInstrBytes : Nat := 5

/-- Little-endian assembly of the immediate (R74). -/
def immOfBytes (lo hi : Byte) : BitVec 16 := hi ++ lo

/-- At most one byte `66` (R80). -/
def splitOpSize (bs : List Byte) : Bool × List Byte :=
  match bs with
  | [] => (false, [])
  | b :: r => if b = 0x66#8 then (true, r) else (false, b :: r)

/-- In 64-bit mode at most one REX byte `40` to `4F` (R76, R80). -/
def splitRex (is64 : Bool) (bs : List Byte) : Option (BitVec 4) × List Byte :=
  match bs with
  | [] => (none, [])
  | b :: r =>
    if is64 && b.extractLsb' 4 4 == 4#4 then (some (b.extractLsb' 0 4), r) else (none, b :: r)

/-- The bytes that are prefixes of the architecture (R76, R78). -/
def isPrefixByte (is64 : Bool) (b : Byte) : Bool :=
  [0x66#8, 0xF0#8, 0xF2#8, 0xF3#8, 0x67#8, 0x26#8, 0x2E#8, 0x36#8, 0x3E#8, 0x64#8, 0x65#8].contains b
    || (is64 && b.extractLsb' 4 4 == 4#4)

/-- The four opcode bytes (R71). -/
def isRetOpcode (b : Byte) : Bool := [0xC2#8, 0xC3#8, 0xCA#8, 0xCB#8].contains b

/-- Why bytes that stand where the opcode is expected, and are none, are not decoded: behind further prefixes a `RET`
opcode has a prefix that is not admitted (R78), anything else is not a `RET` (R79). -/
def whyNotDecoded (is64 : Bool) : List Byte → DecodeError
  | [] => .truncated
  | b :: r =>
    if isPrefixByte is64 b then whyNotDecoded is64 r
    else if isRetOpcode b then .prefixNotAdmitted
    else .notARet

/-- The opcode byte and, for format I, the two bytes after it (R71 to R73).  A prefix that is not admitted is reported
before an immediate that is missing (log 21). -/
def decodeOpcode (is64 : Bool) (p : Prefixes) (bs : List Byte) : Except DecodeError (Instr × List Byte) :=
  match bs with
  | [] => .error .truncated
  | op :: r =>
    if op = 0xC3#8 then .ok (.retNear p, r)
    else if op = 0xCB#8 then .ok (.retFar p, r)
    else if op = 0xC2#8 then
      match r with
      | lo :: hi :: r' => .ok (.retNearImm16 p (immOfBytes lo hi), r')
      | _ => .error (if p.opSizeAllowed is64 false then .truncated else .prefixNotAdmitted)
    else if op = 0xCA#8 then
      match r with
      | lo :: hi :: r' => .ok (.retFarImm16 p (immOfBytes lo hi), r')
      | _ => .error .truncated
    else .error (whyNotDecoded is64 (op :: r))

/-- The decoder (R80): the instruction at the head of the bytes and the bytes after it.  `is64` says whether the
machine is in 64-bit mode. -/
def decode (is64 : Bool) (bs : List Byte) : Except DecodeError (Instr × List Byte) :=
  match decodeOpcode is64 ⟨(splitOpSize bs).1, (splitRex is64 (splitOpSize bs).2).1⟩
      (splitRex is64 (splitOpSize bs).2).2 with
  | .error e => .error e
  | .ok (i, r) => if i.wellFormed is64 then .ok (i, r) else .error .prefixNotAdmitted

/-- The bytes of the prefixes, `66` first and REX last (R76, R80). -/
def encodePrefixes (p : Prefixes) : List Byte :=
  (if p.opSize then [0x66#8] else []) ++
    (match p.rex with
     | none => []
     | some r => [4#4 ++ r])

/-- The two bytes of the immediate, low byte first (R73). -/
def encodeImm (imm : BitVec 16) : List Byte := [imm.extractLsb' 0 8, imm.extractLsb' 8 8]

/-- The bytes of an instruction, from the tables of R71 to R73. -/
def encode (i : Instr) : List Byte :=
  match i with
  | .retNear p => encodePrefixes p ++ [0xC3#8]
  | .retFar p => encodePrefixes p ++ [0xCB#8]
  | .retNearImm16 p imm => encodePrefixes p ++ 0xC2#8 :: encodeImm imm
  | .retFarImm16 p imm => encodePrefixes p ++ 0xCA#8 :: encodeImm imm

/-- The low `n` bytes of a number, least significant first (R51). -/
def bytesOfNat : Nat → Nat → List Byte
  | 0, _ => []
  | n + 1, w => BitVec.ofNat 8 w :: bytesOfNat n (w / 256)

/-- The instruction the decoder reads from a word numbered as spec/opcode_table.json numbers it; bits above
`nbits` are 0.  The table's rows carry no prefix, so the mode (not 64-bit mode, that of reset) does not matter. -/
def decodeTableWord (nbits w : Nat) : Option Instr :=
  match decode false (bytesOfNat maxInstrBytes (w % 2 ^ nbits)) with
  | .ok (i, _) => some i
  | .error _ => none

end Sys2Proof
end

