-- ==== Sys2Proof/Machine/State.lean ====
section
/-! DEFINITION. The architectural state of 10_state.md as plain data, the reasons a step can stop, and reset. -/

namespace Sys2Proof.Machine

/-- The three values of `OperandSize` and of `StackAddressSize` (R6). -/
inductive Width where
  | w16 | w32 | w64
  deriving DecidableEq, Repr

/-- RSP, 64 bits, kept as the parts its two narrower views are made of (R21): `lo` is SP, `mid ++ lo` is ESP,
`hi ++ mid ++ lo` is RSP.  Kept apart because a write in place through a view leaves the parts above it
unchanged and a load of a narrower popped value leaves them unspecified. -/
structure StackPointer where
  hi  : BitVec 32
  mid : BitVec 16
  lo  : BitVec 16
  deriving DecidableEq, Repr

/-- The fifteen general registers other than RSP, which no path of `RET` reads or writes (R22; names log 28). -/
structure GeneralRegs where
  rax : Word
  rcx : Word
  rdx : Word
  rbx : Word
  rbp : Word
  rsi : Word
  rdi : Word
  r8  : Word
  r9  : Word
  r10 : Word
  r11 : Word
  r12 : Word
  r13 : Word
  r14 : Word
  r15 : Word
  deriving DecidableEq, Repr

/-- The properties of a descriptor that R23 lists: what a hidden part holds and what `ReadDesc` gives.  `limit` is
the effective limit, granularity applied. -/
structure Descriptor where
  base     : BitVec 32
  limit    : BitVec 32
  /-- `A`, bit 40. -/
  accessed : Bool
  /-- Bit 41: writable for data, readable for code. -/
  rw       : Bool
  /-- Bit 42: expand-down for data, conforming for code. -/
  ec       : Bool
  /-- `X`, bit 43. -/
  x        : Bool
  /-- `S`, bit 44. -/
  s        : Bool
  dpl      : BitVec 2
  /-- `P`, bit 47. -/
  p        : Bool
  /-- `L`, bit 53. -/
  l        : Bool
  /-- `D/B`, bit 54. -/
  db       : Bool
  deriving DecidableEq, Repr

/-- A segment register (R23): the visible selector and the hidden part; `none` is an invalid hidden part (R146,
R166). -/
structure SegReg where
  sel    : Selector
  hidden : Option Descriptor
  deriving DecidableEq, Repr

/-- A descriptor-table register (R35). -/
structure TableReg where
  base  : Word
  limit : BitVec 16
  deriving DecidableEq, Repr

/-- VA_BITS of the current paging mode (R6, R56). -/
inductive VaBits where
  | va48 | va57
  deriving DecidableEq, Repr

/-- The control and model-specific registers `RET` reads and never writes (R29, R30, R33, R34, R35), and the
paging mode's address width. -/
structure SysRegs where
  cr0    : Word
  cr4    : Word
  efer   : Word
  uCet   : Word
  sCet   : Word
  pl3Ssp : Word
  gdtr   : TableReg
  ldtr   : TableReg
  vaBits : VaBits
  deriving DecidableEq, Repr

/-- The kinds of access the memory oracle is asked about (R52). -/
inductive AccessKind where
  | dataRead | shadowRead | shadowLockedWrite | descriptorRead
  deriving DecidableEq, Repr

/-- One access `MemFault(addr, size, kind)` refuses (R52; log 4). -/
structure RefusedAccess where
  addr : Nat
  size : Nat
  kind : AccessKind
  deriving DecidableEq, Repr

/-- The linear address space (R50): (address, byte) pairs, addresses strictly rising (`Memory.wf`).  An unlisted
byte has no value: reading it is refused (log 7). -/
abbrev Memory := List Host.Cell

/-- The architectural state.  INVENTORY.md lists each field with its rule. -/
structure State where
  rip       : Word
  rsp       : StackPointer
  gprs      : GeneralRegs
  cs        : SegReg
  ss        : SegReg
  ds        : SegReg
  es        : SegReg
  fs        : SegReg
  gs        : SegReg
  cpl       : BitVec 2
  eflags    : BitVec 32
  sys       : SysRegs
  ssp       : Word
  memFaults : List RefusedAccess
  mem       : Memory
  draws     : Nat
  deriving DecidableEq, Repr

/-- The two error codes of `#CP` that `RET` raises (R186, R187). -/
inductive CpCode where
  | nearRet | farRetIret
  deriving DecidableEq, Repr

/-- The exceptions of `RET` (R180) and the refused memory access (R193).  A fault ends the step with the state as
before the `RET` (R191); delivery is not in the spec (R192).  Each is SAFE: the model stops where the chip would
run a handler (log 8). -/
inductive Fault where
  /-- `#SS(code)`: stack limit or canonical tests, code 0 (R181); stack segment not present, code the selector
  (R182).  Raised by all four forms (code 0) and by outer far returns.  Safe. -/
  | ss (code : BitVec 16)
  /-- `#GP(code)`: R183, R184.  Raised by all four forms (code 0) and by protected-mode and IA-32e far returns.
  Safe. -/
  | gp (code : BitVec 16)
  /-- `#NP(selector)`: R185.  Raised by protected-mode and IA-32e far returns.  Safe. -/
  | np (code : BitVec 16)
  /-- `#CP(code)`: shadow-stack mismatch, near (R186) or far (R187).  Safe. -/
  | cp (code : CpCode)
  /-- `MemFault`: the memory oracle refuses an access (R52, R193; log 4).  Raised by every memory access of `RET`.
  Safe. -/
  | memFault
  deriving DecidableEq, Repr

/-- Why the model gives a situation no meaning (R10(c), R217(b)).  Each is SAFE: the model says nothing of such a
run. -/
inductive Refusal where
  /-- An instruction without a meaning, by mnemonic; no arm of `exec` uses it.  Safe. -/
  | notModelled (mnemonic : String)
  /-- The bytes at `CSBASE + RIP` are not one of the four forms, whatever prefixes stand before them; raised by the fetch
  (R79; 92 D35; log 39).  Safe. -/
  | notARet
  /-- A `RET` opcode behind a prefix R76 does not admit; raised by the fetch, and by a meaning given a form the decoder
  does not yield in the state's mode (R76, R78; 92 D27, D29; log 21).  Safe. -/
  | prefixNotAdmitted
  /-- A byte nothing has written was read; raised by the fetch and by every memory read (95 section 2.0, VX6;
  log 7).  Safe. -/
  | unwrittenMemory
  /-- A descriptor being loaded has `A == 0`; raised by protected-mode and IA-32e far returns (R61; 92 D32;
  log 14).  Safe. -/
  | accessedBitClear
  /-- A real-address or virtual-8086 `RET_FAR_IMM16` with `SS.B == 1`, whatever its operand (R115; 92 D33; 93 U7;
  log 15).  Safe. -/
  | realStack16
  /-- An outer far return needs a `tempSSP` that has no value (R144; 93 U6; log 16).  Never reached with the
  model's `ShadowStackEnabled`.  Safe. -/
  | tempSspUnset
  /-- The hidden part of CS is invalid, premise `HiddenValid` fails (R211, R217(b); log 19); raised by the fetch
  and by every form.  Safe. -/
  | codeSegmentInvalid
  /-- The hidden part of SS is invalid outside 64-bit mode (R211; 93 U5; log 19); raised by every form.  Safe. -/
  | stackSegmentInvalid
  deriving DecidableEq, Repr

/-- The two ways a meaning stops. -/
inductive Stop where
  | fault (f : Fault)
  | refused (r : Refusal)
  deriving DecidableEq, Repr

/-- One execution in progress: a value, or the stop that discards every write made so far (R191). -/
abbrev Exec (α : Type) := Except Stop α

/-- The hidden part of a data or stack segment at reset: PRESUMED, the family's (log 1). -/
def Descriptor.resetData : Descriptor where
  base := 0
  limit := 0xFFFF
  accessed := true
  rw := true
  ec := false
  x := false
  s := true
  dpl := 0
  p := true
  l := false
  db := false

/-- The hidden part of CS at reset: attributes and limit PRESUMED (log 1), base DESIGN CHOICE (log 2). -/
def Descriptor.resetCode : Descriptor := { Descriptor.resetData with x := true }

/-- Every general register but RSP at reset: PRESUMED 0 (log 1). -/
def GeneralRegs.reset : GeneralRegs where
  rax := 0
  rcx := 0
  rdx := 0
  rbx := 0
  rbp := 0
  rsi := 0
  rdi := 0
  r8 := 0
  r9 := 0
  r10 := 0
  r11 := 0
  r12 := 0
  r13 := 0
  r14 := 0
  r15 := 0

/-- The system registers at reset: PRESUMED, the family's (log 1); `vaBits` DESIGN CHOICE (log 3). -/
def SysRegs.reset : SysRegs where
  cr0 := 0x60000010
  cr4 := 0
  efer := 0
  uCet := 0
  sCet := 0
  pl3Ssp := 0
  gdtr := { base := 0, limit := 0xFFFF }
  ldtr := { base := 0, limit := 0xFFFF }
  vaBits := .va48

/-- A state to start from.  The spec has no reset (R37, R210): this is one launch state that meets the premises of
R211, in real-address mode, with the family's values (log 1) but for CS:RIP, which is 0000:0000 (log 2). -/
def State.reset : State where
  rip := 0
  rsp := { hi := 0, mid := 0, lo := 0 }
  gprs := GeneralRegs.reset
  cs := { sel := 0, hidden := some Descriptor.resetCode }
  ss := { sel := 0, hidden := some Descriptor.resetData }
  ds := { sel := 0, hidden := some Descriptor.resetData }
  es := { sel := 0, hidden := some Descriptor.resetData }
  fs := { sel := 0, hidden := some Descriptor.resetData }
  gs := { sel := 0, hidden := some Descriptor.resetData }
  cpl := 0
  eflags := 0x00000002
  sys := SysRegs.reset
  ssp := 0
  memFaults := []
  mem := []
  draws := 0

end Sys2Proof.Machine
end

