-- ==== Sys2Proof/Machine/Flags.lean ====
section
/-! DEFINITION. The mode and enable bits and the predicates computed from them (R28 to R31, R34).  `RET` writes no
flag (R28). -/

namespace Sys2Proof.Machine

/-- `EFLAGS.VM`, bit 17 (R28). -/
def State.vm (s : State) : Bool := s.eflags.getLsbD 17

/-- `CR0.PE`, bit 0 (R29). -/
def State.pe (s : State) : Bool := s.sys.cr0.getLsbD 0

/-- `IA32_EFER.LMA`, bit 10 (R30). -/
def State.lma (s : State) : Bool := s.sys.efer.getLsbD 10

/-- `CR4.CET`, bit 23 (R34). -/
def State.cet (s : State) : Bool := s.sys.cr4.getLsbD 23

/-- Real-address or virtual-8086 mode (R31, R112). -/
def State.realOrV86 (s : State) : Bool := !s.pe || s.vm

/-- IA-32e mode (R31). -/
def State.ia32e (s : State) : Bool := s.pe && !s.vm && s.lma

/-- A hidden part all of whose properties are absent, read where a hidden part is invalid and the rule that reads it
has no effect. -/
def Descriptor.absent : Descriptor where
  base := 0
  limit := 0
  accessed := false
  rw := false
  ec := false
  x := false
  s := false
  dpl := 0
  p := false
  l := false
  db := false

/-- The properties in the hidden part (R23). -/
def SegReg.desc (r : SegReg) : Descriptor := r.hidden.getD Descriptor.absent

/-- 64-bit mode: IA-32e mode with `CS.L == 1` (R31). -/
def State.in64 (s : State) : Bool := s.ia32e && s.cs.desc.l

/-- `ShadowStackEnabled(cpl)`: the architecture's definition, which R34 gives for instantiation.  PRESUMED
(log 9). -/
def State.shadowStackEnabled (s : State) (cpl : BitVec 2) : Bool :=
  s.cet && s.pe && !s.vm && (if cpl = 3#2 then s.sys.uCet.getLsbD 0 else s.sys.sCet.getLsbD 0)

/-- The width of a linear address in bits (R50). -/
def State.linearBits (s : State) : Nat := if s.ia32e then 64 else 32

/-- VA_BITS as a number (R56). -/
def VaBits.bits : VaBits → Nat
  | .va48 => 48
  | .va57 => 57

end Sys2Proof.Machine
end

