-- ==== Sys2Proof/Machine/Ops.lean ====
section
/-! DEFINITION. The named operations: raising, memory, selectors and descriptors, the stack, the shadow stack, the
writes of a return.  Each names the rule it follows. -/

namespace Sys2Proof.Machine

/-! ## Ending an instruction -/

/-- `raise #X(code)` (R9, R191): the instruction ends, and none of its writes takes effect, because the state under
construction is dropped.  Taking the exception (IDT, handler, saved state) is not in the spec (R192; log 8). -/
def raise {α : Type} (f : Fault) : Exec α := .error (.fault f)

/-- The spec gives the situation no meaning (R10(c)). -/
def refuse {α : Type} (r : Refusal) : Exec α := .error (.refused r)

/-- A test of the pseudocode: raise `f` unless `ok`. -/
def require (ok : Bool) (f : Fault) : Exec Unit := if ok then .ok () else raise f

/-- A premise of the pseudocode: refuse by `r` unless `ok`. -/
def premise (ok : Bool) (r : Refusal) : Exec Unit := if ok then .ok () else refuse r

/-- The outcome of one execution (R10).  A completed instruction moves the draw counter on, so that the free values
of the next one are new (log 5). -/
def finish (e : Exec State) : Host.Outcome State Fault Refusal :=
  match e with
  | .ok t => .next { t with draws := t.draws + 1 }
  | .error (.fault f) => .fault f
  | .error (.refused r) => .refused r

/-- The vector number of an exception (R188).  The refused memory access has none of its own. -/
def Fault.vector : Fault → Option Nat
  | .np _ => some 11
  | .ss _ => some 12
  | .gp _ => some 13
  | .cp _ => some 21
  | .memFault => none

/-- The numeric error code of an exception (R189). -/
def Fault.errorCode : Fault → Option (BitVec 16)
  | .np c => some c
  | .ss c => some c
  | .gp c => some c
  | .cp .nearRet => some 1
  | .cp .farRetIret => some 2
  | .memFault => none

/-! ## Memory -/

/-- The byte at an address, if one was written or loaded there (R50; log 7). -/
def Memory.readByte : Memory → Nat → Option Byte
  | [], _ => none
  | (k, b) :: m, a => if a = k then some b else Memory.readByte m a

/-- Store one byte, keeping the addresses strictly rising. -/
def Memory.writeByte : Memory → Nat → Byte → Memory
  | [], a, v => [(a, v)]
  | (k, b) :: m, a, v =>
    if a < k then (a, v) :: (k, b) :: m
    else if a = k then (a, v) :: m
    else (k, b) :: Memory.writeByte m a v

/-- Addresses strictly rising from `lo` on, each inside the 64-bit linear space (R50). -/
def Memory.wfFrom : Nat → Memory → Bool
  | _, [] => true
  | lo, (k, _) :: m => decide (lo ≤ k) && decide (k < 2 ^ 64) && Memory.wfFrom (k + 1) m

/-- The canonical form of memory. -/
def Memory.wf (m : Memory) : Bool := Memory.wfFrom 0 m

/-- The value of the `n` bytes at linear addresses `a`, `a + 1`, …, least significant first (R51, R52), each address
taken modulo `2 ^ w` (R50; log 10). -/
def Memory.readLE (m : Memory) (w : Nat) : Nat → Nat → Option Nat
  | 0, _ => some 0
  | n + 1, a =>
    match m.readByte (a % 2 ^ w), Memory.readLE m w n (a + 1) with
    | some b, some v => some (b.toNat + 256 * v)
    | _, _ => none

/-- Store the `n` low bytes of `v` at linear addresses `a`, `a + 1`, … (R51, R52). -/
def Memory.writeLE (m : Memory) (w : Nat) : Nat → Nat → Nat → Memory
  | 0, _, _ => m
  | n + 1, a, v => (Memory.writeLE m w n (a + 1) (v / 256)).writeByte (a % 2 ^ w) (BitVec.ofNat 8 v)

/-- `MemFault(addr, n, kind)` (R52; log 4). -/
def State.memRefused (s : State) (kind : AccessKind) (addr : Word) (n : Nat) : Bool :=
  s.memFaults.contains { addr := addr.toNat % 2 ^ s.linearBits, size := n, kind := kind }

/-- `MemRead(addr, n)` with its access kind (R52): the oracle is asked first. -/
def State.memRead (s : State) (kind : AccessKind) (addr : Word) (n : Nat) : Exec Word :=
  if s.memRefused kind addr n then raise .memFault
  else
    match s.mem.readLE s.linearBits n addr.toNat with
    | some v => .ok (BitVec.ofNat 64 v)
    | none => refuse .unwrittenMemory

/-- A linear address: a base plus an offset, modulo 2^64 in IA-32e mode and 2^32 outside it (R50). -/
def State.linear (s : State) (base off : Word) : Word :=
  if s.ia32e then base + off else ((base + off).setWidth 32).setWidth 64

/-- `CSBASE`, treated as zero in 64-bit mode (R24). -/
def State.csBase (s : State) : Word := if s.in64 then 0 else s.cs.desc.base.setWidth 64

/-- `SSBASE`, treated as zero in 64-bit mode (R25, R53). -/
def State.ssBase (s : State) : Word := if s.in64 then 0 else s.ss.desc.base.setWidth 64

/-- `LIP = CSBASE + RIP` (R24, R50): where instructions are fetched, and the value the far shadow-stack compare uses;
outside IA-32e mode a 32-bit sum padded with zeros (R133). -/
def State.lip (s : State) : Word := s.linear s.csBase s.rip

/-! ## Canonical addresses -/

/-- `Canonical(a)` (R56). -/
def State.canonical (s : State) (a : Word) : Bool :=
  (a.setWidth s.sys.vaBits.bits).signExtend 64 == a

/-- Every byte address `a` to `a + n - 1` is canonical, for `1 ≤ n`.  Tested at the two ends: the canonical addresses
are one arc of the 64-bit circle and no item reaches around the gap
(`Sys2Proof.Laws.rangeCanonical_iff_every_byte`; log 11). -/
def State.rangeCanonical (s : State) (a : Word) (n : Nat) : Bool :=
  s.canonical a && s.canonical (a + BitVec.ofNat 64 (n - 1))

/-! ## The stack pointer and the stack -/

/-- Bytes per item (R57). -/
def Width.bytes : Width → Nat
  | .w16 => 2
  | .w32 => 4
  | .w64 => 8

/-- Bits per item. -/
def Width.bits : Width → Nat
  | .w16 => 16
  | .w32 => 32
  | .w64 => 64

/-- `zext_64(trunc(v))` at a width (R9). -/
def truncTo (a : Width) (v : Word) : Word :=
  match a with
  | .w16 => (v.setWidth 16).setWidth 64
  | .w32 => (v.setWidth 32).setWidth 64
  | .w64 => v

/-- ESP (R21). -/
def StackPointer.esp (r : StackPointer) : BitVec 32 := r.mid ++ r.lo

/-- RSP (R21). -/
def StackPointer.bits (r : StackPointer) : Word := r.hi ++ r.esp

/-- RSP with a given 64-bit value. -/
def StackPointer.ofBits (v : Word) : StackPointer where
  hi := v.extractLsb' 32 32
  mid := v.extractLsb' 16 16
  lo := v.extractLsb' 0 16

/-- The view of the stack pointer that a stack-address size selects (R21), zero-extended. -/
def StackPointer.view (a : Width) (r : StackPointer) : Word :=
  match a with
  | .w16 => r.lo.setWidth 64
  | .w32 => r.esp.setWidth 64
  | .w64 => r.bits

/-- A write in place through the view, `SP <- SP + k` or `ESP <- ESP + k`: the bits above the view keep their value
(R21; 93 U1, which refines 92 D18; log 38). -/
def StackPointer.writeView (a : Width) (r : StackPointer) (v : Word) : StackPointer :=
  match a with
  | .w16 => { r with lo := v.setWidth 16 }
  | .w32 => { r with mid := v.extractLsb' 16 16, lo := v.setWidth 16 }
  | .w64 => StackPointer.ofBits v

/-- Load of a popped stack pointer in the width popped (R143, R173; 90 C4): the bits above it are unspecified, the
free values drawn (92 D18; 93 U1; log 5). -/
def StackPointer.load (n : Width) (draw : Nat) (v : Word) : StackPointer :=
  match n with
  | .w16 => { hi := Config.freeRspHigh draw, mid := Config.freeRspMid draw, lo := v.setWidth 16 }
  | .w32 => { hi := Config.freeRspHigh draw, mid := v.extractLsb' 16 16, lo := v.setWidth 16 }
  | .w64 => StackPointer.ofBits v

/-- `sp`, the stack pointer in force for a stack-address size. -/
def State.sp (s : State) (a : Width) : Word := s.rsp.view a

/-- `sp <- sp + k (mod 2^SAS)` through the view (R53, R96). -/
def State.addSp (s : State) (a : Width) (k : Nat) : State :=
  { s with rsp := s.rsp.writeView a (s.sp a + BitVec.ofNat 64 k) }

/-- The linear address of the item `k` bytes above the top of the stack: the offset is `SAS` bits wide (R53). -/
def State.stackAddr (s : State) (a : Width) (k : Nat) : Word :=
  s.linear s.ssBase (truncTo a (s.sp a + BitVec.ofNat 64 k))

/-- `StackRead(sp + k, n)` (R53), zero-extended. -/
def State.stackRead (s : State) (a : Width) (k : Nat) (n : Width) : Exec Word :=
  s.memRead .dataRead (s.stackAddr a k) n.bytes

/-- `Pop(n)` (R53): the item at the top, and the state with the stack pointer past it. -/
def State.pop (s : State) (a : Width) (n : Width) : Exec (Word × State) :=
  match s.stackRead a 0 n with
  | .ok v => .ok (v, s.addSp a n.bytes)
  | .error e => .error e

/-- Expand-down data segment (R23). -/
def Descriptor.expandDown (d : Descriptor) : Bool := !d.x && d.ec

/-- The highest offset of a stack segment by its B bit (R54). -/
def Descriptor.topOffset (d : Descriptor) : Nat := if d.db then 0xFFFFFFFF else 0xFFFF

/-- `StackWithin(sp, n)` (R54): the top `n` bytes lie within the limits of SS; vacuous in 64-bit mode.  Bytes past the top
of the offset space are outside on every segment, also on an expand-up 16-bit one whose limit exceeds FFFFh: R54's last
paragraph and the corner cases of R99 and R119, where R54's pseudocode alone asks the limit only.  DEDUCED (log 40). -/
def State.stackWithin (s : State) (a : Width) (n : Nat) : Bool :=
  s.in64 ||
    (decide ((s.sp a).toNat + n - 1 ≤ s.ss.desc.topOffset) &&
      (if s.ss.desc.expandDown then decide (s.ss.desc.limit.toNat < (s.sp a).toNat)
       else decide ((s.sp a).toNat + n - 1 ≤ s.ss.desc.limit.toNat)))

/-- The top `n` bytes of the stack lie in canonical address space (R56, R94, R150, R165). -/
def State.stackCanonical (s : State) (a : Width) (n : Nat) : Bool := s.rangeCanonical (s.sp a) n

/-! ## The instruction pointer -/

/-- `EIP <- v` or `RIP <- v` at an operand size (R20, R95): the bits above the width become 0. -/
def State.writeIp (s : State) (n : Width) (v : Word) : State := { s with rip := truncTo n v }

/-- `CodeWithin(ip, seg)` (R55). -/
def State.codeWithin (s : State) (ip : Word) (d : Descriptor) : Bool :=
  if d.l && s.lma then true else decide (ip.toNat ≤ d.limit.toNat)

/-! ## Selectors and descriptors -/

/-- `sel[1:0]`, the RPL (R23). -/
def rpl (sel : Selector) : BitVec 2 := sel.extractLsb' 0 2

/-- `sel[2]`, the table indicator (R23). -/
def tableIndicator (sel : Selector) : Bool := sel.getLsbD 2

/-- `sel[15:3]`, the index (R23). -/
def selIndex (sel : Selector) : BitVec 13 := sel.extractLsb' 3 13

/-- `NULL`: `sel[15:2] == 0` (R23). -/
def isNull (sel : Selector) : Bool := sel.extractLsb' 2 14 == 0#14

/-- The error code of a selector: RPL bits cleared (R189; 92 D26). -/
def selCode (sel : Selector) : BitVec 16 := sel &&& 0xFFFC#16

/-- `TableOf(sel)` (R61). -/
def State.tableOf (s : State) (sel : Selector) : TableReg :=
  if tableIndicator sel then s.sys.ldtr else s.sys.gdtr

/-- `BeyondLimit(sel)` (R61). -/
def State.beyondLimit (s : State) (sel : Selector) : Bool :=
  decide ((s.tableOf sel).limit.toNat < 8 * (selIndex sel).toNat + 7)

/-- `DescAddr(sel)` (R61), a linear address (R50). -/
def State.descAddr (s : State) (sel : Selector) : Word :=
  s.linear (s.tableOf sel).base (BitVec.ofNat 64 (8 * (selIndex sel).toNat))

/-- The fields of a descriptor read as one 64-bit value (R23). -/
def Descriptor.ofBits (d : Word) : Descriptor :=
  let limit20 : BitVec 20 := d.extractLsb' 48 4 ++ d.extractLsb' 0 16
  { base := d.extractLsb' 56 8 ++ d.extractLsb' 16 24
    limit := if d.getLsbD 55 then limit20 ++ 0xFFF#12 else limit20.setWidth 32
    accessed := d.getLsbD 40
    rw := d.getLsbD 41
    ec := d.getLsbD 42
    x := d.getLsbD 43
    s := d.getLsbD 44
    dpl := d.extractLsb' 45 2
    p := d.getLsbD 47
    l := d.getLsbD 53
    db := d.getLsbD 54 }

/-- `ReadDesc(sel)` (R61). -/
def State.readDesc (s : State) (sel : Selector) : Exec Descriptor :=
  match s.memRead .descriptorRead (s.descAddr sel) 8 with
  | .ok v => .ok (Descriptor.ofBits v)
  | .error e => .error e

/-- "is a code segment" (R23). -/
def Descriptor.isCode (d : Descriptor) : Bool := d.s && d.x

/-- "conforming" (R23). -/
def Descriptor.isConforming (d : Descriptor) : Bool := d.isCode && d.ec

/-- "is a writable data segment" (R23). -/
def Descriptor.isWritableData (d : Descriptor) : Bool := d.s && !d.x && d.rw

/-- "data or non-conforming code" (R23). -/
def Descriptor.isDataOrNonConforming (d : Descriptor) : Bool := d.s && (!d.x || !d.ec)

/-- Load a segment register with a selector and the descriptor it names: refused where the hardware would have to
set the accessed bit in the table (R61; 92 D32; log 14). -/
def loadSeg (sel : Selector) (d : Descriptor) : Exec SegReg :=
  if d.accessed then .ok { sel := sel, hidden := some d } else refuse .accessedBitClear

/-! ## The shadow stack -/

/-- `SspLoad(SSP + k, 8)` (R59). -/
def State.sspLoad (s : State) (k : Nat) : Exec Word :=
  s.memRead .shadowRead (s.ssp + BitVec.ofNat 64 k) 8

/-- `ShadowStackPop4B` and `ShadowStackPop8B` (R59). -/
def State.shadowPop (s : State) (n : Nat) : Exec (Word × State) :=
  match s.memRead .shadowRead s.ssp n with
  | .ok v => .ok (v, { s with ssp := s.ssp + BitVec.ofNat 64 n })
  | .error e => .error e

/-- The far-return frame of the shadow stack (R133, R142, R163, R172), in the state with the new CS and RIP: three
8-byte entries are read, SSP moves past them, the saved selector and linear instruction pointer are compared, and the
saved SSP must be 4-byte aligned.  Answers the saved SSP. -/
def State.shadowFrame (s : State) : Exec (Word × State) := do
  let savedCs ← s.sspLoad 16
  let savedLip ← s.sspLoad 8
  let savedSsp ← s.sspLoad 0
  require (s.cs.sel.setWidth 64 == savedCs) (.cp .farRetIret)
  require (s.lip == savedLip) (.cp .farRetIret)
  require (savedSsp.extractLsb' 0 2 == 0#2) (.cp .farRetIret)
  .ok (savedSsp, { s with ssp := s.ssp + 24#64 })

/-- "SSP must be 8 byte aligned" (R58, R133, R142, R163, R172). -/
def State.sspAligned (s : State) : Bool := s.ssp.extractLsb' 0 3 == 0#3

/-- A new SSP is in range: the low 4 GB in legacy mode and for new code with `L == 0` (R133, R144, R163, R174),
canonical for 64-bit code (R163, R174). -/
def State.newSspOk (s : State) (v : Word) : Bool :=
  if s.in64 then s.canonical v else v.extractLsb' 32 32 == 0#32

/-- `shadow_stack_lock_cmpxchg8b(addr, new, expected)` (R60): the 8 bytes at `addr` become `new` where they are
`expected`; memory is left as it was otherwise, and nothing is raised (92 D24; log 26). -/
def State.lockCmpxchg8b (s : State) (addr new expected : Word) : Exec State :=
  match s.memRead .shadowLockedWrite addr 8 with
  | .ok cur =>
    if cur = expected then .ok { s with mem := s.mem.writeLE s.linearBits 8 addr.toNat new.toNat }
    else .ok s
  | .error e => .error e

/-- The token free (R145, R175): the token at `oldSsp` is expected to hold its own address with the busy bit, bit 0,
set, and is given its own address with the bit clear. -/
def State.freeToken (s : State) (oldSsp : Word) : Exec State :=
  s.lockCmpxchg8b oldSsp oldSsp (oldSsp ||| 1#64)

/-! ## Fetch -/

/-- Up to `n` bytes from linear address `a` on, ending at the first byte nothing has written. -/
def Memory.fetchBytes (m : Memory) (w : Nat) : Nat → Nat → List Byte
  | 0, _ => []
  | n + 1, a =>
    match m.readByte (a % 2 ^ w) with
    | some b => b :: Memory.fetchBytes m w n (a + 1)
    | none => []

/-- How many bytes the fetch looks at: the longest instruction of the architecture.  PRESUMED (log 39); the longest
form of `RET` with admitted prefixes has `maxInstrBytes`, the rest is there to tell a `RET` opcode behind prefixes that
are not admitted (R78) from other bytes (R79). -/
def fetchWindowBytes : Nat := 15

/-- The bytes at `CSBASE + RIP` (R24, R66; logs 25 and 39). -/
def State.fetchWindow (s : State) : List Byte :=
  s.mem.fetchBytes s.linearBits fetchWindowBytes s.lip.toNat

/-- Bytes that end before an instruction does: memory nothing has written ends them (log 7), or the window is full of
prefixes and the bytes are no `RET` (R79; log 39). -/
def State.refusalOfTruncated (s : State) : Refusal :=
  if s.fetchWindow.length < fetchWindowBytes then .unwrittenMemory else .notARet

/-- Fetch and decode (R66, R80, R217(b)). -/
def State.fetch (s : State) : Exec Instr := do
  premise s.cs.hidden.isSome .codeSegmentInvalid
  match decode s.in64 s.fetchWindow with
  | .ok (i, _) => .ok i
  | .error .truncated => refuse s.refusalOfTruncated
  | .error .prefixNotAdmitted => refuse .prefixNotAdmitted
  | .error .notARet => refuse .notARet

end Sys2Proof.Machine
end

