-- ==== Sys2Proof/Machine/Operands.lean ====
section
/-! DEFINITION. What the operands and prefixes of a form mean in a state: operand size, stack-address size, the
immediate (R74, R76, R77). -/

namespace Sys2Proof.Machine

/-- `REX.W`, bit 3 of the REX byte (R76). -/
def rexW (p : Prefixes) : Bool :=
  match p.rex with
  | some r => r.getLsbD 3
  | none => false

/-- `OperandSize` (R76), refused where the prefixes are not admitted in the mode (92 D27; log 21). -/
def State.operandSize (s : State) (far : Bool) (p : Prefixes) : Exec Width :=
  if s.in64 then
    if far then .ok (if rexW p then .w64 else if p.opSize then .w16 else .w32)
    else if p.opSize then refuse .prefixNotAdmitted
    else .ok .w64
  else if p.rex.isSome then refuse .prefixNotAdmitted
  else .ok (if s.cs.desc.db != p.opSize then .w32 else .w16)

/-- `StackAddressSize` (R77). -/
def State.stackAddressSize (s : State) : Width :=
  if s.in64 then .w64 else if s.ss.desc.db then .w32 else .w16

/-- `SRC` (R74): the immediate as a count of bytes, 0 in the forms without operand. -/
def srcBytes (imm : Option (BitVec 16)) : Nat :=
  match imm with
  | some v => v.toNat
  | none => 0

/-- Release of parameters (R96, R132, R147, R162, R177): `sp <- sp + SRC` at a stack-address size, only in the forms
with an operand; "adding zero changes nothing" (R74). -/
def State.release (s : State) (a : Width) (imm : Option (BitVec 16)) : State :=
  match imm with
  | some v => s.addSp a v.toNat
  | none => s

/-- What every form needs of the hidden parts before its rule can be read (`HiddenValid`, R211; log 19): that of CS,
and outside 64-bit mode that of SS. -/
def State.requireSegments (s : State) : Exec Unit := do
  premise s.cs.hidden.isSome .codeSegmentInvalid
  premise (s.in64 || s.ss.hidden.isSome) .stackSegmentInvalid

end Sys2Proof.Machine
end

