-- ==== Sys2Proof/Machine/FarOps.lean ====
section
/-! DEFINITION. What the protected-mode and the IA-32e far return share (42_far_return_protected.md,
43_far_return_ia32e.md): the same tests and writes under two rule numbers, the few that IA-32e mode adds guarded by
the mode. -/

namespace Sys2Proof.Machine

/-- The items of the frame (R121): the return instruction pointer and code selector read before the tests (R120,
R150). -/
structure FarTarget where
  /-- The operand size. -/
  n    : Width
  /-- The immediate, where the form has one. -/
  imm  : Option (BitVec 16)
  /-- The stack-address size in force when the instruction began. -/
  a    : Width
  /-- Return instruction pointer, zero-extended. -/
  ip   : Word
  /-- Return code segment selector. -/
  rcs  : Selector
  /-- The descriptor `rcs` names. -/
  d    : Descriptor
  deriving DecidableEq, Repr

/-- The selector in a stack item: its low 16 bits (R51, R120). -/
def State.readSelector (s : State) (a : Width) (k : Nat) (n : Width) : Exec Selector :=
  match s.stackRead a k n with
  | .ok v => .ok (v.setWidth 16)
  | .error e => .error e

/-- Read of the first two items (R120, R150). -/
def State.readTarget (s : State) (a n : Width) : Exec (Word × Selector) := do
  let ip ← s.stackRead a 0 n
  let rcs ← s.readSelector a n.bytes n
  .ok (ip, rcs)

/-- The tests on the return code segment, in order: R122 to R128 in protected mode, R151 to R159 in IA-32e mode,
where R153 and R155 are added.  Answers the descriptor. -/
def State.checkCodeSegment (s : State) (rcs : Selector) : Exec Descriptor := do
  require (!isNull rcs) (.gp 0)
  require (!s.beyondLimit rcs) (.gp (selCode rcs))
  require (!s.ia32e || s.rangeCanonical (s.descAddr rcs) 8) (.gp (selCode rcs))
  let d ← s.readDesc rcs
  require d.isCode (.gp (selCode rcs))
  require (!(s.ia32e && d.l && d.db)) (.gp (selCode rcs))
  require (!decide (rpl rcs < s.cpl)) (.gp (selCode rcs))
  require (!(d.ec && decide (rpl rcs < d.dpl))) (.gp (selCode rcs))
  require (d.ec || d.dpl == rpl rcs) (.gp (selCode rcs))
  require d.p (.np (selCode rcs))
  .ok d

/-- The tests on a return stack segment selector that is not null and on its descriptor, in order: R137 to R139 in
protected mode, R167 to R169 in IA-32e mode.  Answers the descriptor. -/
def State.checkStackSegment (s : State) (rcs rss : Selector) : Exec Descriptor := do
  require (!s.beyondLimit rss) (.gp (selCode rss))
  require (!s.ia32e || s.rangeCanonical (s.descAddr rss) 8) (.gp (selCode rss))
  let ds ← s.readDesc rss
  require (rpl rss == rpl rcs && ds.isWritableData && ds.dpl == rpl rcs) (.gp (selCode rss))
  require ds.p (.ss (selCode rss))
  .ok ds

/-- Write of the new pointer and of the new code segment register, hidden part included (R131, R141, R161, R171;
92 D16; log 30). -/
def State.enterCode (s : State) (f : FarTarget) (cs : SegReg) : State :=
  { s.writeIp f.n f.ip with cs := cs }

/-- The shadow-stack step of a return to the same level, in the state with the new CS and RIP (R133, R163). -/
def State.sameShadowStep (s : State) : Exec State :=
  if s.shadowStackEnabled s.cpl then do
    require s.sspAligned (.cp .farRetIret)
    let (prev, s1) ← s.shadowFrame
    require (s1.newSspOk prev) (.gp 0)
    .ok { s1 with ssp := prev }
  else .ok s

/-- Pointer, code segment, stack pointer past both items, release at the old stack-address size, shadow-stack step
(R131 to R133, R161 to R163). -/
def State.sameLevel (s : State) (f : FarTarget) : Exec State := do
  let cs ← loadSeg f.rcs f.d
  let s1 := (s.enterCode f cs).addSp f.a (2 * f.n.bytes)
  (s1.release f.a f.imm).sameShadowStep

/-- The shadow-stack tests at the old level, in the state with the new CS and RIP and the old CPL (R142, R172).  The
frame is read unless the return is to level 3; answers its saved SSP. -/
def State.outerShadowTests (s : State) (newCpl : BitVec 2) : Exec (Option Word × State) :=
  if s.shadowStackEnabled s.cpl then do
    require s.sspAligned (.cp .farRetIret)
    if newCpl = 3#2 then .ok (none, s)
    else do
      let (prev, s1) ← s.shadowFrame
      .ok (some prev, s1)
  else .ok (none, s)

/-- The new shadow-stack pointer at the new CPL (R144, R174): IA32_PL3_SSP for level 3, otherwise the saved SSP,
which always has a value with the model's `ShadowStackEnabled` (log 16). -/
def State.switchSsp (s : State) (saved : Option Word) : Exec State :=
  if s.shadowStackEnabled s.cpl then
    match (if s.cpl = 3#2 then some s.sys.pl3Ssp else saved) with
    | none => refuse .tempSspUnset
    | some v => do
      require (s.newSspOk v) (.gp 0)
      .ok { s with ssp := v }
  else .ok s

/-- A data segment register of which the new level has no use: the selector becomes null and the hidden part invalid
(R146, R176; 92 D31; log 36). -/
def SegReg.cleared : SegReg := { sel := 0, hidden := none }

/-- Does the register refer to a segment the level may not access: valid, data or non-conforming code, with
`DPL < CPL` (R146, R176)? -/
def SegReg.inaccessible (cpl : BitVec 2) (r : SegReg) : Bool :=
  match r.hidden with
  | some d => decide (d.dpl < cpl) && d.isDataOrNonConforming
  | none => false

/-- One register of the clearing loop: in protected mode a null selector is cleared too (R146); in IA-32e mode a
register with a null selector is left as it is (R176; 90 C7; log 20). -/
def SegReg.afterOuter (ia32e : Bool) (cpl : BitVec 2) (r : SegReg) : SegReg :=
  if isNull r.sel then (if ia32e then r else SegReg.cleared)
  else if r.inaccessible cpl then SegReg.cleared
  else r

/-- The clearing loop over ES, FS, GS, DS at the new level (R146, R176). -/
def State.clearDataSegs (s : State) : State :=
  { s with es := s.es.afterOuter s.ia32e s.cpl
           fs := s.fs.afterOuter s.ia32e s.cpl
           gs := s.gs.afterOuter s.ia32e s.cpl
           ds := s.ds.afterOuter s.ia32e s.cpl }

/-- The token free of the shadow stack being left, at the SSP in force before the switch (R145, R175). -/
def State.freeOldToken (s : State) (enabled : Bool) (oldSsp : Word) : Exec State :=
  if enabled then s.freeToken oldSsp else .ok s

/-- The return to an outer level once its tests have passed, with the code and stack segment registers to load
and the popped stack pointer `esp` (R141 to R147, R171 to R177).  The writes of the old stack pointer in R141 and R171 are
overwritten by R143 and R173 and are not made (log 24). -/
def State.outerLevel (s : State) (f : FarTarget) (cs : SegReg) (esp : Word) (ss : SegReg) : Exec State := do
  let (saved, s2) ← (s.enterCode f cs).outerShadowTests (rpl f.rcs)
  let s3 := { s2 with cpl := rpl f.rcs, rsp := StackPointer.load f.n s2.draws esp, ss := ss }
  let s4 ← s3.switchSsp saved
  let s5 ← s4.freeOldToken (s2.shadowStackEnabled s2.cpl) s2.ssp
  let s6 := s5.clearDataSegs
  .ok (s6.release s6.stackAddressSize f.imm)

end Sys2Proof.Machine
end

