-- ==== Sys2Proof/Machine/FarIa32e.lean ====
section
/-! DEFINITION. The far return in IA-32e mode (43_far_return_ia32e.md). -/

namespace Sys2Proof.Machine

/-- The stack test of the top `k` bytes (R150, R165): the limits at operand sizes 32 and 16, the canonical range at
every size. -/
def State.ia32eStackOk (s : State) (a n : Width) (k : Nat) : Bool :=
  (n == .w64 || s.stackWithin a k) && s.stackCanonical a k

/-- The tests of the target (R160, R170), both with `#GP(0)`. -/
def State.ia32eTargetOk (s : State) (f : FarTarget) : Bool :=
  s.codeWithin f.ip f.d && s.canonical f.ip

/-- `Ia32eSame` (R160 to R163). -/
def ia32eSame (f : FarTarget) (s : State) : Exec State := do
  require (s.ia32eTargetOk f) (.gp 0)
  s.sameLevel f

/-- The stack segment register to load (R166 to R169).  A null selector is accepted into 64-bit code below level 3
with its RPL equal to that of the code selector, and gives an invalid hidden part (92 D20; log 17). -/
def State.ia32eStackSegment (s : State) (f : FarTarget) (rss : Selector) : Exec SegReg :=
  if isNull rss then do
    require f.d.l (.gp (selCode rss))
    require (!(rpl rss == 3#2)) (.gp (selCode rss))
    require (rpl rss == rpl f.rcs) (.gp (selCode rss))
    .ok { sel := rss, hidden := none }
  else do
    let ds ← s.checkStackSegment f.rcs rss
    .ok { sel := rss, hidden := some ds }

/-- The accessed bit of the stack descriptor about to be loaded (R61; 92 D32; log 14); an accepted null selector
loads none. -/
def requireAccessed (r : SegReg) : Exec Unit :=
  premise (match r.hidden with
    | some d => d.accessed
    | none => true) .accessedBitClear

/-- `Ia32eOuter` (R165 to R177).  The return stack pointer is the item at `2n + SRC` (R121), read after the tests
(R171; log 24). -/
def ia32eOuter (f : FarTarget) (s : State) : Exec State := do
  require (s.ia32eStackOk f.a f.n (4 * f.n.bytes + srcBytes f.imm)) (.ss 0)
  let rss ← s.readSelector f.a (3 * f.n.bytes + srcBytes f.imm) f.n
  let ss ← s.ia32eStackSegment f rss
  require (s.ia32eTargetOk f) (.gp 0)
  let cs ← loadSeg f.rcs f.d
  let esp ← s.stackRead f.a (2 * f.n.bytes + srcBytes f.imm) f.n
  requireAccessed ss
  s.outerLevel f cs esp ss

/-- `Ia32eFarReturn` (R150 to R159). -/
def ia32eFarReturn (n : Width) (imm : Option (BitVec 16)) (s : State) : Exec State := do
  require (s.ia32eStackOk s.stackAddressSize n (2 * n.bytes)) (.ss 0)
  let (ip, rcs) ← s.readTarget s.stackAddressSize n
  let d ← s.checkCodeSegment rcs
  let f : FarTarget := { n := n, imm := imm, a := s.stackAddressSize, ip := ip, rcs := rcs, d := d }
  if s.cpl < rpl rcs then ia32eOuter f s else ia32eSame f s

end Sys2Proof.Machine
end

