-- ==== Sys2Proof/Machine/FarProtected.lean ====
section
/-! DEFINITION. The far return in protected mode (42_far_return_protected.md). -/

namespace Sys2Proof.Machine

/-- `ProtSame` (R130 to R133). -/
def protSame (f : FarTarget) (s : State) : Exec State := do
  require (s.codeWithin f.ip f.d) (.gp 0)
  s.sameLevel f

/-- `ProtOuter` (R135 to R147).  The return stack pointer is the item at `2n + SRC` (R121), read after the tests
(R141; log 24). -/
def protOuter (f : FarTarget) (s : State) : Exec State := do
  require (s.stackWithin f.a (4 * f.n.bytes + srcBytes f.imm)) (.ss 0)
  let rss ← s.readSelector f.a (3 * f.n.bytes + srcBytes f.imm) f.n
  require (!isNull rss) (.gp 0)
  let ds ← s.checkStackSegment f.rcs rss
  require (s.codeWithin f.ip f.d) (.gp 0)
  let cs ← loadSeg f.rcs f.d
  let esp ← s.stackRead f.a (2 * f.n.bytes + srcBytes f.imm) f.n
  let ss ← loadSeg rss ds
  s.outerLevel f cs esp ss

/-- `ProtFarReturn` (R120 to R129). -/
def protFarReturn (n : Width) (imm : Option (BitVec 16)) (s : State) : Exec State := do
  require (s.stackWithin s.stackAddressSize (2 * n.bytes)) (.ss 0)
  let (ip, rcs) ← s.readTarget s.stackAddressSize n
  let d ← s.checkCodeSegment rcs
  let f : FarTarget := { n := n, imm := imm, a := s.stackAddressSize, ip := ip, rcs := rcs, d := d }
  if s.cpl < rpl rcs then protOuter f s else protSame f s

end Sys2Proof.Machine
end

