-- ==== Sys2Proof/Machine/FarReal.lean ====
section
/-! DEFINITION. The far return in real-address and virtual-8086 mode (41_far_return_real_v86.md R113 to R118). -/

namespace Sys2Proof.Machine

/-- `LoadCsReal(sel16)` (R116): the selector, and 16 times it as base; the rest of the hidden part stays (92 D17;
log 30). -/
def State.loadCsReal (s : State) (sel : Selector) : State :=
  { s with cs := { sel := sel
                   hidden := s.cs.hidden.map fun d => { d with base := sel.setWidth 32 <<< 4 } } }

/-- Release of parameters (R115): SP only, and every far return with operand, `imm16 == 0` among them, is refused where
`SS.B == 1` (92 D33; 93 U7; logs 15 and 37). -/
def State.releaseReal (s : State) (imm : Option (BitVec 16)) : Exec State :=
  match imm with
  | some v => do
    premise (!s.ss.desc.db) .realStack16
    .ok (s.addSp .w16 v.toNat)
  | none => .ok s

/-- `RealFarReturn` (R113 at operand size 32, R114 at 16; the target test at 32 by R118, log 12). -/
def realFarReturn (n : Width) (imm : Option (BitVec 16)) (s : State) : Exec State := do
  require (s.stackWithin s.stackAddressSize (2 * n.bytes)) (.ss 0)
  let (t, s1) ← s.pop s.stackAddressSize n
  require (s1.codeWithin t s1.cs.desc) (.gp 0)
  let (c, s2) ← (s1.writeIp n t).pop s.stackAddressSize n
  (s2.loadCsReal (c.setWidth 16)).releaseReal imm

end Sys2Proof.Machine
end

