-- ==== Sys2Proof/Machine/Far.lean ====
section
/-! DEFINITION. The far return: dispatch on the mode (R112) and the meanings of `RET_FAR` (R110) and
`RET_FAR_IMM16` (R111). -/

namespace Sys2Proof.Machine

/-- `FarReturn(OperandSize, hasImm, SRC)` (R112; 90 C1). -/
def farReturn (n : Width) (imm : Option (BitVec 16)) (s : State) : Exec State :=
  if s.realOrV86 then realFarReturn n imm s
  else if s.ia32e then ia32eFarReturn n imm s
  else protFarReturn n imm s

/-- A far return with the prefixes it carries. -/
def runFar (p : Prefixes) (imm : Option (BitVec 16)) (s : State) : Exec State := do
  s.requireSegments
  let n ← s.operandSize true p
  farReturn n imm s

/-- `RET_FAR` (R110). -/
def execRetFar (p : Prefixes) (s : State) : Host.Outcome State Fault Refusal :=
  finish (runFar p none s)

/-- `RET_FAR_IMM16` (R111). -/
def execRetFarImm16 (p : Prefixes) (imm : BitVec 16) (s : State) : Host.Outcome State Fault Refusal :=
  finish (runFar p (some imm) s)

end Sys2Proof.Machine
end

