-- ==== Sys2Proof/Machine/Near.lean ====
section
/-! DEFINITION. The near return (40_near_return.md): procedure R92 to R97 and the meanings of `RET_NEAR` (R90) and
`RET_NEAR_IMM16` (R91). -/

namespace Sys2Proof.Machine

/-- The test of the popped pointer: `Canonical` at operand size 64, `CodeWithin` at 16 and 32 (R93 to R95, R97;
92 D7; log 12). -/
def State.nearTargetOk (s : State) (n : Width) (t : Word) : Bool :=
  match n with
  | .w16 => s.codeWithin t s.cs.desc
  | .w32 => s.codeWithin t s.cs.desc
  | .w64 => s.canonical t

/-- The bytes of a near entry of the shadow stack: 4 at operand sizes 16 and 32, 8 at 64 (R93 to R95). -/
def nearShadowBytes (n : Width) : Nat :=
  match n with
  | .w16 => 4
  | .w32 => 4
  | .w64 => 8

/-- The shadow-stack step of a near return, with the pointer already written (R93 to R95). -/
def State.nearShadowStep (s : State) (n : Width) : Exec State :=
  if s.shadowStackEnabled s.cpl then do
    let (entry, s1) ← s.shadowPop (nearShadowBytes n)
    require (s1.rip == entry) (.cp .nearRet)
    .ok s1
  else .ok s

/-- The stack test of a near return: the limits, and at operand size 64 the canonical range (R93 to R95, R56). -/
def State.nearStackOk (s : State) (a n : Width) : Bool :=
  s.stackWithin a n.bytes && (n != .w64 || s.stackCanonical a n.bytes)

/-- `NearReturn(OperandSize, hasImm, SRC)` (R92), the same in every mode. -/
def nearReturn (n : Width) (imm : Option (BitVec 16)) (s : State) : Exec State := do
  require (s.nearStackOk s.stackAddressSize n) (.ss 0)
  let (t, s1) ← s.pop s.stackAddressSize n
  require (s1.nearTargetOk n t) (.gp 0)
  let s2 ← (s1.writeIp n t).nearShadowStep n
  .ok (s2.release s.stackAddressSize imm)

/-- A near return with the prefixes it carries. -/
def runNear (p : Prefixes) (imm : Option (BitVec 16)) (s : State) : Exec State := do
  s.requireSegments
  let n ← s.operandSize false p
  nearReturn n imm s

/-- `RET_NEAR` (R90). -/
def execRetNear (p : Prefixes) (s : State) : Host.Outcome State Fault Refusal :=
  finish (runNear p none s)

/-- `RET_NEAR_IMM16` (R91). -/
def execRetNearImm16 (p : Prefixes) (imm : BitVec 16) (s : State) : Host.Outcome State Fault Refusal :=
  finish (runNear p (some imm) s)

end Sys2Proof.Machine
end

