-- ==== Sys2Proof/Machine/Dispatch.lean ====
section
/-! DEFINITION. One arm per form of `RET`. -/

namespace Sys2Proof.Machine

def exec (i : Instr) (s : State) : Host.Outcome State Fault Refusal :=
  match i with
  | .retNear p => Sys2Proof.Machine.execRetNear p s
  | .retFar p => Sys2Proof.Machine.execRetFar p s
  | .retNearImm16 p imm => Sys2Proof.Machine.execRetNearImm16 p imm s
  | .retFarImm16 p imm => Sys2Proof.Machine.execRetFarImm16 p imm s

end Sys2Proof.Machine
end

