-- ==== Sys2Proof/Machine/Step.lean ====
section
/-! DEFINITION. One step: fetch, decode, execute (R66, R80, R217). -/

namespace Sys2Proof.Machine

/-- One step.  `RET` overwrites the instruction pointer on every path and never uses the next sequential address
(R20, R75), so nothing is added around `exec`. -/
def step (s : State) : Host.Outcome State Fault Refusal :=
  match s.fetch with
  | .ok i => exec i s
  | .error (.fault f) => .fault f
  | .error (.refused r) => .refused r

/-- The state with an instruction's bytes stored where `step` fetches (log 6): `w` numbered as
spec/opcode_table.json numbers it, the bits above `nbits` zero up to the longest instruction. -/
def State.withFetchWord (s : State) (nbits w : Nat) : State :=
  { s with mem := s.mem.writeLE s.linearBits maxInstrBytes s.lip.toNat (w % 2 ^ nbits) }

end Sys2Proof.Machine
end

