-- ==== Sys2Proof/Safety.lean ====
section
/-! DEFINITION. The launch premises of R211, the invariants claims use, a safe run, and the halt convention of R217. -/

namespace Sys2Proof.Machine

/-! ## Launch premises (R211) -/

/-- `ModeConsistent` (R31, R211). -/
def State.modeConsistent (s : State) : Bool :=
  (s.pe || !s.lma) && !(s.vm && s.lma) && (!s.cs.desc.l || s.lma)

/-- `CplConsistent` (R24, R27, R211): level 0 in real-address mode, level 3 in virtual-8086 mode, `CS.sel[1:0]`
otherwise. -/
def State.cplConsistent (s : State) : Bool :=
  if !s.pe then s.cpl == 0#2 else if s.vm then s.cpl == 3#2 else s.cpl == rpl s.cs.sel

/-- The base is 16 times the selector (R116, R211). -/
def SegReg.realBase (r : SegReg) : Bool := r.desc.base == r.sel.setWidth 32 <<< 4

/-- `HiddenValid` (R211). -/
def State.hiddenValid (s : State) : Bool :=
  s.cs.hidden.isSome && s.ss.hidden.isSome && (!s.realOrV86 || (s.cs.realBase && s.ss.realBase))

/-- `RealStack16` (R115, R211). -/
def State.realStack16 (s : State) : Bool := !s.realOrV86 || !s.ss.desc.db

/-- `NoMemFault` (R52, R211). -/
def State.noMemFault (s : State) : Bool := s.memFaults.isEmpty

/-- `SstkUniform` (R34, R211): one value for levels 0, 1 and 2, false in real-address and virtual-8086 mode. -/
def State.sstkUniform (s : State) : Prop :=
  (∀ c c' : BitVec 2, c ≠ 3#2 → c' ≠ 3#2 → s.shadowStackEnabled c = s.shadowStackEnabled c') ∧
    (s.realOrV86 = true → ∀ c, s.shadowStackEnabled c = false)

/-- The decidable premises together.  `AccessedSet` is about a run and stands at the end of this file.  `PlainMemory`, `OneProcessor` and `NoFault` hold of the machine by its making:
memory is data, only the step writes it, and a fault has no next state. -/
def State.launchOk (s : State) : Bool :=
  s.modeConsistent && s.cplConsistent && s.hiddenValid && s.realStack16 && s.noMemFault && s.mem.wf

/-! ## Invariants -/

/-- What every far return of the mode leaves in CS (R116, R122 to R128, R151 to R159): in real-address and
virtual-8086 mode the base is 16 times the selector; otherwise the selector is not null and the hidden part is a
present code segment whose DPL fits CPL, not with `L` and `D` both set in IA-32e mode. -/
def State.codeSegmentLoaded (s : State) : Bool :=
  match s.cs.hidden with
  | none => false
  | some d =>
    if s.realOrV86 then s.cs.realBase
    else
      !isNull s.cs.sel && d.isCode && d.p && (if d.ec then !decide (s.cpl < d.dpl) else d.dpl == s.cpl)
        && !(s.ia32e && d.l && d.db)

/-- The machine's invariant: canonical memory, CPL as CS says, CS as a far return leaves it. -/
def State.inv (s : State) : Bool := s.mem.wf && s.cplConsistent && s.codeSegmentLoaded

/-- 4-byte alignment of the shadow-stack pointers (R58): what the far return tests of the saved SSP. -/
def State.sspWordAligned (s : State) : Bool :=
  s.ssp.extractLsb' 0 2 == 0#2 && s.sys.pl3Ssp.extractLsb' 0 2 == 0#2

/-- The shadow stack at SSP holds the far frame of a selector and a linear instruction pointer, with `prev` saved
(R133, R142, R163, R172): what `State.shadowFrame` tests. -/
abbrev State.farFrameIs (s : State) (sel : Selector) (lip prev : Word) : Prop :=
  s.sspLoad 16 = .ok (sel.setWidth 64) ∧ s.sspLoad 8 = .ok lip ∧ s.sspLoad 0 = .ok prev ∧
    prev.extractLsb' 0 2 = 0#2

/-! ## The terms of the statements -/

/-- A byte that is a prefix of the architecture in the mode (R76, R78). -/
abbrev prefixIn (is64 : Bool) (b : Byte) : Prop :=
  b ∈ [0x66#8, 0xF0#8, 0xF2#8, 0xF3#8, 0x67#8, 0x26#8, 0x2E#8, 0x36#8, 0x3E#8, 0x64#8, 0x65#8] ∨
    (is64 = true ∧ b.extractLsb' 4 4 = 4#4)

/-- The prefix sequences R76 and R80 admit before an opcode byte: none; `66`, but not before a near return in 64-bit mode;
in 64-bit mode one REX byte, and before a far return `66` and then one. -/
abbrev prefixesAdmitted (is64 : Bool) (ps : List Byte) (op : Byte) : Prop :=
  ps = [] ∨ (ps = [0x66#8] ∧ ¬(is64 = true ∧ op ∈ [0xC2#8, 0xC3#8])) ∨
    (is64 = true ∧ ∃ r : BitVec 4, ps = [4#4 ++ r]) ∨
    (is64 = true ∧ op ∈ [0xCA#8, 0xCB#8] ∧ ∃ r : BitVec 4, ps = [0x66#8, 4#4 ++ r])

/-- A form can be read in a state, at operand size `n`: the hidden parts it needs are valid (R211) and its prefixes are
admitted (R76). -/
abbrev State.ready (s : State) (i : Instr) (n : Width) : Prop :=
  s.requireSegments = .ok () ∧ s.operandSize i.isFar i.prefixes = .ok n

/-- Protected or IA-32e mode, as a far return tests the mode (R31, R112). -/
def State.segmented (s : State) : Bool := !s.realOrV86

/-- The stack test of a far return on the top `k` bytes (R120, R135; R150, R165). -/
def State.farStackOk (s : State) (n : Width) (k : Nat) : Bool :=
  if s.ia32e then
    (n == .w64 || s.stackWithin s.stackAddressSize k) && s.stackCanonical s.stackAddressSize k
  else s.stackWithin s.stackAddressSize k

/-- The target test of a far return into the segment `d` (R130, R140; R160, R170). -/
def State.farTargetOk (s : State) (ip : Word) (d : Descriptor) : Bool :=
  s.codeWithin ip d && (!s.ia32e || s.canonical ip)

/-- The code segment `d` makes the processor run in 64-bit mode (R161). -/
def State.enters64 (s : State) (d : Descriptor) : Bool := s.ia32e && d.l

/-- The linear instruction pointer of `ip` in the segment `d`: `CSBASE + RIP` after the return (R24, R133, R163). -/
def State.lipIn (s : State) (d : Descriptor) (ip : Word) : Word :=
  s.linear (if s.enters64 d then 0 else d.base.setWidth 64) ip

/-- A new SSP is in range for the code segment `d` (R133, R144, R163, R174). -/
def State.sspOkIn (s : State) (d : Descriptor) (v : Word) : Bool :=
  if s.enters64 d then s.canonical v else v.extractLsb' 32 32 == 0#32

/-- The stack-address size of the state returned to (R77, R147, R177). -/
def State.sasIn (s : State) (d : Descriptor) (ss : SegReg) : Width :=
  if s.enters64 d then .w64 else if ss.desc.db then .w32 else .w16

/-- The address of the token an outer return to level `c` frees: SSP, past the frame unless `c` is 3 (R142, R145,
R172, R175). -/
def State.tokenAddress (s : State) (c : BitVec 2) : Word := if c = 3#2 then s.ssp else s.ssp + 24#64

/-- The return stack segment of an outer far return passes its tests, and the register it will load: a segment (R137 to
R139, R167 to R169), or in IA-32e mode an accepted null selector (R166). -/
def State.outerStackPasses (s : State) (rcs rss : Selector) (d : Descriptor) (ss : SegReg) : Prop :=
  (isNull rss = false ∧ ∃ ds, s.checkStackSegment rcs rss = .ok ds ∧ ss = { sel := rss, hidden := some ds }) ∨
  (s.ia32e = true ∧ isNull rss = true ∧ d.l = true ∧ rpl rss ≠ 3#2 ∧ rpl rss = rpl rcs ∧
    ss = { sel := rss, hidden := none })

/-- What an outer far return needs of its return stack segment: its tests pass, and the accessed bit of the descriptor
it loads, if it loads one, is set (R61). -/
def State.outerStackSegment (s : State) (rcs rss : Selector) (d : Descriptor) (ss : SegReg) : Prop :=
  s.outerStackPasses rcs rss d ss ∧ ∀ ds, ss.hidden = some ds → ds.accessed = true

/-- The memory oracle refuses an access (R52; log 4): it is asked with the address in the linear space. -/
abbrev State.refuses (s : State) (kind : AccessKind) (addr : Word) (n : Nat) : Prop :=
  { addr := addr.toNat % 2 ^ s.linearBits, size := n, kind := kind } ∈ s.memFaults

/-- One of the three reads of a far shadow-stack frame, in their order, is refused and those before it are not (R52,
R133). -/
abbrev State.refusesFarFrame (s : State) : Prop :=
  s.refuses .shadowRead (s.ssp + 16#64) 8 ∨
  (∃ c, s.sspLoad 16 = .ok c) ∧ s.refuses .shadowRead (s.ssp + 8#64) 8 ∨
  (∃ c l, s.sspLoad 16 = .ok c ∧ s.sspLoad 8 = .ok l) ∧ s.refuses .shadowRead s.ssp 8

/-- The code or stack descriptor `d` is one that the far return `i` loads in this state (R61, R131, R141, R161, R171): it
names it, and every test and read before the load passes.  None in real-address and virtual-8086 mode (R116); the code
descriptor of a return to the same level (R120 to R130, R150 to R160); the code descriptor of a return to an outer level
(R135 to R140, R165 to R170), and after the read of the new stack pointer its stack descriptor, unless an accepted null
selector names none (R166).  The places of the loads: log 14. -/
def State.loads (s : State) (i : Instr) (d : Descriptor) : Prop :=
  i.isFar = true ∧ s.segmented = true ∧ ∃ n ip rcs c, s.ready i n ∧ s.farStackOk n (2 * n.bytes) = true ∧
    s.readTarget s.stackAddressSize n = .ok (ip, rcs) ∧ s.checkCodeSegment rcs = .ok c ∧ s.farTargetOk ip c = true ∧
    ((¬ s.cpl < rpl rcs ∧ d = c) ∨
     (s.cpl < rpl rcs ∧ s.farStackOk n (4 * n.bytes + srcBytes i.imm) = true ∧
       ∃ rss ss, s.readSelector s.stackAddressSize (3 * n.bytes + srcBytes i.imm) n = .ok rss ∧
         s.outerStackPasses rcs rss c ss ∧
         (d = c ∨
          ((∃ esp, s.stackRead s.stackAddressSize (2 * n.bytes + srcBytes i.imm) n = .ok esp) ∧ ss.hidden = some d))))

/-- The same outcome with the next state changed. -/
def mapNext (g : State → State) (o : Host.Outcome State Fault Refusal) : Host.Outcome State Fault Refusal :=
  match o with
  | .next t => .next (g t)
  | .fault f => .fault f
  | .refused r => .refused r

/-! ## Runs -/

/-- `AccessedSet` (R61, R211) for the first `k` steps: every code or stack descriptor that a far return of them loads, in
the state in which it runs, has its accessed bit set.  Descriptors no far return loads are not asked about. -/
def State.accessedWithin (k : Nat) (s : State) : Prop :=
  ∀ (j : Nat) (t : State) (i : Instr) (d : Descriptor), j < k → Sys2Proof.core.run j s = .next t → t.fetch = .ok i →
    t.loads i d → d.accessed = true

/-- `AccessedSet` (R61, R211) for the whole run from a state.  A claim whose run is final after `k` steps (R217(c)) needs
`accessedWithin k` only. -/
def State.accessedSet (s : State) : Prop := ∀ k, s.accessedWithin k

/-- No fault in the first `k` steps (R192). -/
def SafeRun (k : Nat) (s : State) : Prop := ∀ f : Fault, Sys2Proof.core.run k s ≠ .fault f

/-- The halt convention of a claim that names `h` (R217(c); log 34). -/
def State.atHalt (h : Nat) (s : State) : Bool := s.lip.toNat == h

end Sys2Proof.Machine
end

