-- ==== Sys2Proof/Certificates/Slice0/Obligations.lean ====
section
/-! DEFINITION. The statements for the provers.  Each names the rules of spec/ it formalises. -/

open Sys2Proof Sys2Proof.Machine

/-! ## Encoding -/

/-- Decoding an encoded well-formed instruction gives it back, and the bytes after it (R71 to R76, R80). -/
def Obligations.DecodeOfEncodeIsTheInstruction : Prop :=
  ∀ (is64 : Bool) (i : Instr) (rest : List Byte), i.wellFormed is64 = true →
    decode is64 (encode i ++ rest) = .ok (i, rest)

/-- Bytes that decode are the encoding of what they decode to, which is well-formed (R71 to R76, R79, R80). -/
def Obligations.DecodedBytesAreTheEncoding : Prop :=
  ∀ (is64 : Bool) (bs rest : List Byte) (i : Instr), decode is64 bs = .ok (i, rest) →
    bs = encode i ++ rest ∧ i.wellFormed is64 = true

/-- The bytes of the four forms, written out (R71 to R74, R76; 95 VE1 to VE4, VE11). -/
def Obligations.OpcodeBytesDecode : Prop :=
  decode false [0xC3] = .ok (.retNear { opSize := false, rex := none }, []) ∧
  decode false [0xCB] = .ok (.retFar { opSize := false, rex := none }, []) ∧
  decode false [0xC2, 0x34, 0x12] = .ok (.retNearImm16 { opSize := false, rex := none } 0x1234, []) ∧
  decode false [0xCA, 0x00, 0x01] = .ok (.retFarImm16 { opSize := false, rex := none } 0x0100, []) ∧
  decode true [0x66, 0x48, 0xCB] = .ok (.retFar { opSize := true, rex := some 8 }, [])

/-- A `RET` opcode after any sequence of prefixes that R76 and R80 do not admit before it (another prefix, a second `66`, a
REX byte that is not last or not single, `66` on a near return in 64-bit mode) is refused by the decoder under that name
(R76, R78; log 21).  Where no `RET` opcode follows the prefixes, or none stands there without any, the bytes are not a
`RET` (R79); and a REX byte is no prefix outside 64-bit mode (R80). -/
def Obligations.PrefixesNotAdmittedAreRefused : Prop :=
  (∀ (is64 : Bool) (ps : List Byte) (op : Byte) (rest : List Byte), (∀ p ∈ ps, prefixIn is64 p) →
    op ∈ [0xC2#8, 0xC3#8, 0xCA#8, 0xCB#8] → ¬ prefixesAdmitted is64 ps op →
    decode is64 (ps ++ op :: rest) = .error .prefixNotAdmitted) ∧
  (∀ (is64 : Bool) (ps : List Byte) (op : Byte) (rest : List Byte), (∀ p ∈ ps, prefixIn is64 p) →
    op ∉ [0xC2#8, 0xC3#8, 0xCA#8, 0xCB#8] → ¬ prefixIn is64 op →
    decode is64 (ps ++ op :: rest) = .error .notARet) ∧
  (∀ (r : BitVec 4) (rest : List Byte), decode false ((4#4 ++ r) :: rest) = .error .notARet)

/-- A step executes the instruction the bytes at `CSBASE + RIP` decode to (R66, R80). -/
def Obligations.StepExecutesTheDecodedInstruction : Prop :=
  ∀ (s : State) (i : Instr) (rest : List Byte), s.cs.hidden.isSome = true →
    decode s.in64 s.fetchWindow = .ok (i, rest) → step s = exec i s

/-- Bytes that are not a `RET` with admitted prefixes are refused, not faulted (R78, R79, R217(b)); so are bytes that end
where nothing has been written, and a whole fetch window of prefixes (the model's choices, logs 7 and 39). -/
def Obligations.StepRefusesWhatIsNotARet : Prop :=
  ∀ s : State, s.cs.hidden.isSome = true →
    (decode s.in64 s.fetchWindow = .error .notARet → step s = .refused .notARet) ∧
    (decode s.in64 s.fetchWindow = .error .prefixNotAdmitted → step s = .refused .prefixNotAdmitted) ∧
    (decode s.in64 s.fetchWindow = .error .truncated → s.fetchWindow.length < fetchWindowBytes →
      step s = .refused .unwrittenMemory) ∧
    (decode s.in64 s.fetchWindow = .error .truncated → s.fetchWindow.length = fetchWindowBytes →
      step s = .refused .notARet)

/-- The table of R76.  Every well-formed instruction, and no other, has an operand size.  Outside 64-bit mode it is 16 with
`CS.D == 0` and 32 with `CS.D == 1`, and `66` gives the other (`CS.D == 1` in real-address and virtual-8086 mode: log 22);
64 never arises there.  In 64-bit mode a near return has 64, a far return 64 with REX.W, `66` or not, otherwise 16 with
`66` and 32 without. -/
def Obligations.OperandSizesThatArise : Prop :=
  ∀ (s : State) (i : Instr),
    ((∃ n, s.operandSize i.isFar i.prefixes = .ok n) ↔ i.wellFormed s.in64 = true) ∧
    (s.operandSize i.isFar i.prefixes = .ok .w64 → s.in64 = true) ∧
    (s.in64 = false → i.prefixes.rex = none →
      (s.cs.desc.db = false → i.prefixes.opSize = false → s.operandSize i.isFar i.prefixes = .ok .w16) ∧
      (s.cs.desc.db = false → i.prefixes.opSize = true → s.operandSize i.isFar i.prefixes = .ok .w32) ∧
      (s.cs.desc.db = true → i.prefixes.opSize = false → s.operandSize i.isFar i.prefixes = .ok .w32) ∧
      (s.cs.desc.db = true → i.prefixes.opSize = true → s.operandSize i.isFar i.prefixes = .ok .w16)) ∧
    (s.in64 = true → i.isFar = false → i.prefixes.opSize = false →
      s.operandSize i.isFar i.prefixes = .ok .w64) ∧
    (s.in64 = true → i.isFar = true →
      (∀ r, i.prefixes.rex = some r → r.getLsbD 3 = true → s.operandSize i.isFar i.prefixes = .ok .w64) ∧
      ((∀ r, i.prefixes.rex = some r → r.getLsbD 3 = false) →
        (i.prefixes.opSize = true → s.operandSize i.isFar i.prefixes = .ok .w16) ∧
        (i.prefixes.opSize = false → s.operandSize i.isFar i.prefixes = .ok .w32)))

/-! ## The machine as a whole -/

/-- The model's reset state meets the launch premises of R211, AccessedSet and SstkUniform among them, and the invariants
(its values are the model's choice, logs 1 to 5). -/
def Obligations.ResetMeetsTheLaunchPremises : Prop :=
  State.reset.launchOk = true ∧ State.reset.accessedSet ∧ State.reset.sstkUniform ∧ State.reset.inv = true ∧
    State.reset.sspWordAligned = true

/-- Every step keeps memory in its canonical form (R50, R60; the form is the model's, log 7). -/
def Obligations.StepKeepsMemoryCanonical : Prop :=
  ∀ s t : State, s.mem.wf = true → step s = .next t → t.mem.wf = true

/-- Every step keeps the machine's invariant: canonical memory, CPL as CS says (R24, R27), and CS as a far return of the
mode leaves it (R116, R122 to R128, R151 to R159). -/
def Obligations.StepKeepsTheInvariant : Prop :=
  ∀ s t : State, s.inv = true → step s = .next t → t.inv = true

/-- While IA32_PL3_SSP is 4-byte aligned, the shadow-stack pointer stays 4-byte aligned (R58, R59, R133, R144, R163, R174).
The premise on IA32_PL3_SSP is needed, and is kept: an outer return to level 3 loads SSP from it, and R144 and R174 test
its range only. -/
def Obligations.StepKeepsSspWordAligned : Prop :=
  ∀ s t : State, s.sspWordAligned = true → step s = .next t → t.sspWordAligned = true

/-- `RET` writes no flag and reads only VM: every form leaves EFLAGS as it was, and from a state with any other EFLAGS of
the same VM every form has the same outcome but for EFLAGS itself (R28). -/
def Obligations.FlagsAreNotWrittenAndOnlyVmIsRead : Prop :=
  ∀ (i : Instr) (s : State) (e : BitVec 32), State.vm { s with eflags := e } = s.vm →
    (∀ t, exec i s = .next t → t.eflags = s.eflags) ∧
    exec i { s with eflags := e } = mapNext (fun t => { t with eflags := e }) (exec i s)

/-- The fifteen other general registers are neither read nor written (R22). -/
def Obligations.OtherGeneralRegistersAreUntouched : Prop :=
  ∀ (i : Instr) (s : State) (g : GeneralRegs),
    (∀ t, exec i s = .next t → t.gprs = s.gprs) ∧
    exec i { s with gprs := g } = mapNext (fun t => { t with gprs := g }) (exec i s)

/-- The control and model-specific registers and the descriptor-table registers are never written (R29, R30, R33,
R35). -/
def Obligations.SystemRegistersAreNeverWritten : Prop :=
  ∀ (i : Instr) (s t : State), exec i s = .next t → t.sys = s.sys ∧ t.memFaults = s.memFaults

/-- R198: a return leaves CPL unchanged or raises it numerically; only a far return of protected or IA-32e mode changes
it, and its new CPL is the RPL of the popped code selector; the modes are not changed, but for 64-bit and
compatibility mode inside IA-32e mode by a far return, exactly when the new code segment's `L` bit differs from the old
one. -/
def Obligations.ReturnNeverGainsPrivilege : Prop :=
  ∀ (i : Instr) (s t : State), exec i s = .next t →
    ¬ t.cpl < s.cpl ∧
    (t.cpl ≠ s.cpl → i.isFar = true ∧ s.segmented = true) ∧
    (∀ n ip rcs, i.isFar = true → s.segmented = true → s.ready i n →
      s.readTarget s.stackAddressSize n = .ok (ip, rcs) → t.cpl = rpl rcs ∧ t.cs.sel = rcs) ∧
    t.pe = s.pe ∧ t.vm = s.vm ∧ t.lma = s.lma ∧
    (t.in64 ≠ s.in64 ↔ i.isFar = true ∧ s.ia32e = true ∧ t.cs.desc.l ≠ s.cs.desc.l)

/-- Memory changes only where an outer return frees a token: not in a near return, not in real-address or virtual-8086
mode, not in a return to the same level, not without a shadow stack; and then every byte outside the 8 bytes of the
token at the computed address reads as before (R98, R117, R134, R145, R164, R175; addresses wrap as log 10 says). -/
def Obligations.MemoryChangesOnlyInTheFreedToken : Prop :=
  ∀ (i : Instr) (s t : State), exec i s = .next t →
    (i.isFar = false ∨ s.realOrV86 = true ∨ t.cpl = s.cpl ∨ s.shadowStackEnabled s.cpl = false →
      t.mem = s.mem) ∧
    (∀ b : Nat, (∀ j, j < 8 → b ≠ ((s.tokenAddress t.cpl).toNat + j) % 2 ^ s.linearBits) →
      t.mem.readByte b = s.mem.readByte b)

/-- A return that does not change the level leaves SS and the data segment registers as they were (R26, R98, R117, R134,
R164). -/
def Obligations.SameLevelReturnsKeepTheOtherSegments : Prop :=
  ∀ (i : Instr) (s t : State), exec i s = .next t → t.cpl = s.cpl →
    t.ss = s.ss ∧ t.ds = s.ds ∧ t.es = s.es ∧ t.fs = s.fs ∧ t.gs = s.gs

/-- What each form can fault with: a near return `#SS(0)`, `#GP(0)`, `#CP(NEAR_RET)`; a far return in real-address or
virtual-8086 mode `#SS(0)`, `#GP(0)`; a far return of the other modes never `#CP(NEAR_RET)`; each also the refused
access; and no exception's selector error code has its two low bits set (R90, R113, R180 to R187, R189, R193). -/
def Obligations.ExceptionsOfEachForm : Prop :=
  ∀ (i : Instr) (s : State) (f : Fault), exec i s = .fault f →
    (i.isFar = false → f ∈ [.ss 0, .gp 0, .cp .nearRet, .memFault]) ∧
    (i.isFar = true → s.realOrV86 = true → f ∈ [.ss 0, .gp 0, .memFault]) ∧
    (i.isFar = true → f ≠ .cp .nearRet) ∧
    (∀ c, f = .ss c ∨ f = .gp c ∨ f = .np c → c &&& 3#16 = 0#16)

/-- `tempSSP` always has a value: with the `ShadowStackEnabled` of R34 no execution is refused for want of one (R144;
the definition is the model's choice, log 9). -/
def Obligations.SavedSspAlwaysHasAValue : Prop :=
  ∀ (i : Instr) (s : State), exec i s ≠ .refused .tempSspUnset

/-- The operand form with `imm16 == 0` is the form without operand (R74), but for a far return with operand in
real-address or virtual-8086 mode with `SS.B == 1`: that R115's refusal counts `imm16 == 0` as an operand there is the
model's choice between R74 and R115 (logs 15 and 37).  That the bits of RSP above the view agree too, after a pop at
operand size 64 onto a 32-bit stack among them, rests on 93 U1 (log 38). -/
def Obligations.ZeroOperandIsNoOperand : Prop :=
  ∀ (p : Prefixes) (s : State),
    exec (.retNearImm16 p 0) s = exec (.retNear p) s ∧
    (s.segmented = true ∨ s.ss.desc.db = false → exec (.retFarImm16 p 0) s = exec (.retFar p) s)

/-! ## Near return -/

/-- A near return completes when its item is within the stack, the popped pointer passes its test and, with a shadow
stack, equals the entry at SSP; then RIP is the popped pointer, the stack pointer is past the item and the released
bytes, SSP is past its entry, and nothing else has changed (R90 to R98).  The bits of RSP above the view in use
stay (R21; at stack-address size 32 by 93 U1, log 38).  The target test is that of R97 (log 12). -/
def Obligations.NearReturnCompletes : Prop :=
  ∀ (i : Instr) (s : State) (n : Width) (v : Word), i.isFar = false → s.ready i n →
    s.nearStackOk s.stackAddressSize n = true →
    s.stackRead s.stackAddressSize 0 n = .ok v →
    s.nearTargetOk n v = true →
    (s.shadowStackEnabled s.cpl = true → s.memRead .shadowRead s.ssp (nearShadowBytes n) = .ok v) →
    ∃ t, exec i s = .next t ∧
      t.sp s.stackAddressSize
        = truncTo s.stackAddressSize (s.sp s.stackAddressSize + BitVec.ofNat 64 (n.bytes + srcBytes i.imm)) ∧
      (s.stackAddressSize ≠ .w64 → t.rsp.hi = s.rsp.hi) ∧
      (s.stackAddressSize = .w16 → t.rsp.mid = s.rsp.mid) ∧
      t = { s with
            rip := v
            rsp := t.rsp
            ssp := if s.shadowStackEnabled s.cpl then s.ssp + BitVec.ofNat 64 (nearShadowBytes n) else s.ssp
            draws := t.draws }

/-- The exceptions of a near return in their order (R92 to R95, R97, R190): the stack test, the target test, the
shadow-stack compare. -/
def Obligations.NearReturnFaultsInOrder : Prop :=
  ∀ (i : Instr) (s : State) (n : Width), i.isFar = false → s.ready i n →
    (s.nearStackOk s.stackAddressSize n = false → exec i s = .fault (.ss 0)) ∧
    (s.nearStackOk s.stackAddressSize n = true → ∀ v, s.stackRead s.stackAddressSize 0 n = .ok v →
      (s.nearTargetOk n v = false → exec i s = .fault (.gp 0)) ∧
      (s.nearTargetOk n v = true → s.shadowStackEnabled s.cpl = true →
        ∀ e, s.memRead .shadowRead s.ssp (nearShadowBytes n) = .ok e → e ≠ v →
          exec i s = .fault (.cp .nearRet)))

/-- R95: the near return at operand size 16.  Two bytes outside the stack limits raise `#SS(0)`; a popped pointer outside
the code segment limits `#GP(0)`; otherwise the pointer is written with its bits 31:16 zero, and with the shadow stack
enabled at CPL it is compared with a 4-byte entry, `#CP(NEAR_RET)` where they differ. -/
def Obligations.NearReturnAtOperandSize16 : Prop :=
  ∀ (i : Instr) (s : State), i.isFar = false → s.ready i .w16 →
    (s.stackWithin s.stackAddressSize 2 = false → exec i s = .fault (.ss 0)) ∧
    (s.stackWithin s.stackAddressSize 2 = true → ∀ v, s.stackRead s.stackAddressSize 0 .w16 = .ok v →
      (s.codeWithin v s.cs.desc = false → exec i s = .fault (.gp 0)) ∧
      (s.codeWithin v s.cs.desc = true →
        (s.shadowStackEnabled s.cpl = false →
          ∃ t, exec i s = .next t ∧ t.rip = v ∧ t.rip.toNat < 2 ^ 16 ∧ t.ssp = s.ssp ∧
            t.sp s.stackAddressSize
              = truncTo s.stackAddressSize (s.sp s.stackAddressSize + BitVec.ofNat 64 (2 + srcBytes i.imm))) ∧
        (s.shadowStackEnabled s.cpl = true → ∀ e, s.memRead .shadowRead s.ssp 4 = .ok e →
          (v ≠ e → exec i s = .fault (.cp .nearRet)) ∧
          (v = e →
            ∃ t, exec i s = .next t ∧ t.rip = v ∧ t.rip.toNat < 2 ^ 16 ∧ t.ssp = s.ssp + 4#64 ∧
              t.sp s.stackAddressSize
                = truncTo s.stackAddressSize (s.sp s.stackAddressSize + BitVec.ofNat 64 (2 + srcBytes i.imm))))))

/-- R186: `#CP(NEAR_RET)` is raised only on a near return with the shadow stack enabled at CPL whose popped return
address differs from the one popped from the shadow stack, and it is raised whenever those differ and the stack and
target tests have passed. -/
def Obligations.NearControlProtectionMeansMismatch : Prop :=
  (∀ (i : Instr) (s : State), exec i s = .fault (.cp .nearRet) →
    i.isFar = false ∧ s.shadowStackEnabled s.cpl = true ∧
      ∃ n v e, s.ready i n ∧ s.stackRead s.stackAddressSize 0 n = .ok v ∧
        s.memRead .shadowRead s.ssp (nearShadowBytes n) = .ok e ∧ v ≠ e) ∧
  (∀ (i : Instr) (s : State) (n : Width) (v e : Word), i.isFar = false → s.ready i n →
    s.nearStackOk s.stackAddressSize n = true → s.stackRead s.stackAddressSize 0 n = .ok v →
    s.nearTargetOk n v = true → s.shadowStackEnabled s.cpl = true →
    s.memRead .shadowRead s.ssp (nearShadowBytes n) = .ok e → v ≠ e → exec i s = .fault (.cp .nearRet))

/-- A near return makes no privilege test and reads no descriptor table and no data segment register: from a state with
any other of them, at any level with the same `ShadowStackEnabled`, it has the same outcome but for them (R98). -/
def Obligations.NearReturnReadsNoDescriptorTable : Prop :=
  ∀ (i : Instr) (s : State) (c : BitVec 2) (g l : TableReg) (d e f h : SegReg), i.isFar = false →
    s.shadowStackEnabled c = s.shadowStackEnabled s.cpl →
    exec i { s with cpl := c, sys := { s.sys with gdtr := g, ldtr := l }, ds := d, es := e, fs := f, gs := h } =
      mapNext (fun t =>
        { t with cpl := c, sys := { s.sys with gdtr := g, ldtr := l }, ds := d, es := e, fs := f, gs := h })
        (exec i s)

/-! ## Far return in real-address and virtual-8086 mode -/

/-- A far return in real-address or virtual-8086 mode completes when both items are within the stack and the popped
pointer within the limit of CS, in the form with operand, of every value, also `SS.B == 0` (R115; logs 15 and 37); then
RIP is the first item, CS.sel the low 16 bits of the second, the base 16 times it, the rest of the hidden part as it was
(log 30), the stack pointer past both items and the released bytes, the bits of RSP above the view in use as they were
(log 38), and nothing else has changed (R112 to R118; the target test log 12). -/
def Obligations.RealFarReturnCompletes : Prop :=
  ∀ (i : Instr) (s : State) (n : Width) (v c : Word), i.isFar = true → s.ready i n → s.realOrV86 = true →
    s.stackWithin s.stackAddressSize (2 * n.bytes) = true →
    s.stackRead s.stackAddressSize 0 n = .ok v →
    s.codeWithin v s.cs.desc = true →
    s.stackRead s.stackAddressSize n.bytes n = .ok c →
    (i.imm.isSome = true → s.ss.desc.db = false) →
    ∃ t, exec i s = .next t ∧
      t.sp s.stackAddressSize
        = truncTo s.stackAddressSize (s.sp s.stackAddressSize + BitVec.ofNat 64 (2 * n.bytes + srcBytes i.imm)) ∧
      (s.stackAddressSize ≠ .w64 → t.rsp.hi = s.rsp.hi) ∧
      (s.stackAddressSize = .w16 → t.rsp.mid = s.rsp.mid) ∧
      t = { s with
            rip := v
            cs := { sel := c.setWidth 16
                    hidden := some { s.cs.desc with base := (c.setWidth 16 : Selector).setWidth 32 <<< 4 } }
            rsp := t.rsp
            draws := t.draws }

/-- Where a far return in real-address or virtual-8086 mode stops, in order (R113 to R115, R118): the stack test, the
target test, and in the form with operand, of every value, a stack with `SS.B == 1`, which is refused (logs 15 and
37). -/
def Obligations.RealFarReturnStopsInOrder : Prop :=
  ∀ (i : Instr) (s : State) (n : Width), i.isFar = true → s.ready i n → s.realOrV86 = true →
    (s.stackWithin s.stackAddressSize (2 * n.bytes) = false → exec i s = .fault (.ss 0)) ∧
    (s.stackWithin s.stackAddressSize (2 * n.bytes) = true → ∀ v, s.stackRead s.stackAddressSize 0 n = .ok v →
      (s.codeWithin v s.cs.desc = false → exec i s = .fault (.gp 0)) ∧
      (s.codeWithin v s.cs.desc = true → ∀ c, s.stackRead s.stackAddressSize n.bytes n = .ok c →
        i.imm.isSome = true → s.ss.desc.db = true → exec i s = .refused .realStack16))

/-- In real-address and virtual-8086 mode a far return makes no privilege test, reads no descriptor table and takes no
shadow-stack step: from a state with any other CPL, tables, SSP and CET registers it has the same outcome but for
them (R113). -/
def Obligations.RealFarReturnReadsNoPrivilegeState : Prop :=
  ∀ (i : Instr) (s : State) (c : BitVec 2) (g l : TableReg) (ssp cr4 u v p : Word), i.isFar = true →
    s.realOrV86 = true →
    exec i { s with cpl := c, ssp := ssp
                    sys := { s.sys with gdtr := g, ldtr := l, cr4 := cr4, uCet := u, sCet := v, pl3Ssp := p } } =
      mapNext (fun t => { t with
        cpl := c, ssp := ssp
        sys := { s.sys with gdtr := g, ldtr := l, cr4 := cr4, uCet := u, sCet := v, pl3Ssp := p } }) (exec i s)

/-! ## Far return in protected and IA-32e mode: tests -/

/-- The stack tests of a far return (R120, R135; R150, R165): `#SS(0)` when the first two items fail it, before
anything else, and when the whole frame of an outer return fails it, after the tests on the code segment. -/
def Obligations.FarStackOutsideIsStackFault : Prop :=
  ∀ (i : Instr) (s : State) (n : Width), i.isFar = true → s.ready i n → s.segmented = true →
    (s.farStackOk n (2 * n.bytes) = false → exec i s = .fault (.ss 0)) ∧
    (∀ ip rcs d, s.farStackOk n (2 * n.bytes) = true → s.readTarget s.stackAddressSize n = .ok (ip, rcs) →
      s.checkCodeSegment rcs = .ok d → s.cpl < rpl rcs → s.farStackOk n (4 * n.bytes + srcBytes i.imm) = false →
      exec i s = .fault (.ss 0))

/-- R122, R151: a null return code segment selector raises `#GP(0)`; the error code is 0, not the selector. -/
def Obligations.NullCodeSelectorIsGeneralProtection : Prop :=
  ∀ (i : Instr) (s : State) (n : Width) (ip : Word) (rcs : Selector), i.isFar = true → s.ready i n →
    s.segmented = true → s.farStackOk n (2 * n.bytes) = true →
    s.readTarget s.stackAddressSize n = .ok (ip, rcs) → isNull rcs = true → exec i s = .fault (.gp 0)

/-- The tests on a return code segment selector that is not null, in order (R123 to R128; R152 to R159): table limit, in
IA-32e mode the descriptor's address, type, in IA-32e mode `L` with `D`, `RPL < CPL`, conforming, non-conforming, each
`#GP(selector)`, then presence, `#NP(selector)`; the error code is the selector without its RPL
(R189, log 32). -/
def Obligations.CodeSegmentTestsInOrder : Prop :=
  ∀ (i : Instr) (s : State) (n : Width) (ip : Word) (rcs : Selector), i.isFar = true → s.ready i n →
    s.segmented = true → s.farStackOk n (2 * n.bytes) = true →
    s.readTarget s.stackAddressSize n = .ok (ip, rcs) → isNull rcs = false →
    (s.beyondLimit rcs = true → exec i s = .fault (.gp (rcs &&& 0xFFFC#16))) ∧
    (s.beyondLimit rcs = false →
      (s.ia32e = true → s.rangeCanonical (s.descAddr rcs) 8 = false →
        exec i s = .fault (.gp (rcs &&& 0xFFFC#16))) ∧
      ((s.ia32e = true → s.rangeCanonical (s.descAddr rcs) 8 = true) → ∀ d, s.readDesc rcs = .ok d →
        ((d.s && d.x) = false ∨ (s.ia32e = true ∧ d.l = true ∧ d.db = true) ∨ rpl rcs < s.cpl ∨
            (d.ec = true ∧ rpl rcs < d.dpl) ∨ (d.ec = false ∧ d.dpl ≠ rpl rcs) →
          exec i s = .fault (.gp (rcs &&& 0xFFFC#16))) ∧
        ((d.s && d.x) = true ∧ ¬(s.ia32e = true ∧ d.l = true ∧ d.db = true) ∧ ¬ rpl rcs < s.cpl ∧
            ¬(d.ec = true ∧ rpl rcs < d.dpl) ∧ ¬(d.ec = false ∧ d.dpl ≠ rpl rcs) ∧ d.p = false →
          exec i s = .fault (.np (rcs &&& 0xFFFC#16)))))

/-- The tests on the return stack segment of an outer return whose selector is not null, in order (R137 to R139; R167 to
R169): table limit, in IA-32e mode the descriptor's address, RPL, type and DPL, each `#GP(selector)`, then presence,
`#SS(selector)` (error codes R189, log 32). -/
def Obligations.StackSegmentTestsInOrder : Prop :=
  ∀ (i : Instr) (s : State) (n : Width) (ip : Word) (rcs rss : Selector) (d : Descriptor), i.isFar = true →
    s.ready i n → s.segmented = true → s.farStackOk n (2 * n.bytes) = true →
    s.readTarget s.stackAddressSize n = .ok (ip, rcs) → s.checkCodeSegment rcs = .ok d → s.cpl < rpl rcs →
    s.farStackOk n (4 * n.bytes + srcBytes i.imm) = true →
    s.readSelector s.stackAddressSize (3 * n.bytes + srcBytes i.imm) n = .ok rss → isNull rss = false →
    (s.beyondLimit rss = true → exec i s = .fault (.gp (rss &&& 0xFFFC#16))) ∧
    (s.beyondLimit rss = false →
      (s.ia32e = true → s.rangeCanonical (s.descAddr rss) 8 = false →
        exec i s = .fault (.gp (rss &&& 0xFFFC#16))) ∧
      ((s.ia32e = true → s.rangeCanonical (s.descAddr rss) 8 = true) → ∀ ds, s.readDesc rss = .ok ds →
        (rpl rss ≠ rpl rcs ∨ (ds.s && !ds.x && ds.rw) = false ∨ ds.dpl ≠ rpl rcs →
          exec i s = .fault (.gp (rss &&& 0xFFFC#16))) ∧
        (rpl rss = rpl rcs ∧ (ds.s && !ds.x && ds.rw) = true ∧ ds.dpl = rpl rcs ∧ ds.p = false →
          exec i s = .fault (.ss (rss &&& 0xFFFC#16)))))

/-- R136: in protected mode a null return stack segment selector raises `#GP(0)`. -/
def Obligations.NullStackSelectorInProtectedMode : Prop :=
  ∀ (i : Instr) (s : State) (n : Width) (ip : Word) (rcs rss : Selector) (d : Descriptor), i.isFar = true →
    s.ready i n → s.segmented = true → s.ia32e = false → s.farStackOk n (2 * n.bytes) = true →
    s.readTarget s.stackAddressSize n = .ok (ip, rcs) → s.checkCodeSegment rcs = .ok d → s.cpl < rpl rcs →
    s.farStackOk n (4 * n.bytes + srcBytes i.imm) = true →
    s.readSelector s.stackAddressSize (3 * n.bytes + srcBytes i.imm) n = .ok rss → isNull rss = true →
    exec i s = .fault (.gp 0)

/-- R166: in IA-32e mode a null return stack segment selector raises `#GP` of the selector, whose error code is 0 (R189,
log 32), unless the new code segment is 64-bit, the RPL is not 3 and the RPL is that of the code selector. -/
def Obligations.NullStackSelectorInIa32eMode : Prop :=
  ∀ (i : Instr) (s : State) (n : Width) (ip : Word) (rcs rss : Selector) (d : Descriptor), i.isFar = true →
    s.ready i n → s.segmented = true → s.ia32e = true → s.farStackOk n (2 * n.bytes) = true →
    s.readTarget s.stackAddressSize n = .ok (ip, rcs) → s.checkCodeSegment rcs = .ok d → s.cpl < rpl rcs →
    s.farStackOk n (4 * n.bytes + srcBytes i.imm) = true →
    s.readSelector s.stackAddressSize (3 * n.bytes + srcBytes i.imm) n = .ok rss → isNull rss = true →
    (d.l = false ∨ rpl rss = 3#2 ∨ rpl rss ≠ rpl rcs) →
    exec i s = .fault (.gp 0)

/-- R130, R160: on a return to the same level, a return instruction pointer outside the return code segment's limit, or
in IA-32e mode not canonical, raises `#GP(0)`.  In IA-32e mode the limit test is vacuous with `d.L == 1`, and the canonical
test can fail only at operand size 64. -/
def Obligations.SameLevelTargetOutsideIsGeneralProtection : Prop :=
  ∀ (i : Instr) (s : State) (n : Width) (ip : Word) (rcs : Selector) (d : Descriptor), i.isFar = true →
    s.ready i n → s.segmented = true → s.farStackOk n (2 * n.bytes) = true →
    s.readTarget s.stackAddressSize n = .ok (ip, rcs) → s.checkCodeSegment rcs = .ok d → ¬ s.cpl < rpl rcs →
    (s.codeWithin ip d = false ∨ (s.ia32e = true ∧ s.canonical ip = false) → exec i s = .fault (.gp 0)) ∧
    (s.ia32e = true → d.l = true → s.codeWithin ip d = true) ∧
    (n ≠ .w64 → s.canonical ip = true)

/-! ## Far return in protected and IA-32e mode: completion -/

/-- A far return to the same level that passes its tests completes: RIP is the popped pointer, CS the popped selector
with the descriptor it names, the stack pointer past both items and the released bytes, the bits of RSP above the view in
use as they were (log 38), SSP the saved one with a shadow stack, and nothing else has changed (R129 to R134, R159 to R164;
the hidden part of CS log 30).  The stack-address size is the one in force at the start, also where the return changes
CS.L: the spec's own decision (R162, 92 D19; log 18). -/
def Obligations.SameLevelFarReturnCompletes : Prop :=
  ∀ (i : Instr) (s : State) (n : Width) (ip prev : Word) (rcs : Selector) (d : Descriptor), i.isFar = true →
    s.ready i n → s.segmented = true → s.farStackOk n (2 * n.bytes) = true →
    s.readTarget s.stackAddressSize n = .ok (ip, rcs) → s.checkCodeSegment rcs = .ok d → ¬ s.cpl < rpl rcs →
    s.farTargetOk ip d = true → d.accessed = true →
    (s.shadowStackEnabled s.cpl = true →
      s.sspAligned = true ∧ s.farFrameIs rcs (s.lipIn d ip) prev ∧ s.sspOkIn d prev = true) →
    ∃ t, exec i s = .next t ∧
      t.sp s.stackAddressSize
        = truncTo s.stackAddressSize (s.sp s.stackAddressSize + BitVec.ofNat 64 (2 * n.bytes + srcBytes i.imm)) ∧
      (s.stackAddressSize ≠ .w64 → t.rsp.hi = s.rsp.hi) ∧
      (s.stackAddressSize = .w16 → t.rsp.mid = s.rsp.mid) ∧
      t = { s with
            rip := ip
            cs := { sel := rcs, hidden := some d }
            rsp := t.rsp
            ssp := if s.shadowStackEnabled s.cpl then prev else s.ssp
            draws := t.draws }

/-- R133, R163: the shadow-stack step of a return to the same level.  Without a shadow stack SSP stays; with one, a
misaligned SSP, a wrong selector, a wrong linear instruction pointer and a misaligned saved SSP raise
`#CP(FAR-RET/IRET)`, a saved SSP out of range `#GP(0)`, in that order, and otherwise the saved SSP is the new one. -/
def Obligations.SameLevelShadowStackStep : Prop :=
  ∀ (i : Instr) (s : State) (n : Width) (ip : Word) (rcs : Selector) (d : Descriptor), i.isFar = true →
    s.ready i n → s.segmented = true → s.farStackOk n (2 * n.bytes) = true →
    s.readTarget s.stackAddressSize n = .ok (ip, rcs) → s.checkCodeSegment rcs = .ok d → ¬ s.cpl < rpl rcs →
    s.farTargetOk ip d = true → d.accessed = true →
    (s.shadowStackEnabled s.cpl = false → ∃ t, exec i s = .next t ∧ t.ssp = s.ssp) ∧
    (s.shadowStackEnabled s.cpl = true →
      (s.ssp &&& 7#64 ≠ 0#64 → exec i s = .fault (.cp .farRetIret)) ∧
      (s.ssp &&& 7#64 = 0#64 → ∀ savedCs savedLip savedSsp,
        s.sspLoad 16 = .ok savedCs → s.sspLoad 8 = .ok savedLip →
        s.sspLoad 0 = .ok savedSsp →
        (rcs.setWidth 64 ≠ savedCs ∨ s.lipIn d ip ≠ savedLip ∨ savedSsp &&& 3#64 ≠ 0#64 →
          exec i s = .fault (.cp .farRetIret)) ∧
        (rcs.setWidth 64 = savedCs ∧ s.lipIn d ip = savedLip ∧ savedSsp &&& 3#64 = 0#64 →
          (s.sspOkIn d savedSsp = false → exec i s = .fault (.gp 0)) ∧
          (s.sspOkIn d savedSsp = true → ∃ t, exec i s = .next t ∧ t.ssp = savedSsp))))

/-- A far return to an outer level that passes its tests completes: RIP, CS, CPL and SS are those returned to; the stack
pointer is the popped one plus the released bytes in the bits both popped and in use, and the popped one in the bits
popped where nothing is released and above the view in use (log 38); SSP is IA32_PL3_SSP at level 3 and the saved one at levels 1
and 2 with a shadow stack at the new level; the token of the old shadow stack, where it is busy, holds its own address
with the busy bit clear, and where none is freed memory is as it was; only the data segment registers may have changed besides
(R135 to R148, R165 to R178; the stack-address size of the release log 18, the place of the item read log 24).  A return
to level 1 or 2 has a saved SSP because the model's `ShadowStackEnabled` is one value for levels 0 to 2 (log 9, R34).  The
bytes outside a freed token are MemoryChangesOnlyInTheFreedToken's, the data segment registers those of
DataSegmentsAfterProtectedOuterReturn and DataSegmentsAfterIa32eOuterReturn. -/
def Obligations.OuterFarReturnCompletes : Prop :=
  ∀ (i : Instr) (s : State) (n : Width) (ip esp prev v cur : Word) (rcs rss : Selector) (d : Descriptor)
    (ss : SegReg), i.isFar = true →
    s.ready i n → s.segmented = true → s.farStackOk n (2 * n.bytes) = true →
    s.readTarget s.stackAddressSize n = .ok (ip, rcs) → s.checkCodeSegment rcs = .ok d → s.cpl < rpl rcs →
    s.farStackOk n (4 * n.bytes + srcBytes i.imm) = true →
    s.readSelector s.stackAddressSize (3 * n.bytes + srcBytes i.imm) n = .ok rss →
    s.outerStackSegment rcs rss d ss →
    s.farTargetOk ip d = true → d.accessed = true →
    s.stackRead s.stackAddressSize (2 * n.bytes + srcBytes i.imm) n = .ok esp →
    (s.shadowStackEnabled s.cpl = true →
      s.sspAligned = true ∧ (rpl rcs ≠ 3#2 → s.farFrameIs rcs (s.lipIn d ip) prev) ∧
      s.memRead .shadowLockedWrite (s.tokenAddress (rpl rcs)) 8 = .ok cur) →
    (s.shadowStackEnabled (rpl rcs) = true →
      v = (if rpl rcs = 3#2 then s.sys.pl3Ssp else prev) ∧ s.sspOkIn d v = true) →
    ∃ t, exec i s = .next t ∧
      truncTo n (t.sp (s.sasIn d ss))
        = truncTo n (truncTo (s.sasIn d ss) (esp + BitVec.ofNat 64 (srcBytes i.imm))) ∧
      (i.imm = none → truncTo n t.rsp.bits = esp) ∧
      (s.sasIn d ss = .w16 → n ≠ .w16 → t.rsp.mid = esp.extractLsb' 16 16) ∧
      (s.sasIn d ss ≠ .w64 → n = .w64 → t.rsp.hi = esp.extractLsb' 32 32) ∧
      t.ssp = (if s.shadowStackEnabled (rpl rcs) then v
        else if s.shadowStackEnabled s.cpl then s.tokenAddress (rpl rcs) else s.ssp) ∧
      (if s.shadowStackEnabled s.cpl = true ∧ cur = s.tokenAddress (rpl rcs) ||| 1#64 then
        t.mem.readLE s.linearBits 8 (s.tokenAddress (rpl rcs)).toNat = some (s.tokenAddress (rpl rcs)).toNat
       else t.mem = s.mem) ∧
      t = { s with
            rip := ip
            cs := { sel := rcs, hidden := some d }
            ss := ss
            cpl := rpl rcs
            ds := t.ds
            es := t.es
            fs := t.fs
            gs := t.gs
            rsp := t.rsp
            ssp := t.ssp
            mem := t.mem
            draws := t.draws }

/-- The shadow-stack exceptions of an outer return that has passed its other tests (R142, R144, R172, R174): a misaligned
SSP, and on a return to level 1 or 2 a frame that does not match, raise `#CP(FAR-RET/IRET)`; a new SSP out of range
raises `#GP(0)`.  R144 and R174 ask for the shadow stack of the NEW level; the clause for levels 1 and 2 is stated from
that of the OLD level, which is the same there by R34's first consequence (SstkUniform) for the model's
`ShadowStackEnabled` (log 9). -/
def Obligations.OuterShadowStackFaults : Prop :=
  ∀ (i : Instr) (s : State) (n : Width) (ip esp : Word) (rcs rss : Selector) (d : Descriptor) (ss : SegReg),
    i.isFar = true → s.ready i n → s.segmented = true → s.farStackOk n (2 * n.bytes) = true →
    s.readTarget s.stackAddressSize n = .ok (ip, rcs) → s.checkCodeSegment rcs = .ok d → s.cpl < rpl rcs →
    s.farStackOk n (4 * n.bytes + srcBytes i.imm) = true →
    s.readSelector s.stackAddressSize (3 * n.bytes + srcBytes i.imm) n = .ok rss →
    s.outerStackSegment rcs rss d ss →
    s.farTargetOk ip d = true → d.accessed = true →
    s.stackRead s.stackAddressSize (2 * n.bytes + srcBytes i.imm) n = .ok esp →
    (s.shadowStackEnabled s.cpl = true → s.ssp &&& 7#64 ≠ 0#64 → exec i s = .fault (.cp .farRetIret)) ∧
    (s.shadowStackEnabled s.cpl = true → s.ssp &&& 7#64 = 0#64 → rpl rcs ≠ 3#2 →
      ∀ savedCs savedLip savedSsp, s.sspLoad 16 = .ok savedCs → s.sspLoad 8 = .ok savedLip →
        s.sspLoad 0 = .ok savedSsp →
        (rcs.setWidth 64 ≠ savedCs ∨ s.lipIn d ip ≠ savedLip ∨ savedSsp &&& 3#64 ≠ 0#64 →
          exec i s = .fault (.cp .farRetIret)) ∧
        (rcs.setWidth 64 = savedCs ∧ s.lipIn d ip = savedLip ∧ savedSsp &&& 3#64 = 0#64 →
          s.sspOkIn d savedSsp = false →
          exec i s = .fault (.gp 0))) ∧
    (s.shadowStackEnabled 3#2 = true → rpl rcs = 3#2 →
      (s.shadowStackEnabled s.cpl = true → s.ssp &&& 7#64 = 0#64) →
      s.sspOkIn d s.sys.pl3Ssp = false → exec i s = .fault (.gp 0))

/-- R146: in protected mode an outer return clears each of ES, FS, GS, DS that holds a null selector, or whose hidden
part is data or non-conforming code with `DPL` below the new CPL, and leaves the others as they were. -/
def Obligations.DataSegmentsAfterProtectedOuterReturn : Prop :=
  ∀ (i : Instr) (s t : State), exec i s = .next t → s.cpl < t.cpl → s.ia32e = false →
    ∀ x x' : SegReg, (x, x') ∈ [(s.es, t.es), (s.fs, t.fs), (s.gs, t.gs), (s.ds, t.ds)] →
      (x.sel.extractLsb' 2 14 = 0#14 ∨
          (∃ d, x.hidden = some d ∧ d.dpl < t.cpl ∧ d.s = true ∧ (d.x = false ∨ d.ec = false)) →
        x' = { sel := 0#16, hidden := none }) ∧
      (¬(x.sel.extractLsb' 2 14 = 0#14 ∨
          (∃ d, x.hidden = some d ∧ d.dpl < t.cpl ∧ d.s = true ∧ (d.x = false ∨ d.ec = false))) → x' = x)

/-- R176: in IA-32e mode an outer return clears each of ES, FS, GS, DS that points to data or non-conforming code with
`DPL` below the new CPL, and leaves the others, those that hold a null selector among them, as they were (the reading
of a null selector with a valid hidden part is the model's, log 20). -/
def Obligations.DataSegmentsAfterIa32eOuterReturn : Prop :=
  ∀ (i : Instr) (s t : State), exec i s = .next t → s.cpl < t.cpl → s.ia32e = true →
    ∀ x x' : SegReg, (x, x') ∈ [(s.es, t.es), (s.fs, t.fs), (s.gs, t.gs), (s.ds, t.ds)] →
      (x.sel.extractLsb' 2 14 ≠ 0#14 ∧
          (∃ d, x.hidden = some d ∧ d.dpl < t.cpl ∧ d.s = true ∧ (d.x = false ∨ d.ec = false)) →
        x' = { sel := 0#16, hidden := none }) ∧
      (¬(x.sel.extractLsb' 2 14 ≠ 0#14 ∧
          (∃ d, x.hidden = some d ∧ d.dpl < t.cpl ∧ d.s = true ∧ (d.x = false ∨ d.ec = false))) → x' = x)

/-- A descriptor whose accessed bit is clear is refused, not loaded (R61; the places of the tests are the model's, log 14):
the code descriptor, on a return to the same level after the tests of the code segment and the target, on one to an outer
level after those of the stack segment too; the stack descriptor of a return to an outer level, after the popped stack
pointer is read. -/
def Obligations.ClearAccessedBitIsRefused : Prop :=
  ∀ (i : Instr) (s : State) (n : Width) (ip : Word) (rcs : Selector) (d : Descriptor), i.isFar = true →
    s.ready i n → s.segmented = true → s.farStackOk n (2 * n.bytes) = true →
    s.readTarget s.stackAddressSize n = .ok (ip, rcs) → s.checkCodeSegment rcs = .ok d →
    s.farTargetOk ip d = true →
    (¬ s.cpl < rpl rcs → d.accessed = false → exec i s = .refused .accessedBitClear) ∧
    (s.cpl < rpl rcs → s.farStackOk n (4 * n.bytes + srcBytes i.imm) = true →
      ∀ rss ss, s.readSelector s.stackAddressSize (3 * n.bytes + srcBytes i.imm) n = .ok rss →
        s.outerStackPasses rcs rss d ss →
        (d.accessed = false → exec i s = .refused .accessedBitClear) ∧
        (d.accessed = true → ∀ esp ds,
          s.stackRead s.stackAddressSize (2 * n.bytes + srcBytes i.imm) n = .ok esp → ss.hidden = some ds →
          ds.accessed = false → exec i s = .refused .accessedBitClear))

/-! ## The shared operations -/

/-- R60: the token free stores the token's own address, busy bit clear, where the token was busy, and is read back so;
where it was not, the state is as it was (log 26); every other byte reads as before in both cases.  The byte addresses of
the token are taken modulo the width of the linear space (R50; the wrap, and SSP above 4 GB outside IA-32e mode, are the
model's choice, log 10). -/
def Obligations.TokenFreeClearsTheBusyBit : Prop :=
  ∀ (s t : State) (old cur : Word), s.memRead .shadowLockedWrite old 8 = .ok cur → s.freeToken old = .ok t →
    (cur ≠ old ||| 1#64 → t = s) ∧
    (cur = old ||| 1#64 →
      t = { s with mem := t.mem } ∧ t.memRead .shadowLockedWrite old 8 = .ok old ∧
      ∀ b : Nat, (∀ j, j < 8 → b ≠ (old.toNat + j) % 2 ^ s.linearBits) → t.mem.readByte b = s.mem.readByte b)

/-- The fields of descriptors of 95's contexts P and L, read from their bytes (R23; log 23). -/
def Obligations.DescriptorFieldsOfTheContexts : Prop :=
  Descriptor.ofBits 0x00CF9B000000FFFF
    = { base := 0, limit := 0xFFFFFFFF, accessed := true, rw := true, ec := false, x := true, s := true, dpl := 0,
        p := true, l := false, db := true } ∧
  Descriptor.ofBits 0x00CFF3000000FFFF
    = { base := 0, limit := 0xFFFFFFFF, accessed := true, rw := true, ec := false, x := false, s := true, dpl := 3,
        p := true, l := false, db := true } ∧
  Descriptor.ofBits 0x00409B0000000FFF
    = { base := 0, limit := 0x0FFF, accessed := true, rw := true, ec := false, x := true, s := true, dpl := 0,
        p := true, l := false, db := true } ∧
  Descriptor.ofBits 0x00AFBB000000FFFF
    = { base := 0, limit := 0xFFFFFFFF, accessed := true, rw := true, ec := false, x := true, s := true, dpl := 1,
        p := true, l := true, db := false }

/-- The vector numbers of the exceptions, and the numeric error codes of `#SS`, `#GP` and `#NP` with a selector, of `#SS`
and `#GP` with 0, and of both kinds of `#CP` (R188, R189; logs 23 and 32). -/
def Obligations.VectorsAndErrorCodes : Prop :=
  ∀ c : BitVec 16, (Fault.np c).vector = some 11 ∧ (Fault.ss c).vector = some 12 ∧ (Fault.gp c).vector = some 13 ∧
    (∀ k, (Fault.cp k).vector = some 21) ∧ (Fault.gp (selCode c)).errorCode = some (c &&& 0xFFFC#16) ∧
    (Fault.ss (selCode c)).errorCode = some (c &&& 0xFFFC#16) ∧
    (Fault.np (selCode c)).errorCode = some (c &&& 0xFFFC#16) ∧
    (Fault.gp 0).errorCode = some 0 ∧ (Fault.ss 0).errorCode = some 0 ∧
    (Fault.cp .nearRet).errorCode = some 1 ∧ (Fault.cp .farRetIret).errorCode = some 2

/-! ## The target of a return to an outer level -/

/-- R140, R170: on a return to an outer level, after the tests of the stack segment, a return instruction pointer outside
the return code segment's limit, or in IA-32e mode not canonical, raises `#GP(0)`.  In IA-32e mode the limit test is
vacuous with `d.L == 1`, and the canonical test can fail only at operand size 64. -/
def Obligations.OuterTargetOutsideIsGeneralProtection : Prop :=
  ∀ (i : Instr) (s : State) (n : Width) (ip : Word) (rcs rss : Selector) (d : Descriptor) (ss : SegReg),
    i.isFar = true → s.ready i n → s.segmented = true → s.farStackOk n (2 * n.bytes) = true →
    s.readTarget s.stackAddressSize n = .ok (ip, rcs) → s.checkCodeSegment rcs = .ok d → s.cpl < rpl rcs →
    s.farStackOk n (4 * n.bytes + srcBytes i.imm) = true →
    s.readSelector s.stackAddressSize (3 * n.bytes + srcBytes i.imm) n = .ok rss →
    s.outerStackPasses rcs rss d ss →
    (s.codeWithin ip d = false ∨ (s.ia32e = true ∧ s.canonical ip = false) → exec i s = .fault (.gp 0)) ∧
    (s.ia32e = true → d.l = true → s.codeWithin ip d = true) ∧
    (n ≠ .w64 → s.canonical ip = true)

/-! ## Refused accesses -/

/-- R52, R193: a near return whose access the memory oracle refuses ends in `MemFault`: the item on the stack, after the
stack test; the entry of the shadow stack, after the target test. -/
def Obligations.RefusedNearAccessIsMemFault : Prop :=
  ∀ (i : Instr) (s : State) (n : Width), i.isFar = false → s.ready i n →
    s.nearStackOk s.stackAddressSize n = true →
    (s.refuses .dataRead (s.stackAddr s.stackAddressSize 0) n.bytes → exec i s = .fault .memFault) ∧
    (∀ v, s.stackRead s.stackAddressSize 0 n = .ok v → s.nearTargetOk n v = true →
      s.shadowStackEnabled s.cpl = true → s.refuses .shadowRead s.ssp (nearShadowBytes n) →
      exec i s = .fault .memFault)

/-- R52, R193: a far return in real-address or virtual-8086 mode whose access the memory oracle refuses ends in
`MemFault`: the first item, after the stack test; the second, after the target test. -/
def Obligations.RefusedRealFarAccessIsMemFault : Prop :=
  ∀ (i : Instr) (s : State) (n : Width), i.isFar = true → s.ready i n → s.realOrV86 = true →
    s.stackWithin s.stackAddressSize (2 * n.bytes) = true →
    (s.refuses .dataRead (s.stackAddr s.stackAddressSize 0) n.bytes → exec i s = .fault .memFault) ∧
    (∀ v, s.stackRead s.stackAddressSize 0 n = .ok v → s.codeWithin v s.cs.desc = true →
      s.refuses .dataRead (s.stackAddr s.stackAddressSize n.bytes) n.bytes → exec i s = .fault .memFault)

/-- R52, R193: a far return in protected or IA-32e mode whose access the memory oracle refuses ends in `MemFault`: the
two items, after the stack test; the descriptor of the return code selector, after the tests that precede it; on a return
to the same level an entry of the shadow stack, after the alignment test of SSP. -/
def Obligations.RefusedFarAccessIsMemFault : Prop :=
  ∀ (i : Instr) (s : State) (n : Width), i.isFar = true → s.ready i n → s.segmented = true →
    s.farStackOk n (2 * n.bytes) = true →
    (s.refuses .dataRead (s.stackAddr s.stackAddressSize 0) n.bytes → exec i s = .fault .memFault) ∧
    (∀ ip, s.stackRead s.stackAddressSize 0 n = .ok ip →
      s.refuses .dataRead (s.stackAddr s.stackAddressSize n.bytes) n.bytes → exec i s = .fault .memFault) ∧
    (∀ ip rcs, s.readTarget s.stackAddressSize n = .ok (ip, rcs) →
      (isNull rcs = false → s.beyondLimit rcs = false →
        (s.ia32e = true → s.rangeCanonical (s.descAddr rcs) 8 = true) →
        s.refuses .descriptorRead (s.descAddr rcs) 8 → exec i s = .fault .memFault) ∧
      (∀ d, s.checkCodeSegment rcs = .ok d → ¬ s.cpl < rpl rcs → s.farTargetOk ip d = true → d.accessed = true →
        s.shadowStackEnabled s.cpl = true → s.sspAligned = true → s.refusesFarFrame → exec i s = .fault .memFault))

/-- R52, R193: a far return to an outer level whose access the memory oracle refuses ends in `MemFault`: the stack
selector, its descriptor, the stack pointer to load, an entry of the shadow stack on a return to level 1 or 2, and the
locked access to the token of the shadow stack being left, each after the tests that precede it (their order: R190, logs
14 and 24). -/
def Obligations.RefusedOuterAccessIsMemFault : Prop :=
  ∀ (i : Instr) (s : State) (n : Width) (ip : Word) (rcs : Selector) (d : Descriptor), i.isFar = true →
    s.ready i n → s.segmented = true → s.farStackOk n (2 * n.bytes) = true →
    s.readTarget s.stackAddressSize n = .ok (ip, rcs) → s.checkCodeSegment rcs = .ok d → s.cpl < rpl rcs →
    s.farStackOk n (4 * n.bytes + srcBytes i.imm) = true →
    (s.refuses .dataRead (s.stackAddr s.stackAddressSize (3 * n.bytes + srcBytes i.imm)) n.bytes →
      exec i s = .fault .memFault) ∧
    (∀ rss, s.readSelector s.stackAddressSize (3 * n.bytes + srcBytes i.imm) n = .ok rss →
      (isNull rss = false → s.beyondLimit rss = false →
        (s.ia32e = true → s.rangeCanonical (s.descAddr rss) 8 = true) →
        s.refuses .descriptorRead (s.descAddr rss) 8 → exec i s = .fault .memFault) ∧
      (∀ ss, s.outerStackPasses rcs rss d ss → s.farTargetOk ip d = true → d.accessed = true →
        (s.refuses .dataRead (s.stackAddr s.stackAddressSize (2 * n.bytes + srcBytes i.imm)) n.bytes →
          exec i s = .fault .memFault) ∧
        (∀ esp, s.stackRead s.stackAddressSize (2 * n.bytes + srcBytes i.imm) n = .ok esp →
          s.outerStackSegment rcs rss d ss → s.shadowStackEnabled s.cpl = true → s.sspAligned = true →
          (rpl rcs ≠ 3#2 → s.refusesFarFrame → exec i s = .fault .memFault) ∧
          (∀ prev v, (rpl rcs ≠ 3#2 → s.farFrameIs rcs (s.lipIn d ip) prev) →
            (s.shadowStackEnabled (rpl rcs) = true →
              v = (if rpl rcs = 3#2 then s.sys.pl3Ssp else prev) ∧ s.sspOkIn d v = true) →
            s.refuses .shadowLockedWrite (s.tokenAddress (rpl rcs)) 8 → exec i s = .fault .memFault))))

/-- R52, R193: a form ends in `MemFault` only where the memory oracle refuses some access; with an oracle that refuses none
(NoMemFault, R211) no form does. -/
def Obligations.MemFaultMeansARefusedAccess : Prop :=
  ∀ (i : Instr) (s : State), exec i s = .fault .memFault →
    ∃ (kind : AccessKind) (addr : Word) (n : Nat), s.refuses kind addr n

/-! ## The accessed bit -/

/-- A form is refused for a clear accessed bit exactly where it is a far return and loads a code or stack descriptor whose
bit is clear (R61; the places of the loads log 14); and under AccessedSet for the first `k` steps (R211) no run of that
length is refused for one. -/
def Obligations.AccessedSetExcludesTheRefusal : Prop :=
  (∀ (i : Instr) (s : State),
    exec i s = .refused .accessedBitClear ↔ ∃ d, s.loads i d ∧ d.accessed = false) ∧
  (∀ (k : Nat) (s : State), s.accessedWithin k → Sys2Proof.core.run k s ≠ .refused Refusal.accessedBitClear)

/-! ## The top of the stack segment -/

/-- Outside 64-bit mode a return whose first item, or on a far return whose first two, would reach past the top of the
stack's offset space raises `#SS(0)`, whatever the limit of SS (R54's last paragraph; the rows of R99 and R119 for SP equal
to FFFFh and FFFDh; log 40). -/
def Obligations.ItemsPastTheTopAreStackFault : Prop :=
  ∀ (i : Instr) (s : State) (n : Width), s.ready i n → s.stackAddressSize ≠ .w64 →
    2 ^ s.stackAddressSize.bits < (s.sp s.stackAddressSize).toNat + (if i.isFar then 2 * n.bytes else n.bytes) →
    exec i s = .fault (.ss 0)
end

