-- ==== Sys2Proof/Laws/Decode.lean ====
section
/-! SUPPORT. The pieces of the decoder and the encoder (R71 to R80). -/

namespace Sys2Proof.Laws

theorem splitOpSize_cons (b : Byte) (r : List Byte) :
    splitOpSize (b :: r) = if b = 0x66#8 then (true, r) else (false, b :: r) := rfl

theorem splitRex_cons (is64 : Bool) (b : Byte) (r : List Byte) :
    splitRex is64 (b :: r) =
      if is64 && b.extractLsb' 4 4 == 4#4 then (some (b.extractLsb' 0 4), r) else (none, b :: r) := rfl

/-- Where an opcode is expected any other byte is refused, for the reason `whyNotDecoded` gives (R78, R79). -/
theorem decodeOpcode_of_not_opcode {is64 : Bool} {p : Prefixes} {op : Byte} {r : List Byte}
    (h : isRetOpcode op = false) : decodeOpcode is64 p (op :: r) = .error (whyNotDecoded is64 (op :: r)) := by
  simp [isRetOpcode] at h
  simp [decodeOpcode, h]

/-- Behind prefixes a `RET` opcode has one that is not admitted, any other byte is not a `RET` (R78, R79). -/
theorem whyNotDecoded_append {is64 : Bool} {ps : List Byte} {op : Byte} {rest : List Byte}
    (hp : ∀ p ∈ ps, isPrefixByte is64 p = true) (h : isPrefixByte is64 op = false) :
    whyNotDecoded is64 (ps ++ op :: rest) = if isRetOpcode op then .prefixNotAdmitted else .notARet := by
  induction ps with
  | nil => simp [whyNotDecoded, h]
  | cons p ps ih => simp [whyNotDecoded, hp p (by simp), ih fun q hq => hp q (by simp [hq])]

/-- A REX byte carries its four bits (R76). -/
theorem rex_byte_hi (r : BitVec 4) : (4#4 ++ r : Byte).extractLsb' 4 4 = 4#4 := by
  revert r
  decide

theorem rex_byte_lo (r : BitVec 4) : (4#4 ++ r : Byte).extractLsb' 0 4 = r := by
  revert r
  decide

theorem rex_byte_ne_66 (r : BitVec 4) : (4#4 ++ r : Byte) ≠ 0x66#8 := by
  revert r
  decide

/-- A byte whose high half is 4 is the REX byte of its low half (R76). -/
theorem rex_byte_eq (b : Byte) (h : b.extractLsb' 4 4 = 4#4) : 4#4 ++ b.extractLsb' 0 4 = b := by
  revert b
  decide

/-- The two bytes of the immediate make the immediate again (R73, R74). -/
theorem immOfBytes_encodeImm (imm : BitVec 16) :
    immOfBytes (imm.extractLsb' 0 8) (imm.extractLsb' 8 8) = imm := by
  unfold immOfBytes
  apply BitVec.eq_of_getLsbD_eq
  intro i hi
  simp only [BitVec.getLsbD_append, BitVec.getLsbD_extractLsb']
  split
  · simp_all
  · rw [show 8 + (i - 8) = i by omega]
    have : i - 8 < 8 := by omega
    simp [this]

theorem encodeImm_immOfBytes (lo hi : Byte) : encodeImm (immOfBytes lo hi) = [lo, hi] := by
  have h0 : (immOfBytes lo hi).extractLsb' 0 8 = lo := by
    apply BitVec.eq_of_getLsbD_eq
    intro i h
    rw [BitVec.getLsbD_extractLsb', immOfBytes, BitVec.getLsbD_append]
    simp [h]
  have h1 : (immOfBytes lo hi).extractLsb' 8 8 = hi := by
    apply BitVec.eq_of_getLsbD_eq
    intro i h
    rw [BitVec.getLsbD_extractLsb', immOfBytes, BitVec.getLsbD_append]
    simp [h]
  rw [encodeImm, h0, h1]

/-- The opcode bytes and the bytes of the prefixes are different bytes (R71, R76): splitting off the prefixes of an
encoding whose next byte is an opcode gives the prefixes. -/
theorem split_encodePrefixes {is64 : Bool} {p : Prefixes} (hp : p.rexAllowed is64 = true) (op : Byte)
    (r : List Byte) (h66 : op ≠ 0x66#8) (hrex : (op.extractLsb' 4 4 == 4#4) = false) :
    splitOpSize (encodePrefixes p ++ op :: r) = (p.opSize, (encodePrefixes { p with opSize := false }) ++ op :: r) ∧
      splitRex is64 (encodePrefixes { p with opSize := false } ++ op :: r) = (p.rex, op :: r) := by
  obtain ⟨o, x⟩ := p
  cases x with
  | none => cases o <;> simp [encodePrefixes, splitOpSize, splitRex, h66, hrex]
  | some x =>
    have h64 : is64 = true := by simpa [Prefixes.rexAllowed] using hp
    cases o <;>
      simp [encodePrefixes, splitOpSize, splitRex, rex_byte_ne_66, h64, rex_byte_hi, rex_byte_lo]

/-! ## Any sequence of prefixes before a byte -/

/-- The prefixes of the architecture, as a proposition (R76, R78). -/
theorem prefixIn_iff {is64 : Bool} {b : Byte} : Machine.prefixIn is64 b ↔ isPrefixByte is64 b = true := by
  simp [Machine.prefixIn, isPrefixByte]

/-- No prefix is a `RET` opcode. -/
theorem not_isRetOpcode_of_prefixIn {is64 : Bool} {p : Byte} (h : Machine.prefixIn is64 p) : isRetOpcode p = false := by
  revert is64 p
  decide

/-- Where prefixes are left over for the place of the opcode, the bytes are refused (R78, R79). -/
theorem decodeOpcode_of_prefixes {is64 : Bool} {pr : Prefixes} {ps : List Byte} {op : Byte} {rest : List Byte}
    (hne : ps ≠ []) (hp : ∀ p ∈ ps, Machine.prefixIn is64 p) (h : isPrefixByte is64 op = false) :
    decodeOpcode is64 pr (ps ++ op :: rest) = .error (if isRetOpcode op then .prefixNotAdmitted else .notARet) := by
  obtain ⟨p, ps, rfl⟩ := List.exists_cons_of_ne_nil hne
  rw [List.cons_append, decodeOpcode_of_not_opcode (not_isRetOpcode_of_prefixIn (hp p (by simp))), ← List.cons_append,
    whyNotDecoded_append (fun q hq => prefixIn_iff.mp (hp q hq)) h]

/-- Splitting off `66` stops at a byte that is not `66` (R80). -/
theorem splitOpSize_append {op : Byte} (h : op ≠ 0x66#8) (ps rest : List Byte) :
    splitOpSize (ps ++ op :: rest) = ((splitOpSize ps).1, (splitOpSize ps).2 ++ op :: rest) := by
  cases ps with
  | nil => simp [splitOpSize, h]
  | cons p ps =>
    simp only [List.cons_append, splitOpSize_cons]
    split <;> rfl

/-- Splitting off REX stops at a byte that is not REX (R80). -/
theorem splitRex_append {is64 : Bool} {op : Byte} (h : (is64 && op.extractLsb' 4 4 == 4#4) = false)
    (ps rest : List Byte) :
    splitRex is64 (ps ++ op :: rest) = ((splitRex is64 ps).1, (splitRex is64 ps).2 ++ op :: rest) := by
  cases ps with
  | nil => simp only [List.nil_append, splitRex_cons, h]; rfl
  | cons p ps =>
    simp only [List.cons_append, splitRex_cons]
    split <;> rfl

end Sys2Proof.Laws
end

