-- ==== Sys2Proof/Laws/Memory.lean ====
section
/-! SUPPORT. Memory: read after write, the canonical form, multi-byte accesses (R50 to R52). -/

namespace Sys2Proof.Laws

open Sys2Proof.Machine

/-! ## One byte -/

@[simp] theorem readByte_nil (a : Nat) : Memory.readByte [] a = none := rfl

@[simp] theorem readByte_writeByte_same (m : Memory) (a : Nat) (v : Byte) :
    (Memory.writeByte m a v).readByte a = some v := by
  induction m with
  | nil => simp [Memory.writeByte, Memory.readByte]
  | cons c m ih =>
    obtain ⟨k, b⟩ := c
    simp only [Memory.writeByte]
    split
    · simp [Memory.readByte]
    · split
      · simp [Memory.readByte]
      · rename_i h
        simp [Memory.readByte, h, ih]

theorem readByte_writeByte_other {a a' : Nat} (m : Memory) (v : Byte) (h : a' ≠ a) :
    (Memory.writeByte m a v).readByte a' = m.readByte a' := by
  induction m with
  | nil => simp [Memory.writeByte, Memory.readByte, h]
  | cons c m ih =>
    obtain ⟨k, b⟩ := c
    simp only [Memory.writeByte]
    split
    · simp [Memory.readByte, h]
    · split
      · rename_i hk
        subst hk
        simp [Memory.readByte, h]
      · simp [Memory.readByte, ih]

theorem wfFrom_writeByte {lo a : Nat} (m : Memory) (v : Byte) (hlo : lo ≤ a) (ha : a < 2 ^ 64)
    (h : Memory.wfFrom lo m = true) : Memory.wfFrom lo (Memory.writeByte m a v) = true := by
  induction m generalizing lo with
  | nil => simpa [Memory.writeByte, Memory.wfFrom] using ⟨hlo, ha⟩
  | cons c m ih =>
    obtain ⟨k, b⟩ := c
    simp only [Memory.wfFrom, Bool.and_eq_true, decide_eq_true_eq] at h
    obtain ⟨⟨h1, h2⟩, h3⟩ := h
    simp only [Memory.writeByte]
    split
    · simp only [Memory.wfFrom, Bool.and_eq_true, decide_eq_true_eq]
      exact ⟨⟨hlo, ha⟩, ⟨by omega, h2⟩, h3⟩
    · split
      · rename_i hk
        subst hk
        simp only [Memory.wfFrom, Bool.and_eq_true, decide_eq_true_eq]
        exact ⟨⟨hlo, ha⟩, h3⟩
      · simp only [Memory.wfFrom, Bool.and_eq_true, decide_eq_true_eq]
        exact ⟨⟨h1, h2⟩, ih (by omega) h3⟩

/-- A one-byte store keeps the canonical form. -/
theorem wf_writeByte {a : Nat} (m : Memory) (v : Byte) (ha : a < 2 ^ 64) (h : m.wf = true) :
    (Memory.writeByte m a v).wf = true :=
  wfFrom_writeByte m v (Nat.zero_le a) ha h

/-! ## Several bytes -/

/-- A store of several bytes keeps the canonical form. -/
theorem wf_writeLE {w : Nat} (m : Memory) (hw : w ≤ 64) (n a v : Nat) (h : m.wf = true) :
    (m.writeLE w n a v).wf = true := by
  induction n generalizing a v with
  | zero => exact h
  | succ n ih =>
    refine wf_writeByte _ _ ?_ (ih _ _)
    exact Nat.lt_of_lt_of_le (Nat.mod_lt _ (Nat.two_pow_pos w)) (Nat.pow_le_pow_right (by decide) hw)

/-- A byte that is none of the stored ones reads as before. -/
theorem readByte_writeLE_other {w b : Nat} (m : Memory) (n a v : Nat)
    (h : ∀ j, j < n → b ≠ (a + j) % 2 ^ w) : (m.writeLE w n a v).readByte b = m.readByte b := by
  induction n generalizing a v with
  | zero => rfl
  | succ n ih =>
    have h0 : b ≠ a % 2 ^ w := by simpa using h 0 (Nat.succ_pos n)
    rw [Memory.writeLE, readByte_writeByte_other _ _ h0]
    refine ih _ _ fun j hj => ?_
    have := h (j + 1) (by omega)
    rwa [show a + 1 + j = a + (j + 1) by omega]

/-- Bytes fewer than the space has are at different addresses. -/
theorem mod_ne_of_lt {w a j : Nat} (hj : 0 < j) (hjw : j < 2 ^ w) : a % 2 ^ w ≠ (a + j) % 2 ^ w := by
  intro h
  have h1 : 2 ^ w ∣ a + j - a := (Nat.modEq_iff_dvd' (by omega)).mp h
  have h2 : 2 ^ w ∣ j := by simpa using h1
  exact absurd (Nat.le_of_dvd hj h2) (by omega)

/-- What a read of several bytes depends on. -/
theorem readLE_congr {w : Nat} (m m' : Memory) (n a : Nat)
    (h : ∀ j, j < n → m'.readByte ((a + j) % 2 ^ w) = m.readByte ((a + j) % 2 ^ w)) :
    m'.readLE w n a = m.readLE w n a := by
  induction n generalizing a with
  | zero => rfl
  | succ n ih =>
    have h0 := h 0 (Nat.succ_pos n)
    have h1 : m'.readLE w n (a + 1) = m.readLE w n (a + 1) := by
      refine ih _ fun j hj => ?_
      have := h (j + 1) (by omega)
      rwa [show a + 1 + j = a + (j + 1) by omega]
    simp only [Nat.add_zero] at h0
    simp only [Memory.readLE, h0, h1]

/-- Read after write (R52): the `n` bytes stored are the `n` bytes read. -/
theorem readLE_writeLE {w : Nat} (m : Memory) (n a v : Nat) (hn : n ≤ 2 ^ w) :
    (m.writeLE w n a v).readLE w n a = some (v % 256 ^ n) := by
  induction n generalizing a v with
  | zero => simp [Memory.readLE, Nat.mod_one]
  | succ n ih =>
    have hrest : (m.writeLE w (n + 1) a v).readLE w n (a + 1)
        = (m.writeLE w n (a + 1) (v / 256)).readLE w n (a + 1) := by
      refine readLE_congr _ _ _ _ fun j hj => ?_
      rw [Memory.writeLE]
      refine readByte_writeByte_other _ _ ?_
      have := mod_ne_of_lt (w := w) (a := a) (j := j + 1) (by omega) (by omega)
      rw [show a + 1 + j = a + (j + 1) by omega]
      exact this.symm
    have hbyte : (m.writeLE w (n + 1) a v).readByte (a % 2 ^ w) = some (BitVec.ofNat 8 v) := by
      rw [Memory.writeLE, readByte_writeByte_same]
    rw [Memory.readLE, hrest, hbyte, ih _ _ (by omega)]
    simp only [Option.some.injEq, BitVec.toNat_ofNat]
    rw [show (256 : ℕ) ^ (n + 1) = 256 * 256 ^ n from pow_succ' 256 n, Nat.mod_mul]

/-- The value of `n` bytes has `8n` bits (R52). -/
theorem readLE_lt {w n a v : Nat} {m : Memory} (h : m.readLE w n a = some v) : v < 256 ^ n := by
  induction n generalizing a v with
  | zero => simp [Memory.readLE] at h; omega
  | succ n ih =>
    simp only [Memory.readLE] at h
    split at h
    · rename_i b r hb hr
      have hr' := ih hr
      have hb' := b.isLt
      simp only [Option.some.injEq] at h
      rw [← h, Nat.pow_succ]
      omega
    · simp at h

end Sys2Proof.Laws
end

