-- ==== Sys2Proof/Laws/State.lean ====
section
/-! SUPPORT. One lemma per field per named update of the state, and what the mode predicates depend on. -/

namespace Sys2Proof.Laws

open Sys2Proof.Machine

variable (s t : State)

/-! ### writeIp -/

@[simp] theorem writeIp_rip (n : Width) (v : Word) : (s.writeIp n v).rip = truncTo n v := rfl
@[simp] theorem writeIp_rsp (n : Width) (v : Word) : (s.writeIp n v).rsp = s.rsp := rfl
@[simp] theorem writeIp_gprs (n : Width) (v : Word) : (s.writeIp n v).gprs = s.gprs := rfl
@[simp] theorem writeIp_cs (n : Width) (v : Word) : (s.writeIp n v).cs = s.cs := rfl
@[simp] theorem writeIp_ss (n : Width) (v : Word) : (s.writeIp n v).ss = s.ss := rfl
@[simp] theorem writeIp_ds (n : Width) (v : Word) : (s.writeIp n v).ds = s.ds := rfl
@[simp] theorem writeIp_es (n : Width) (v : Word) : (s.writeIp n v).es = s.es := rfl
@[simp] theorem writeIp_fs (n : Width) (v : Word) : (s.writeIp n v).fs = s.fs := rfl
@[simp] theorem writeIp_gs (n : Width) (v : Word) : (s.writeIp n v).gs = s.gs := rfl
@[simp] theorem writeIp_cpl (n : Width) (v : Word) : (s.writeIp n v).cpl = s.cpl := rfl
@[simp] theorem writeIp_eflags (n : Width) (v : Word) : (s.writeIp n v).eflags = s.eflags := rfl
@[simp] theorem writeIp_sys (n : Width) (v : Word) : (s.writeIp n v).sys = s.sys := rfl
@[simp] theorem writeIp_ssp (n : Width) (v : Word) : (s.writeIp n v).ssp = s.ssp := rfl
@[simp] theorem writeIp_memFaults (n : Width) (v : Word) : (s.writeIp n v).memFaults = s.memFaults := rfl
@[simp] theorem writeIp_mem (n : Width) (v : Word) : (s.writeIp n v).mem = s.mem := rfl
@[simp] theorem writeIp_draws (n : Width) (v : Word) : (s.writeIp n v).draws = s.draws := rfl

/-! ### addSp -/

@[simp] theorem addSp_rip (a : Width) (k : Nat) : (s.addSp a k).rip = s.rip := rfl
@[simp] theorem addSp_rsp (a : Width) (k : Nat) : (s.addSp a k).rsp = s.rsp.writeView a (s.sp a + BitVec.ofNat 64 k) := rfl
@[simp] theorem addSp_gprs (a : Width) (k : Nat) : (s.addSp a k).gprs = s.gprs := rfl
@[simp] theorem addSp_cs (a : Width) (k : Nat) : (s.addSp a k).cs = s.cs := rfl
@[simp] theorem addSp_ss (a : Width) (k : Nat) : (s.addSp a k).ss = s.ss := rfl
@[simp] theorem addSp_ds (a : Width) (k : Nat) : (s.addSp a k).ds = s.ds := rfl
@[simp] theorem addSp_es (a : Width) (k : Nat) : (s.addSp a k).es = s.es := rfl
@[simp] theorem addSp_fs (a : Width) (k : Nat) : (s.addSp a k).fs = s.fs := rfl
@[simp] theorem addSp_gs (a : Width) (k : Nat) : (s.addSp a k).gs = s.gs := rfl
@[simp] theorem addSp_cpl (a : Width) (k : Nat) : (s.addSp a k).cpl = s.cpl := rfl
@[simp] theorem addSp_eflags (a : Width) (k : Nat) : (s.addSp a k).eflags = s.eflags := rfl
@[simp] theorem addSp_sys (a : Width) (k : Nat) : (s.addSp a k).sys = s.sys := rfl
@[simp] theorem addSp_ssp (a : Width) (k : Nat) : (s.addSp a k).ssp = s.ssp := rfl
@[simp] theorem addSp_memFaults (a : Width) (k : Nat) : (s.addSp a k).memFaults = s.memFaults := rfl
@[simp] theorem addSp_mem (a : Width) (k : Nat) : (s.addSp a k).mem = s.mem := rfl
@[simp] theorem addSp_draws (a : Width) (k : Nat) : (s.addSp a k).draws = s.draws := rfl

/-! ### release -/

/-- What a release can be: nothing, in the forms without operand, or one increment of the stack pointer. -/
theorem release_elim {P : State → Prop} {s : State} {a : Width} {imm : Option (BitVec 16)} (h0 : P s)
    (h1 : ∀ k, P (s.addSp a k)) : P (s.release a imm) := by
  cases imm with
  | none => exact h0
  | some v => exact h1 v.toNat

@[simp] theorem release_rip (a : Width) (imm : Option (BitVec 16)) : (s.release a imm).rip = s.rip := release_elim (P := fun t => t.rip = s.rip) rfl fun _ => rfl
@[simp] theorem release_gprs (a : Width) (imm : Option (BitVec 16)) : (s.release a imm).gprs = s.gprs := release_elim (P := fun t => t.gprs = s.gprs) rfl fun _ => rfl
@[simp] theorem release_cs (a : Width) (imm : Option (BitVec 16)) : (s.release a imm).cs = s.cs := release_elim (P := fun t => t.cs = s.cs) rfl fun _ => rfl
@[simp] theorem release_ss (a : Width) (imm : Option (BitVec 16)) : (s.release a imm).ss = s.ss := release_elim (P := fun t => t.ss = s.ss) rfl fun _ => rfl
@[simp] theorem release_ds (a : Width) (imm : Option (BitVec 16)) : (s.release a imm).ds = s.ds := release_elim (P := fun t => t.ds = s.ds) rfl fun _ => rfl
@[simp] theorem release_es (a : Width) (imm : Option (BitVec 16)) : (s.release a imm).es = s.es := release_elim (P := fun t => t.es = s.es) rfl fun _ => rfl
@[simp] theorem release_fs (a : Width) (imm : Option (BitVec 16)) : (s.release a imm).fs = s.fs := release_elim (P := fun t => t.fs = s.fs) rfl fun _ => rfl
@[simp] theorem release_gs (a : Width) (imm : Option (BitVec 16)) : (s.release a imm).gs = s.gs := release_elim (P := fun t => t.gs = s.gs) rfl fun _ => rfl
@[simp] theorem release_cpl (a : Width) (imm : Option (BitVec 16)) : (s.release a imm).cpl = s.cpl := release_elim (P := fun t => t.cpl = s.cpl) rfl fun _ => rfl
@[simp] theorem release_eflags (a : Width) (imm : Option (BitVec 16)) : (s.release a imm).eflags = s.eflags := release_elim (P := fun t => t.eflags = s.eflags) rfl fun _ => rfl
@[simp] theorem release_sys (a : Width) (imm : Option (BitVec 16)) : (s.release a imm).sys = s.sys := release_elim (P := fun t => t.sys = s.sys) rfl fun _ => rfl
@[simp] theorem release_ssp (a : Width) (imm : Option (BitVec 16)) : (s.release a imm).ssp = s.ssp := release_elim (P := fun t => t.ssp = s.ssp) rfl fun _ => rfl
@[simp] theorem release_memFaults (a : Width) (imm : Option (BitVec 16)) : (s.release a imm).memFaults = s.memFaults := release_elim (P := fun t => t.memFaults = s.memFaults) rfl fun _ => rfl
@[simp] theorem release_mem (a : Width) (imm : Option (BitVec 16)) : (s.release a imm).mem = s.mem := release_elim (P := fun t => t.mem = s.mem) rfl fun _ => rfl
@[simp] theorem release_draws (a : Width) (imm : Option (BitVec 16)) : (s.release a imm).draws = s.draws := release_elim (P := fun t => t.draws = s.draws) rfl fun _ => rfl

/-- A release changes the stack pointer only. -/
theorem release_eq (a : Width) (imm : Option (BitVec 16)) : ∃ r, s.release a imm = { s with rsp := r } :=
  release_elim (P := fun t => ∃ r, t = { s with rsp := r }) ⟨_, rfl⟩ fun _ => ⟨_, rfl⟩

/-! ### loadCsReal -/

@[simp] theorem loadCsReal_rip (sel : Selector) : (s.loadCsReal sel).rip = s.rip := rfl
@[simp] theorem loadCsReal_rsp (sel : Selector) : (s.loadCsReal sel).rsp = s.rsp := rfl
@[simp] theorem loadCsReal_gprs (sel : Selector) : (s.loadCsReal sel).gprs = s.gprs := rfl
@[simp] theorem loadCsReal_ss (sel : Selector) : (s.loadCsReal sel).ss = s.ss := rfl
@[simp] theorem loadCsReal_ds (sel : Selector) : (s.loadCsReal sel).ds = s.ds := rfl
@[simp] theorem loadCsReal_es (sel : Selector) : (s.loadCsReal sel).es = s.es := rfl
@[simp] theorem loadCsReal_fs (sel : Selector) : (s.loadCsReal sel).fs = s.fs := rfl
@[simp] theorem loadCsReal_gs (sel : Selector) : (s.loadCsReal sel).gs = s.gs := rfl
@[simp] theorem loadCsReal_cpl (sel : Selector) : (s.loadCsReal sel).cpl = s.cpl := rfl
@[simp] theorem loadCsReal_eflags (sel : Selector) : (s.loadCsReal sel).eflags = s.eflags := rfl
@[simp] theorem loadCsReal_sys (sel : Selector) : (s.loadCsReal sel).sys = s.sys := rfl
@[simp] theorem loadCsReal_ssp (sel : Selector) : (s.loadCsReal sel).ssp = s.ssp := rfl
@[simp] theorem loadCsReal_memFaults (sel : Selector) : (s.loadCsReal sel).memFaults = s.memFaults := rfl
@[simp] theorem loadCsReal_mem (sel : Selector) : (s.loadCsReal sel).mem = s.mem := rfl
@[simp] theorem loadCsReal_draws (sel : Selector) : (s.loadCsReal sel).draws = s.draws := rfl

/-! ### enterCode -/

@[simp] theorem enterCode_rip (f : FarTarget) (cs : SegReg) : (s.enterCode f cs).rip = truncTo f.n f.ip := rfl
@[simp] theorem enterCode_rsp (f : FarTarget) (cs : SegReg) : (s.enterCode f cs).rsp = s.rsp := rfl
@[simp] theorem enterCode_gprs (f : FarTarget) (cs : SegReg) : (s.enterCode f cs).gprs = s.gprs := rfl
@[simp] theorem enterCode_cs (f : FarTarget) (cs : SegReg) : (s.enterCode f cs).cs = cs := rfl
@[simp] theorem enterCode_ss (f : FarTarget) (cs : SegReg) : (s.enterCode f cs).ss = s.ss := rfl
@[simp] theorem enterCode_ds (f : FarTarget) (cs : SegReg) : (s.enterCode f cs).ds = s.ds := rfl
@[simp] theorem enterCode_es (f : FarTarget) (cs : SegReg) : (s.enterCode f cs).es = s.es := rfl
@[simp] theorem enterCode_fs (f : FarTarget) (cs : SegReg) : (s.enterCode f cs).fs = s.fs := rfl
@[simp] theorem enterCode_gs (f : FarTarget) (cs : SegReg) : (s.enterCode f cs).gs = s.gs := rfl
@[simp] theorem enterCode_cpl (f : FarTarget) (cs : SegReg) : (s.enterCode f cs).cpl = s.cpl := rfl
@[simp] theorem enterCode_eflags (f : FarTarget) (cs : SegReg) : (s.enterCode f cs).eflags = s.eflags := rfl
@[simp] theorem enterCode_sys (f : FarTarget) (cs : SegReg) : (s.enterCode f cs).sys = s.sys := rfl
@[simp] theorem enterCode_ssp (f : FarTarget) (cs : SegReg) : (s.enterCode f cs).ssp = s.ssp := rfl
@[simp] theorem enterCode_memFaults (f : FarTarget) (cs : SegReg) : (s.enterCode f cs).memFaults = s.memFaults := rfl
@[simp] theorem enterCode_mem (f : FarTarget) (cs : SegReg) : (s.enterCode f cs).mem = s.mem := rfl
@[simp] theorem enterCode_draws (f : FarTarget) (cs : SegReg) : (s.enterCode f cs).draws = s.draws := rfl

/-! ### clearDataSegs -/

@[simp] theorem clearDataSegs_rip : (s.clearDataSegs).rip = s.rip := rfl
@[simp] theorem clearDataSegs_rsp : (s.clearDataSegs).rsp = s.rsp := rfl
@[simp] theorem clearDataSegs_gprs : (s.clearDataSegs).gprs = s.gprs := rfl
@[simp] theorem clearDataSegs_cs : (s.clearDataSegs).cs = s.cs := rfl
@[simp] theorem clearDataSegs_ss : (s.clearDataSegs).ss = s.ss := rfl
@[simp] theorem clearDataSegs_ds : (s.clearDataSegs).ds = s.ds.afterOuter s.ia32e s.cpl := rfl
@[simp] theorem clearDataSegs_es : (s.clearDataSegs).es = s.es.afterOuter s.ia32e s.cpl := rfl
@[simp] theorem clearDataSegs_fs : (s.clearDataSegs).fs = s.fs.afterOuter s.ia32e s.cpl := rfl
@[simp] theorem clearDataSegs_gs : (s.clearDataSegs).gs = s.gs.afterOuter s.ia32e s.cpl := rfl
@[simp] theorem clearDataSegs_cpl : (s.clearDataSegs).cpl = s.cpl := rfl
@[simp] theorem clearDataSegs_eflags : (s.clearDataSegs).eflags = s.eflags := rfl
@[simp] theorem clearDataSegs_sys : (s.clearDataSegs).sys = s.sys := rfl
@[simp] theorem clearDataSegs_ssp : (s.clearDataSegs).ssp = s.ssp := rfl
@[simp] theorem clearDataSegs_memFaults : (s.clearDataSegs).memFaults = s.memFaults := rfl
@[simp] theorem clearDataSegs_mem : (s.clearDataSegs).mem = s.mem := rfl
@[simp] theorem clearDataSegs_draws : (s.clearDataSegs).draws = s.draws := rfl

/-! ### withFetchWord -/

@[simp] theorem withFetchWord_rip (nbits w : Nat) : (s.withFetchWord nbits w).rip = s.rip := rfl
@[simp] theorem withFetchWord_rsp (nbits w : Nat) : (s.withFetchWord nbits w).rsp = s.rsp := rfl
@[simp] theorem withFetchWord_gprs (nbits w : Nat) : (s.withFetchWord nbits w).gprs = s.gprs := rfl
@[simp] theorem withFetchWord_cs (nbits w : Nat) : (s.withFetchWord nbits w).cs = s.cs := rfl
@[simp] theorem withFetchWord_ss (nbits w : Nat) : (s.withFetchWord nbits w).ss = s.ss := rfl
@[simp] theorem withFetchWord_ds (nbits w : Nat) : (s.withFetchWord nbits w).ds = s.ds := rfl
@[simp] theorem withFetchWord_es (nbits w : Nat) : (s.withFetchWord nbits w).es = s.es := rfl
@[simp] theorem withFetchWord_fs (nbits w : Nat) : (s.withFetchWord nbits w).fs = s.fs := rfl
@[simp] theorem withFetchWord_gs (nbits w : Nat) : (s.withFetchWord nbits w).gs = s.gs := rfl
@[simp] theorem withFetchWord_cpl (nbits w : Nat) : (s.withFetchWord nbits w).cpl = s.cpl := rfl
@[simp] theorem withFetchWord_eflags (nbits w : Nat) : (s.withFetchWord nbits w).eflags = s.eflags := rfl
@[simp] theorem withFetchWord_sys (nbits w : Nat) : (s.withFetchWord nbits w).sys = s.sys := rfl
@[simp] theorem withFetchWord_ssp (nbits w : Nat) : (s.withFetchWord nbits w).ssp = s.ssp := rfl
@[simp] theorem withFetchWord_memFaults (nbits w : Nat) : (s.withFetchWord nbits w).memFaults = s.memFaults := rfl
@[simp] theorem withFetchWord_draws (nbits w : Nat) : (s.withFetchWord nbits w).draws = s.draws := rfl

/-! ### The mode predicates read only EFLAGS and the system registers -/

variable {s t}

theorem pe_congr (h : t.sys = s.sys) : t.pe = s.pe := by simp [State.pe, h]

theorem lma_congr (h : t.sys = s.sys) : t.lma = s.lma := by simp [State.lma, h]

theorem vm_congr (h : t.eflags = s.eflags) : t.vm = s.vm := by simp [State.vm, h]

theorem ia32e_congr (hs : t.sys = s.sys) (he : t.eflags = s.eflags) : t.ia32e = s.ia32e := by
  simp [State.ia32e, pe_congr hs, lma_congr hs, vm_congr he]

theorem realOrV86_congr (hs : t.sys = s.sys) (he : t.eflags = s.eflags) : t.realOrV86 = s.realOrV86 := by
  simp [State.realOrV86, pe_congr hs, vm_congr he]

theorem linearBits_congr (hs : t.sys = s.sys) (he : t.eflags = s.eflags) : t.linearBits = s.linearBits := by
  simp [State.linearBits, ia32e_congr hs he]

theorem in64_congr (hs : t.sys = s.sys) (he : t.eflags = s.eflags) (hc : t.cs = s.cs) : t.in64 = s.in64 := by
  simp [State.in64, ia32e_congr hs he, hc]

theorem shadowStackEnabled_congr (hs : t.sys = s.sys) (he : t.eflags = s.eflags) (c : BitVec 2) :
    t.shadowStackEnabled c = s.shadowStackEnabled c := by
  simp [State.shadowStackEnabled, State.cet, pe_congr hs, vm_congr he, hs]

theorem canonical_congr (hs : t.sys = s.sys) (a : Word) : t.canonical a = s.canonical a := by
  unfold State.canonical
  rw [hs]

/-- 64-bit mode is a sub-mode of IA-32e mode (R31). -/
theorem ia32e_of_in64 (h : s.in64 = true) : s.ia32e = true := by
  simp [State.in64] at h
  exact h.1

/-- IA-32e mode is neither real-address nor virtual-8086 mode (R31). -/
theorem not_realOrV86_of_ia32e (h : s.ia32e = true) : s.realOrV86 = false := by
  simp [State.ia32e] at h
  simp [State.realOrV86, h]

/-- Real-address and virtual-8086 mode are not 64-bit mode (R31). -/
theorem not_in64_of_realOrV86 (h : s.realOrV86 = true) : s.in64 = false := by
  cases hb : s.in64
  · rfl
  · simp [not_realOrV86_of_ia32e (ia32e_of_in64 hb)] at h

/-- `SstkUniform`, first half (R34): one value below level 3. -/
theorem shadowStackEnabled_supervisor {c c' : BitVec 2} (hc : c ≠ 3#2) (hc' : c' ≠ 3#2) :
    s.shadowStackEnabled c = s.shadowStackEnabled c' := by
  simp [State.shadowStackEnabled, hc, hc']

/-- `SstkUniform`, second half (R34): no shadow stack in real-address and virtual-8086 mode. -/
theorem not_shadowStackEnabled_of_realOrV86 (h : s.realOrV86 = true) (c : BitVec 2) :
    s.shadowStackEnabled c = false := by
  simp only [State.realOrV86, Bool.or_eq_true, Bool.not_eq_true'] at h
  rcases h with h | h <;> simp [State.shadowStackEnabled, h]

end Sys2Proof.Laws
end

