-- ==== Sys2Proof/Laws/Ops.lean ====
section
/-! SUPPORT. The shared operations: one lemma each that says what it can answer. -/

namespace Sys2Proof.Laws

open Sys2Proof.Machine

/-! ## Executions -/

@[simp] theorem ok_bind {α β : Type} (a : α) (f : α → Exec β) : ((.ok a : Exec α) >>= f) = f a := rfl

@[simp] theorem error_bind {α β : Type} (e : Stop) (f : α → Exec β) : ((.error e : Exec α) >>= f) = .error e := rfl

/-- What a sequence that completes has done. -/
theorem bind_eq_ok {α β : Type} {x : Exec α} {f : α → Exec β} {b : β} :
    (x >>= f) = .ok b ↔ ∃ a, x = .ok a ∧ f a = .ok b := by
  cases x <;> simp

/-- Where a sequence that stops has stopped. -/
theorem bind_eq_error {α β : Type} {x : Exec α} {f : α → Exec β} {e : Stop} :
    (x >>= f) = .error e ↔ x = .error e ∨ ∃ a, x = .ok a ∧ f a = .error e := by
  cases x <;> simp

@[simp] theorem require_eq_ok {b : Bool} {f : Fault} {u : Unit} : require b f = .ok u ↔ b = true := by
  cases b <;> simp [require, raise]

@[simp] theorem require_eq_error {b : Bool} {f : Fault} {e : Stop} :
    require b f = .error e ↔ b = false ∧ e = .fault f := by
  cases b <;> simp [require, raise, eq_comm]

@[simp] theorem premise_eq_ok {b : Bool} {r : Refusal} {u : Unit} : premise b r = .ok u ↔ b = true := by
  cases b <;> simp [premise, refuse]

@[simp] theorem premise_eq_error {b : Bool} {r : Refusal} {e : Stop} :
    premise b r = .error e ↔ b = false ∧ e = .refused r := by
  cases b <;> simp [premise, refuse, eq_comm]

@[simp] theorem require_true (f : Fault) : require true f = .ok () := rfl

@[simp] theorem require_false (f : Fault) : require false f = .error (.fault f) := rfl

@[simp] theorem premise_true (r : Refusal) : premise true r = .ok () := rfl

@[simp] theorem premise_false (r : Refusal) : premise false r = .error (.refused r) := rfl

@[simp] theorem raise_eq_error {α : Type} {f : Fault} {e : Stop} : (raise f : Exec α) = .error e ↔ e = .fault f := by
  simp [raise, eq_comm]

@[simp] theorem raise_ne_ok {α : Type} {f : Fault} {a : α} : ¬(raise f : Exec α) = .ok a := by simp [raise]

@[simp] theorem refuse_eq_error {α : Type} {r : Refusal} {e : Stop} :
    (refuse r : Exec α) = .error e ↔ e = .refused r := by
  simp [refuse, eq_comm]

@[simp] theorem refuse_ne_ok {α : Type} {r : Refusal} {a : α} : ¬(refuse r : Exec α) = .ok a := by simp [refuse]

/-- A completed execution, and its state before the draw counter moves on. -/
theorem finish_eq_next {e : Exec State} {t : State} :
    finish e = .next t ↔ ∃ u, e = .ok u ∧ t = { u with draws := u.draws + 1 } := by
  rcases e with (_ | _) | u <;> simp [finish, eq_comm]

theorem finish_eq_fault {e : Exec State} {f : Fault} : finish e = .fault f ↔ e = .error (.fault f) := by
  rcases e with (_ | _) | u <;> simp [finish]

theorem finish_eq_refused {e : Exec State} {r : Refusal} : finish e = .refused r ↔ e = .error (.refused r) := by
  rcases e with (_ | _) | u <;> simp [finish]

/-! ## Memory accesses -/

/-- `MemRead` (R52): the oracle lets it pass and every byte has a value. -/
theorem memRead_eq_ok {s : State} {k : AccessKind} {a v : Word} {n : Nat} :
    s.memRead k a n = .ok v ↔
      s.memRefused k a n = false ∧ ∃ x, s.mem.readLE s.linearBits n a.toNat = some x ∧ v = BitVec.ofNat 64 x := by
  unfold State.memRead
  cases s.memRefused k a n
  · cases s.mem.readLE s.linearBits n a.toNat <;> simp [@eq_comm _ v]
  · simp

/-- `MemRead` stops only by `MemFault` or on an unwritten byte (R52, R193). -/
theorem memRead_eq_error {s : State} {k : AccessKind} {a : Word} {n : Nat} {e : Stop}
    (h : s.memRead k a n = .error e) : e = .fault .memFault ∨ e = .refused .unwrittenMemory := by
  unfold State.memRead at h
  split at h
  · simp_all
  · split at h <;> simp_all

/-- The value read has `8n` bits (R52). -/
theorem memRead_lt {s : State} {k : AccessKind} {a v : Word} {n : Nat} (hn : n ≤ 8)
    (h : s.memRead k a n = .ok v) : v.toNat < 256 ^ n := by
  obtain ⟨-, x, hx, rfl⟩ := memRead_eq_ok.mp h
  have hlt := readLE_lt hx
  have h64 : 256 ^ n ≤ 256 ^ 8 := Nat.pow_le_pow_right (by decide) hn
  rw [BitVec.toNat_ofNat]
  exact Nat.lt_of_le_of_lt (Nat.mod_le _ _) hlt

/-- A read depends on memory, the oracle and the address width alone. -/
theorem memRead_congr {s t : State} (hm : t.mem = s.mem) (hf : t.memFaults = s.memFaults) (hs : t.sys = s.sys)
    (he : t.eflags = s.eflags) (k : AccessKind) (a : Word) (n : Nat) : t.memRead k a n = s.memRead k a n := by
  simp [State.memRead, State.memRefused, hm, hf, linearBits_congr hs he]

/-! ## Widths and the stack pointer -/

theorem toNat_truncTo (a : Width) (v : Word) : (truncTo a v).toNat = v.toNat % 2 ^ a.bits := by
  cases a
  · simp only [truncTo, BitVec.toNat_setWidth, Width.bits]
    omega
  · simp only [truncTo, BitVec.toNat_setWidth, Width.bits]
    omega
  · exact (Nat.mod_eq_of_lt v.isLt).symm

theorem pow_bytes (n : Width) : 256 ^ n.bytes = 2 ^ n.bits := by cases n <;> rfl

theorem bytes_le (n : Width) : n.bytes ≤ 8 := by cases n <;> decide

/-- A value of the width is its own truncation. -/
theorem truncTo_of_lt {a : Width} {v : Word} (h : v.toNat < 2 ^ a.bits) : truncTo a v = v := by
  apply BitVec.eq_of_toNat_eq
  rw [toNat_truncTo, Nat.mod_eq_of_lt h]

/-- Bits that lie in the low part of an append. -/
theorem extract_low_append {m n : Nat} (x : BitVec m) (y : BitVec n) {k l : Nat} (h : k + l ≤ n) :
    (x ++ y).extractLsb' k l = y.extractLsb' k l := by
  apply BitVec.eq_of_getLsbD_eq
  intro i hi
  have : k + i < n := by omega
  simp [BitVec.getLsbD_append, this]

/-- The high part of an append. -/
theorem extract_high_append {m n : Nat} (x : BitVec m) (y : BitVec n) : (x ++ y).extractLsb' n m = x := by
  apply BitVec.eq_of_getLsbD_eq
  intro i h
  simp [BitVec.getLsbD_append, h]

/-! The parts of ESP and of RSP (R21). -/

@[simp] theorem esp_mid (r : StackPointer) : r.esp.extractLsb' 16 16 = r.mid := extract_high_append r.mid r.lo

@[simp] theorem esp_lo (r : StackPointer) : r.esp.extractLsb' 0 16 = r.lo :=
  (extract_low_append r.mid r.lo (by omega)).trans (by simp)

@[simp] theorem bits_hi (r : StackPointer) : r.bits.extractLsb' 32 32 = r.hi := extract_high_append r.hi r.esp

@[simp] theorem bits_mid (r : StackPointer) : r.bits.extractLsb' 16 16 = r.mid :=
  (extract_low_append r.hi r.esp (by omega)).trans (esp_mid r)

@[simp] theorem bits_lo (r : StackPointer) : r.bits.extractLsb' 0 16 = r.lo :=
  (extract_low_append r.hi r.esp (by omega)).trans (esp_lo r)

/-- A stack pointer is made of the parts of its RSP. -/
@[simp] theorem ofBits_bits (r : StackPointer) : StackPointer.ofBits r.bits = r := by simp [StackPointer.ofBits]

theorem bits_ofBits (v : Word) : (StackPointer.ofBits v).bits = v := by
  simp only [StackPointer.bits, StackPointer.esp, StackPointer.ofBits]
  apply BitVec.eq_of_getLsbD_eq
  intro i hi
  simp only [BitVec.getLsbD_append, BitVec.getLsbD_extractLsb', Nat.zero_add]
  split
  · split
    · simp_all
    · rw [show 16 + (i - 16) = i by omega]
      have : i - 16 < 16 := by omega
      simp [this]
  · rw [show 32 + (i - (16 + 16)) = i by omega]
    have : i - (16 + 16) < 32 := by omega
    simp [this]

/-- A write through a view is read back through it, truncated to the view (R21). -/
theorem view_writeView (a : Width) (r : StackPointer) (v : Word) :
    (r.writeView a v).view a = truncTo a v := by
  cases a
  · rfl
  · simp only [StackPointer.writeView, StackPointer.view, StackPointer.esp, truncTo]
    congr 1
    apply BitVec.eq_of_getLsbD_eq
    intro i hi
    simp only [BitVec.getLsbD_append, BitVec.getLsbD_extractLsb', BitVec.getLsbD_setWidth]
    split
    · simp_all
    · rw [show 16 + (i - 16) = i by omega]
      have : i - 16 < 16 := by omega
      simp [this]
      omega
  · exact bits_ofBits v

/-- A write in place through SP or ESP leaves RSP[63:32] (R21; 93 U1). -/
theorem writeView_hi {a : Width} (h : a ≠ .w64) (r : StackPointer) (v : Word) : (r.writeView a v).hi = r.hi := by
  cases a
  · rfl
  · rfl
  · exact absurd rfl h

/-- A write in place through SP leaves the bits above it (R21). -/
theorem writeView_w16_mid (r : StackPointer) (v : Word) : (r.writeView .w16 v).mid = r.mid := rfl

/-- Writing the view's own value changes nothing (R74: "adding zero changes nothing"). -/
@[simp] theorem writeView_view (a : Width) (r : StackPointer) : r.writeView a (r.view a) = r := by
  have hmid : (r.esp.setWidth 64).extractLsb' 16 16 = r.mid := by
    rw [← esp_mid r]
    ext i hi
    simp [-esp_mid]
    omega
  have hlo : (r.esp.setWidth 64).setWidth 16 = r.lo := by
    rw [← esp_lo r]
    ext i hi
    simp [-esp_lo]
  cases a
  · simp [StackPointer.writeView, StackPointer.view]
  · simp only [StackPointer.writeView, StackPointer.view, hmid, hlo]
  · exact ofBits_bits r

/-- A loaded stack pointer holds the popped value in the width popped (R143, R173). -/
theorem view_load (n : Width) (d : Nat) (v : Word) : (StackPointer.load n d v).view n = truncTo n v := by
  cases n
  · rfl
  · exact view_writeView .w32 ⟨0, 0, 0⟩ v
  · exact bits_ofBits v

/-- `sp <- sp + k` (R53, R96). -/
theorem addSp_sp (s : State) (a : Width) (k : Nat) :
    (s.addSp a k).sp a = truncTo a (s.sp a + BitVec.ofNat 64 k) :=
  view_writeView a s.rsp _

/-- A second write through a view overwrites the first, and reads only the view's bits (R21). -/
theorem writeView_writeView {a : Width} {x y : Word} (h : truncTo a x = truncTo a y) (r : StackPointer)
    (v : Word) : (r.writeView a v).writeView a x = r.writeView a y := by
  cases a
  · have : x.setWidth 16 = y.setWidth 16 := by simpa [truncTo] using congrArg (BitVec.setWidth 16) h
    simp [StackPointer.writeView, this]
  · have h32 : x.setWidth 32 = y.setWidth 32 := by simpa [truncTo] using congrArg (BitVec.setWidth 32) h
    have hlo : x.setWidth 16 = y.setWidth 16 := by simpa using congrArg (BitVec.setWidth 16) h32
    have hmid : x.extractLsb' 16 16 = y.extractLsb' 16 16 := by
      apply BitVec.eq_of_getLsbD_eq
      intro i hi
      have := congrArg (fun z => z.getLsbD (16 + i)) h32
      simp only [BitVec.getLsbD_setWidth] at this
      simp only [BitVec.getLsbD_extractLsb', hi, decide_true, Bool.true_and]
      simpa [show 16 + i < 32 by omega] using this
    simp [StackPointer.writeView, hlo, hmid]
  · simp only [truncTo] at h
    rw [h]
    rfl

/-- An increment through SP or ESP leaves RSP[63:32] (R21; 93 U1). -/
theorem addSp_hi {a : Width} (h : a ≠ .w64) (s : State) (k : Nat) : (s.addSp a k).rsp.hi = s.rsp.hi :=
  writeView_hi h _ _

/-- Two increments in a row are one: the stack pointer wraps at the stack-address size only (R53, R96). -/
theorem addSp_addSp (s : State) (a : Width) (j k : Nat) : (s.addSp a j).addSp a k = s.addSp a (j + k) := by
  have h : truncTo a ((s.addSp a j).sp a + BitVec.ofNat 64 k) = truncTo a (s.sp a + BitVec.ofNat 64 (j + k)) := by
    rw [addSp_sp]
    apply BitVec.eq_of_toNat_eq
    simp only [toNat_truncTo, BitVec.toNat_add, BitVec.toNat_ofNat]
    cases a <;> simp only [Width.bits] <;> omega
  simp only [State.addSp]
  congr 1
  exact writeView_writeView h _ _

/-- "adding zero changes nothing" (R74). -/
@[simp] theorem addSp_zero (s : State) (a : Width) : s.addSp a 0 = s := by
  simp [State.addSp, State.sp]

/-- The operand form with operand 0 releases nothing (R74). -/
@[simp] theorem release_zero (s : State) (a : Width) : s.release a (some 0#16) = s := addSp_zero s a

/-- A release after an increment at the same stack-address size is one increment by both (R96, R132, R162; R74). -/
theorem release_rsp_of_addSp {s u : State} {a : Width} {j : Nat} (imm : Option (BitVec 16))
    (hr : u.rsp = (s.addSp a j).rsp) :
    (u.release a imm).rsp = (s.addSp a (j + srcBytes imm)).rsp := by
  have hadd : ∀ k, (u.addSp a k).rsp = (s.addSp a (j + k)).rsp := by
    intro k
    rw [← addSp_addSp]
    simp only [addSp_rsp, State.sp, hr]
  cases imm with
  | none => exact hr
  | some v => exact hadd v.toNat

/-- The item at the top after an increment is the item that far above the top before (R53). -/
theorem stackAddr_addSp (s : State) (a : Width) (j k : Nat) : (s.addSp a j).stackAddr a k = s.stackAddr a (j + k) := by
  show s.linear s.ssBase (truncTo a ((s.addSp a j).sp a + BitVec.ofNat 64 k)) = s.linear s.ssBase _
  rw [addSp_sp]
  congr 1
  apply BitVec.eq_of_toNat_eq
  simp only [toNat_truncTo, BitVec.toNat_add, BitVec.toNat_ofNat]
  cases a <;> simp only [Width.bits] <;> omega

/-- The same of the item read. -/
theorem stackRead_addSp (s : State) (a n : Width) (j k : Nat) :
    (s.addSp a j).stackRead a k n = s.stackRead a (j + k) n := by
  simp only [State.stackRead, stackAddr_addSp]
  exact memRead_congr rfl rfl rfl rfl _ _ _

/-- An item read has the operand size's width (R53). -/
theorem stackRead_lt {s : State} {a n : Width} {k : Nat} {v : Word} (h : s.stackRead a k n = .ok v) :
    v.toNat < 2 ^ n.bits := by
  rw [← pow_bytes]
  exact memRead_lt (bytes_le n) h

/-- `Pop(n)` (R53). -/
theorem pop_eq_ok {s : State} {a n : Width} {v : Word} {t : State} :
    s.pop a n = .ok (v, t) ↔ s.stackRead a 0 n = .ok v ∧ t = s.addSp a n.bytes := by
  unfold State.pop
  cases s.stackRead a 0 n <;> simp [@eq_comm _ t]

theorem pop_eq_error {s : State} {a n : Width} {e : Stop} :
    s.pop a n = .error e ↔ s.stackRead a 0 n = .error e := by
  unfold State.pop
  cases s.stackRead a 0 n <;> simp

/-- What the limit test asks outside 64-bit mode (R54): the last byte not past the top of the offset space, and the
segment's limit. -/
theorem stackWithin_iff {s : State} {a : Width} {n : Nat} :
    s.stackWithin a n = true ↔ s.in64 = true ∨
      ((s.sp a).toNat + n - 1 ≤ s.ss.desc.topOffset ∧
        if s.ss.desc.expandDown then s.ss.desc.limit.toNat < (s.sp a).toNat
        else (s.sp a).toNat + n - 1 ≤ s.ss.desc.limit.toNat) := by
  cases h : s.ss.desc.expandDown <;> simp [State.stackWithin, h]

/-- Up to a limit at the top of the offset space, so on every 32-bit stack, an expand-up test is the limit alone, as R54's
pseudocode has it (log 40). -/
theorem stackWithin_expandUp {s : State} {a : Width} {n : Nat} (hu : s.ss.desc.expandDown = false)
    (hl : s.ss.desc.limit.toNat ≤ s.ss.desc.topOffset) :
    s.stackWithin a n = true ↔ s.in64 = true ∨ (s.sp a).toNat + n - 1 ≤ s.ss.desc.limit.toNat := by
  simp only [stackWithin_iff, hu, Bool.false_eq_true, if_false]
  exact or_congr_right ⟨And.right, fun h => ⟨h.trans hl, h⟩⟩

/-- The selector of an item (R120). -/
theorem readSelector_eq_ok {s : State} {a n : Width} {k : Nat} {sel : Selector} :
    s.readSelector a k n = .ok sel ↔ ∃ v, s.stackRead a k n = .ok v ∧ sel = v.setWidth 16 := by
  unfold State.readSelector
  cases s.stackRead a k n <;> simp [@eq_comm _ sel]

theorem readSelector_eq_error {s : State} {a n : Width} {k : Nat} {e : Stop} :
    s.readSelector a k n = .error e ↔ s.stackRead a k n = .error e := by
  unfold State.readSelector
  cases s.stackRead a k n <;> simp

/-- `ReadDesc` (R61). -/
theorem readDesc_eq_error {s : State} {sel : Selector} {e : Stop} :
    s.readDesc sel = .error e ↔ s.memRead .descriptorRead (s.descAddr sel) 8 = .error e := by
  unfold State.readDesc
  cases s.memRead .descriptorRead (s.descAddr sel) 8 <;> simp

/-- Loading a segment register (R61): the accessed bit is set. -/
theorem loadSeg_eq_ok {sel : Selector} {d : Descriptor} {r : SegReg} :
    loadSeg sel d = .ok r ↔ d.accessed = true ∧ r = { sel := sel, hidden := some d } := by
  unfold loadSeg
  cases d.accessed <;> simp [@eq_comm _ r]

theorem loadSeg_eq_error {sel : Selector} {d : Descriptor} {e : Stop} :
    loadSeg sel d = .error e ↔ d.accessed = false ∧ e = .refused .accessedBitClear := by
  unfold loadSeg
  cases d.accessed <;> simp

/-! ## The shadow stack -/

/-- `ShadowStackPop4B`, `ShadowStackPop8B` (R59). -/
theorem shadowPop_eq_ok {s : State} {n : Nat} {v : Word} {t : State} :
    s.shadowPop n = .ok (v, t) ↔
      s.memRead .shadowRead s.ssp n = .ok v ∧ t = { s with ssp := s.ssp + BitVec.ofNat 64 n } := by
  unfold State.shadowPop
  cases s.memRead .shadowRead s.ssp n <;> simp [@eq_comm _ t]

theorem shadowPop_eq_error {s : State} {n : Nat} {e : Stop} :
    s.shadowPop n = .error e ↔ s.memRead .shadowRead s.ssp n = .error e := by
  unfold State.shadowPop
  cases s.memRead .shadowRead s.ssp n <;> simp

/-- The far-return frame (R133): the entries at SSP + 16 and SSP + 8 are the new selector and linear instruction
pointer, and the one at SSP is 4-byte aligned. -/
theorem shadowFrame_eq_ok {s : State} {prev : Word} {t : State} :
    s.shadowFrame = .ok (prev, t) ↔
      s.sspLoad 16 = .ok (s.cs.sel.setWidth 64) ∧ s.sspLoad 8 = .ok s.lip ∧ s.sspLoad 0 = .ok prev ∧
        prev.extractLsb' 0 2 = 0#2 ∧ t = { s with ssp := s.ssp + 24#64 } := by
  simp only [State.shadowFrame, bind_eq_ok, require_eq_ok, beq_iff_eq, Except.ok.injEq, Prod.mk.injEq]
  constructor
  · rintro ⟨c, hc, l, hl, p, hp, _, rfl, _, rfl, _, hal, rfl, rfl⟩
    exact ⟨hc, hl, hp, hal, rfl⟩
  · rintro ⟨hc, hl, hp, hal, rfl⟩
    exact ⟨_, hc, _, hl, _, hp, (), rfl, (), rfl, (), hal, rfl, rfl⟩

/-- The locked compare-and-exchange (R60). -/
theorem lockCmpxchg8b_eq_ok {s t : State} {a new expected : Word} :
    s.lockCmpxchg8b a new expected = .ok t ↔
      ∃ cur, s.memRead .shadowLockedWrite a 8 = .ok cur ∧
        t = if cur = expected then { s with mem := s.mem.writeLE s.linearBits 8 a.toNat new.toNat } else s := by
  unfold State.lockCmpxchg8b
  cases s.memRead .shadowLockedWrite a 8 with
  | error e => simp
  | ok cur => by_cases h : cur = expected <;> simp [h, @eq_comm _ t]

/-! ## Canonical addresses -/

/-- Canonical addresses as numbers (R56): below `2^(VA_BITS - 1)` or within that of the top. -/
theorem canonical_iff (s : State) (a : Word) :
    s.canonical a = true ↔
      a.toNat < 2 ^ (s.sys.vaBits.bits - 1) ∨ 2 ^ 64 - 2 ^ (s.sys.vaBits.bits - 1) ≤ a.toNat := by
  have ha := a.isLt
  simp only [State.canonical, beq_iff_eq]
  rw [← BitVec.toNat_inj, BitVec.toNat_signExtend]
  cases s.sys.vaBits <;>
    simp only [VaBits.bits, BitVec.toNat_setWidth, BitVec.msb_eq_decide, decide_eq_true_eq] <;>
    split <;> omega

/-- The range test at the two ends is the test of every byte (R56: "some byte address from `sp` to `sp + n - 1` fails
`Canonical`"). -/
theorem rangeCanonical_iff_every_byte (s : State) (a : Word) (n : Nat) (h0 : 0 < n) (hn : n ≤ 2 ^ 48) :
    s.rangeCanonical a n = true ↔ ∀ i, i < n → s.canonical (a + BitVec.ofNat 64 i) = true := by
  have ha := a.isLt
  constructor
  · intro h i hi
    simp only [State.rangeCanonical, Bool.and_eq_true, canonical_iff, BitVec.toNat_add, BitVec.toNat_ofNat] at h ⊢
    cases hv : s.sys.vaBits <;> simp only [hv, VaBits.bits] at h ⊢ <;> omega
  · intro h
    simp only [State.rangeCanonical, Bool.and_eq_true]
    refine ⟨?_, h (n - 1) (by omega)⟩
    simpa using h 0 h0

end Sys2Proof.Laws
end

