-- ==== Sys2Proof/Laws/Far.lean ====
section
/-! SUPPORT. What a far return can answer (41 to 43): one lemma per operation, and the frames of its paths. -/

namespace Sys2Proof.Laws

open Sys2Proof.Machine

/-- An access the oracle refuses ends the execution (R52, R193). -/
theorem memRead_of_refuses {s : State} {k : AccessKind} {a : Word} {n : Nat} (h : s.refuses k a n) :
    s.memRead k a n = .error (.fault .memFault) := by
  have : s.memRefused k a n = true := by simpa [State.memRefused] using h
  simp [State.memRead, this, raise]

/-- So does a refused read of the far shadow-stack frame (R133). -/
theorem shadowFrame_of_refuses {s : State} (h : s.refusesFarFrame) : s.shadowFrame = .error (.fault .memFault) := by
  rcases h with h | ⟨⟨c, h1⟩, h⟩ | ⟨⟨c, l, h1, h2⟩, h⟩
  · have : s.sspLoad 16 = .error (.fault .memFault) := memRead_of_refuses h
    simp [State.shadowFrame, this]
  · have : s.sspLoad 8 = .error (.fault .memFault) := memRead_of_refuses h
    simp [State.shadowFrame, h1, this]
  · have : s.sspLoad 0 = .error (.fault .memFault) := by
      simpa [State.sspLoad] using memRead_of_refuses h
    simp [State.shadowFrame, h1, h2, this]

/-! ## Real-address and virtual-8086 mode -/

/-- The release of R115. -/
theorem releaseReal_eq_ok {s t : State} {imm : Option (BitVec 16)} :
    s.releaseReal imm = .ok t ↔ (imm.isSome = true → s.ss.desc.db = false) ∧ t = s.release .w16 imm := by
  cases imm <;> simp [State.releaseReal, State.release, bind_eq_ok, @eq_comm _ t]

/-- A far return that completes in real-address or virtual-8086 mode (R113 to R116). -/
theorem realFarReturn_eq_ok {n : Width} {imm : Option (BitVec 16)} {s t : State} :
    realFarReturn n imm s = .ok t ↔
      s.stackWithin s.stackAddressSize (2 * n.bytes) = true ∧
      ∃ v c, s.stackRead s.stackAddressSize 0 n = .ok v ∧ s.codeWithin v s.cs.desc = true ∧
        ((s.addSp s.stackAddressSize n.bytes).writeIp n v).stackRead s.stackAddressSize 0 n = .ok c ∧
        (imm.isSome = true → s.ss.desc.db = false) ∧
        t = State.release ((((s.addSp s.stackAddressSize n.bytes).writeIp n v).addSp s.stackAddressSize
              n.bytes).loadCsReal (c.setWidth 16)) .w16 imm := by
  simp only [realFarReturn, bind_eq_ok, Prod.exists, require_eq_ok, pop_eq_ok, releaseReal_eq_ok]
  constructor
  · rintro ⟨-, hst, v, s1, ⟨hv, rfl⟩, -, hc, c, s2, ⟨hs, rfl⟩, hb, rfl⟩
    exact ⟨hst, v, c, hv, hc, hs, hb, rfl⟩
  · rintro ⟨hst, v, c, hv, hc, hs, hb, rfl⟩
    exact ⟨(), hst, v, _, ⟨hv, rfl⟩, (), hc, c, _, ⟨hs, rfl⟩, hb, rfl⟩

/-! ## The tests of protected and IA-32e mode -/

/-- A return code segment that passes (R122 to R128, R151 to R159). -/
theorem checkCodeSegment_eq_ok {s : State} {rcs : Selector} {d : Descriptor} :
    s.checkCodeSegment rcs = .ok d ↔
      isNull rcs = false ∧ s.beyondLimit rcs = false ∧
      (s.ia32e = true → s.rangeCanonical (s.descAddr rcs) 8 = true) ∧ s.readDesc rcs = .ok d ∧
      d.isCode = true ∧ ¬(s.ia32e = true ∧ d.l = true ∧ d.db = true) ∧ ¬rpl rcs < s.cpl ∧
      ¬(d.ec = true ∧ rpl rcs < d.dpl) ∧ (d.ec = true ∨ d.dpl = rpl rcs) ∧ d.p = true := by
  simp only [State.checkCodeSegment, bind_eq_ok, require_eq_ok, Bool.not_eq_true', Bool.or_eq_true,
    Bool.and_eq_false_iff, decide_eq_false_iff_not, beq_iff_eq, Except.ok.injEq]
  constructor
  · rintro ⟨-, h1, -, h2, -, h3, d', h4, -, h5, -, h6, -, h7, -, h8, -, h9, -, h10, rfl⟩
    refine ⟨h1, h2, ?_, h4, h5, ?_, h7, ?_, h9, h10⟩ <;> grind
  · rintro ⟨h1, h2, h3, h4, h5, h6, h7, h8, h9, h10⟩
    refine ⟨(), h1, (), h2, (), ?_, d, h4, (), h5, (), ?_, (), h7, (), ?_, (), h9, (), h10, rfl⟩ <;> grind

/-- A return stack segment that passes (R137 to R139, R167 to R169). -/
theorem checkStackSegment_eq_ok {s : State} {rcs rss : Selector} {d : Descriptor} :
    s.checkStackSegment rcs rss = .ok d ↔
      s.beyondLimit rss = false ∧ (s.ia32e = true → s.rangeCanonical (s.descAddr rss) 8 = true) ∧
      s.readDesc rss = .ok d ∧ rpl rss = rpl rcs ∧ d.isWritableData = true ∧ d.dpl = rpl rcs ∧ d.p = true := by
  simp only [State.checkStackSegment, bind_eq_ok, require_eq_ok, Bool.not_eq_true', Bool.or_eq_true,
    Bool.and_eq_true, beq_iff_eq, Except.ok.injEq]
  constructor
  · rintro ⟨-, h1, -, h2, d', h3, -, h4, -, h5, rfl⟩
    exact ⟨h1, by grind, h3, h4.1.1, h4.1.2, h4.2, h5⟩
  · rintro ⟨h1, h2, h3, h4, h5, h6, h7⟩
    exact ⟨(), h1, (), by grind, d, h3, (), ⟨⟨h4, h5⟩, h6⟩, (), h7, rfl⟩

/-- The stack segment register of an IA-32e outer return (R166 to R169). -/
theorem ia32eStackSegment_eq_ok {s : State} {f : FarTarget} {rss : Selector} {r : SegReg} :
    s.ia32eStackSegment f rss = .ok r ↔
      (isNull rss = true ∧ f.d.l = true ∧ rpl rss ≠ 3#2 ∧ rpl rss = rpl f.rcs ∧ r = { sel := rss, hidden := none }) ∨
      (isNull rss = false ∧ ∃ ds, s.checkStackSegment f.rcs rss = .ok ds ∧ r = { sel := rss, hidden := some ds }) := by
  unfold State.ia32eStackSegment
  cases h : isNull rss <;> simp [bind_eq_ok, @eq_comm _ r]

theorem requireAccessed_eq_ok {r : SegReg} {u : Unit} :
    requireAccessed r = .ok u ↔ ∀ d, r.hidden = some d → d.accessed = true := by
  unfold requireAccessed
  cases r.hidden <;> simp

/-! ## The shadow stack -/

/-- `shadowFrame` in words of the frame it finds (R133). -/
theorem shadowFrame_eq_ok_iff_frame {s t : State} {prev : Word} :
    s.shadowFrame = .ok (prev, t) ↔ s.farFrameIs s.cs.sel s.lip prev ∧ t = { s with ssp := s.ssp + 24#64 } := by
  simp only [shadowFrame_eq_ok, State.farFrameIs]
  tauto

/-- The same-level shadow-stack step (R133, R163). -/
theorem sameShadowStep_eq_ok {s t : State} :
    s.sameShadowStep = .ok t ↔
      (s.shadowStackEnabled s.cpl = false ∧ t = s) ∨
      (s.shadowStackEnabled s.cpl = true ∧ s.sspAligned = true ∧
        ∃ prev, s.farFrameIs s.cs.sel s.lip prev ∧ s.newSspOk prev = true ∧ t = { s with ssp := prev }) := by
  unfold State.sameShadowStep
  cases s.shadowStackEnabled s.cpl
  · simp [@eq_comm _ t]
  · simp only [if_true, bind_eq_ok, Prod.exists, require_eq_ok, shadowFrame_eq_ok_iff_frame, Except.ok.injEq,
      Bool.true_eq_false, false_and, false_or, true_and]
    constructor
    · rintro ⟨-, ha, prev, s1, ⟨hf, rfl⟩, -, hn, rfl⟩
      exact ⟨ha, prev, hf, hn, rfl⟩
    · rintro ⟨ha, prev, hf, hn, rfl⟩
      exact ⟨(), ha, prev, _, ⟨hf, rfl⟩, (), hn, rfl⟩

/-- The shadow-stack tests of an outer return at the old level (R142, R172). -/
theorem outerShadowTests_eq_ok {s t : State} {c : BitVec 2} {saved : Option Word} :
    s.outerShadowTests c = .ok (saved, t) ↔
      (s.shadowStackEnabled s.cpl = false ∧ saved = none ∧ t = s) ∨
      (s.shadowStackEnabled s.cpl = true ∧ s.sspAligned = true ∧ c = 3#2 ∧ saved = none ∧ t = s) ∨
      (s.shadowStackEnabled s.cpl = true ∧ s.sspAligned = true ∧ c ≠ 3#2 ∧
        ∃ prev, s.farFrameIs s.cs.sel s.lip prev ∧ saved = some prev ∧ t = { s with ssp := s.ssp + 24#64 }) := by
  unfold State.outerShadowTests
  cases s.shadowStackEnabled s.cpl
  · simp [@eq_comm _ t, @eq_comm _ saved]
  · by_cases hc : c = 3#2
    · simp [hc, bind_eq_ok, @eq_comm _ t, @eq_comm _ saved]
    · simp only [if_true, if_false, hc, bind_eq_ok, Prod.exists, require_eq_ok, shadowFrame_eq_ok_iff_frame,
        Except.ok.injEq, Prod.mk.injEq, Bool.true_eq_false, false_and, false_or, true_and, ne_eq, not_false_eq_true,
        and_false]
      constructor
      · rintro ⟨-, ha, prev, s1, ⟨hf, rfl⟩, rfl, rfl⟩
        exact ⟨ha, prev, hf, rfl, rfl⟩
      · rintro ⟨ha, prev, hf, rfl, rfl⟩
        exact ⟨(), ha, prev, _, ⟨hf, rfl⟩, rfl, rfl⟩

/-- The new shadow-stack pointer (R144, R174). -/
theorem switchSsp_eq_ok {s t : State} {saved : Option Word} :
    s.switchSsp saved = .ok t ↔
      (s.shadowStackEnabled s.cpl = false ∧ t = s) ∨
      (s.shadowStackEnabled s.cpl = true ∧
        ∃ v, (if s.cpl = 3#2 then some s.sys.pl3Ssp else saved) = some v ∧ s.newSspOk v = true ∧
          t = { s with ssp := v }) := by
  unfold State.switchSsp
  cases s.shadowStackEnabled s.cpl
  · simp [@eq_comm _ t]
  · simp only [if_true, Bool.true_eq_false, false_and, false_or, true_and]
    split <;> rename_i heq <;> simp [heq, bind_eq_ok, @eq_comm _ t]

/-- The token free (R145, R175). -/
theorem freeOldToken_eq_ok {s t : State} {en : Bool} {old : Word} :
    s.freeOldToken en old = .ok t ↔
      (en = false ∧ t = s) ∨
      (en = true ∧ ∃ cur, s.memRead .shadowLockedWrite old 8 = .ok cur ∧
        t = if cur = old ||| 1#64 then { s with mem := s.mem.writeLE s.linearBits 8 old.toNat old.toNat } else s) := by
  cases en
  · simp [State.freeOldToken, @eq_comm _ t]
  · simp [State.freeOldToken, State.freeToken, lockCmpxchg8b_eq_ok]

/-! ## The paths -/

/-- A same-level return after its tests (R131 to R133, R161 to R163). -/
theorem sameLevel_eq_ok {s t : State} {f : FarTarget} :
    s.sameLevel f = .ok t ↔
      f.d.accessed = true ∧
      (((s.enterCode f { sel := f.rcs, hidden := some f.d }).addSp f.a (2 * f.n.bytes)).release f.a
        f.imm).sameShadowStep = .ok t := by
  simp only [State.sameLevel, bind_eq_ok, loadSeg_eq_ok]
  constructor
  · rintro ⟨cs, ⟨ha, rfl⟩, h⟩
    exact ⟨ha, h⟩
  · rintro ⟨ha, h⟩
    exact ⟨_, ⟨ha, rfl⟩, h⟩

/-- An outer return after its tests (R142 to R147, R172 to R177). -/
theorem outerLevel_eq_ok {s t : State} {f : FarTarget} {cs ss : SegReg} {esp : Word} :
    s.outerLevel f cs esp ss = .ok t ↔
      ∃ saved s2 s4 s5, (s.enterCode f cs).outerShadowTests (rpl f.rcs) = .ok (saved, s2) ∧
        State.switchSsp { s2 with cpl := rpl f.rcs, rsp := StackPointer.load f.n s2.draws esp, ss := ss } saved
          = .ok s4 ∧
        s4.freeOldToken (s2.shadowStackEnabled s2.cpl) s2.ssp = .ok s5 ∧
        t = s5.clearDataSegs.release s5.clearDataSegs.stackAddressSize f.imm := by
  simp only [State.outerLevel, bind_eq_ok, Prod.exists, Except.ok.injEq, @eq_comm _ _ t]
  constructor
  · rintro ⟨saved, s2, h2, s4, h4, s5, h5, h⟩
    exact ⟨saved, s2, s4, s5, h2, h4, h5, h⟩
  · rintro ⟨saved, s2, s4, s5, h2, h4, h5, h⟩
    exact ⟨saved, s2, h2, s4, h4, s5, h5, h⟩

/-- Protected mode, same level (R130). -/
theorem protSame_eq_ok {s t : State} {f : FarTarget} :
    protSame f s = .ok t ↔ s.codeWithin f.ip f.d = true ∧ s.sameLevel f = .ok t := by
  simp [protSame, bind_eq_ok]

/-- IA-32e mode, same level (R160). -/
theorem ia32eSame_eq_ok {s t : State} {f : FarTarget} :
    ia32eSame f s = .ok t ↔ s.ia32eTargetOk f = true ∧ s.sameLevel f = .ok t := by
  simp [ia32eSame, bind_eq_ok]

/-- Protected mode, outer level (R135 to R141). -/
theorem protOuter_eq_ok {s t : State} {f : FarTarget} :
    protOuter f s = .ok t ↔
      s.stackWithin f.a (4 * f.n.bytes + srcBytes f.imm) = true ∧
      ∃ rss ds esp, s.readSelector f.a (3 * f.n.bytes + srcBytes f.imm) f.n = .ok rss ∧ isNull rss = false ∧
        s.checkStackSegment f.rcs rss = .ok ds ∧ s.codeWithin f.ip f.d = true ∧ f.d.accessed = true ∧
        s.stackRead f.a (2 * f.n.bytes + srcBytes f.imm) f.n = .ok esp ∧ ds.accessed = true ∧
        s.outerLevel f { sel := f.rcs, hidden := some f.d } esp { sel := rss, hidden := some ds } = .ok t := by
  simp only [protOuter, bind_eq_ok, require_eq_ok, loadSeg_eq_ok, Bool.not_eq_true']
  constructor
  · rintro ⟨-, h1, rss, h2, -, h3, ds, h4, -, h5, cs, ⟨h6, rfl⟩, esp, h7, ss, ⟨h8, rfl⟩, h9⟩
    exact ⟨h1, rss, ds, esp, h2, h3, h4, h5, h6, h7, h8, h9⟩
  · rintro ⟨h1, rss, ds, esp, h2, h3, h4, h5, h6, h7, h8, h9⟩
    exact ⟨(), h1, rss, h2, (), h3, ds, h4, (), h5, _, ⟨h6, rfl⟩, esp, h7, _, ⟨h8, rfl⟩, h9⟩

/-- IA-32e mode, outer level (R165 to R171). -/
theorem ia32eOuter_eq_ok {s t : State} {f : FarTarget} :
    ia32eOuter f s = .ok t ↔
      s.ia32eStackOk f.a f.n (4 * f.n.bytes + srcBytes f.imm) = true ∧
      ∃ rss ss esp, s.readSelector f.a (3 * f.n.bytes + srcBytes f.imm) f.n = .ok rss ∧
        s.ia32eStackSegment f rss = .ok ss ∧ s.ia32eTargetOk f = true ∧ f.d.accessed = true ∧
        s.stackRead f.a (2 * f.n.bytes + srcBytes f.imm) f.n = .ok esp ∧
        (∀ d, ss.hidden = some d → d.accessed = true) ∧
        s.outerLevel f { sel := f.rcs, hidden := some f.d } esp ss = .ok t := by
  simp only [ia32eOuter, bind_eq_ok, require_eq_ok, loadSeg_eq_ok, requireAccessed_eq_ok]
  constructor
  · rintro ⟨-, h1, rss, h2, ss, h3, -, h4, cs, ⟨h5, rfl⟩, esp, h6, -, h7, h8⟩
    exact ⟨h1, rss, ss, esp, h2, h3, h4, h5, h6, h7, h8⟩
  · rintro ⟨h1, rss, ss, esp, h2, h3, h4, h5, h6, h7, h8⟩
    exact ⟨(), h1, rss, h2, ss, h3, (), h4, _, ⟨h5, rfl⟩, esp, h6, (), h7, h8⟩

/-- The two items read first (R120, R150). -/
theorem readTarget_eq_ok {s : State} {a n : Width} {ip : Word} {rcs : Selector} :
    s.readTarget a n = .ok (ip, rcs) ↔ s.stackRead a 0 n = .ok ip ∧ s.readSelector a n.bytes n = .ok rcs := by
  simp [State.readTarget, bind_eq_ok]

/-- What a protected-mode far return has passed before it takes its path (R120 to R129). -/
theorem protFarReturn_eq_ok {n : Width} {imm : Option (BitVec 16)} {s t : State} :
    protFarReturn n imm s = .ok t ↔
      s.stackWithin s.stackAddressSize (2 * n.bytes) = true ∧
      ∃ ip rcs d, s.readTarget s.stackAddressSize n = .ok (ip, rcs) ∧ s.checkCodeSegment rcs = .ok d ∧
        (if s.cpl < rpl rcs then
          protOuter { n := n, imm := imm, a := s.stackAddressSize, ip := ip, rcs := rcs, d := d } s
         else protSame { n := n, imm := imm, a := s.stackAddressSize, ip := ip, rcs := rcs, d := d } s) = .ok t := by
  simp only [protFarReturn, bind_eq_ok, require_eq_ok, Prod.exists]
  constructor
  · rintro ⟨-, h1, ip, rcs, h2, d, h3, h4⟩
    exact ⟨h1, ip, rcs, d, h2, h3, h4⟩
  · rintro ⟨h1, ip, rcs, d, h2, h3, h4⟩
    exact ⟨(), h1, ip, rcs, h2, d, h3, h4⟩

/-- What an IA-32e far return has passed before it takes its path (R150 to R159). -/
theorem ia32eFarReturn_eq_ok {n : Width} {imm : Option (BitVec 16)} {s t : State} :
    ia32eFarReturn n imm s = .ok t ↔
      s.ia32eStackOk s.stackAddressSize n (2 * n.bytes) = true ∧
      ∃ ip rcs d, s.readTarget s.stackAddressSize n = .ok (ip, rcs) ∧ s.checkCodeSegment rcs = .ok d ∧
        (if s.cpl < rpl rcs then
          ia32eOuter { n := n, imm := imm, a := s.stackAddressSize, ip := ip, rcs := rcs, d := d } s
         else ia32eSame { n := n, imm := imm, a := s.stackAddressSize, ip := ip, rcs := rcs, d := d } s) = .ok t := by
  simp only [ia32eFarReturn, bind_eq_ok, require_eq_ok, Prod.exists]
  constructor
  · rintro ⟨-, h1, ip, rcs, h2, d, h3, h4⟩
    exact ⟨h1, ip, rcs, d, h2, h3, h4⟩
  · rintro ⟨h1, ip, rcs, d, h2, h3, h4⟩
    exact ⟨(), h1, ip, rcs, h2, d, h3, h4⟩

end Sys2Proof.Laws
end

