-- ==== Sys2Proof/Laws/Near.lean ====
section
/-! SUPPORT. What a near return can answer (40_near_return.md). -/

namespace Sys2Proof.Laws

open Sys2Proof.Machine

/-- The shadow-stack step of a near return (R93 to R95): nothing without a shadow stack; otherwise the entry at SSP is
the new pointer and SSP moves past it. -/
theorem nearShadowStep_eq_ok {s t : State} {n : Width} :
    s.nearShadowStep n = .ok t ↔
      (s.shadowStackEnabled s.cpl = true → s.memRead .shadowRead s.ssp (nearShadowBytes n) = .ok s.rip) ∧
        t = { s with
              ssp := if s.shadowStackEnabled s.cpl then s.ssp + BitVec.ofNat 64 (nearShadowBytes n) else s.ssp } := by
  unfold State.nearShadowStep
  cases s.shadowStackEnabled s.cpl
  · simp [@eq_comm _ t]
  · simp only [if_true, bind_eq_ok, Prod.exists, shadowPop_eq_ok, require_eq_ok, beq_iff_eq, Except.ok.injEq,
      forall_const]
    constructor
    · rintro ⟨v, s1, ⟨hv, rfl⟩, _, hr, rfl⟩
      exact ⟨by rw [hv, ← hr], rfl⟩
    · rintro ⟨hv, rfl⟩
      exact ⟨_, _, ⟨hv, rfl⟩, (), rfl, rfl⟩

/-- A near return that completes (R92 to R96): its tests passed, and it wrote the pointer, the stack pointer and,
with a shadow stack, SSP. -/
theorem nearReturn_eq_ok {n : Width} {imm : Option (BitVec 16)} {s t : State} :
    nearReturn n imm s = .ok t ↔
      s.nearStackOk s.stackAddressSize n = true ∧
      ∃ v, s.stackRead s.stackAddressSize 0 n = .ok v ∧ s.nearTargetOk n v = true ∧
        (s.shadowStackEnabled s.cpl = true → s.memRead .shadowRead s.ssp (nearShadowBytes n) = .ok v) ∧
        t = State.release
              { s.addSp s.stackAddressSize n.bytes with
                rip := v
                ssp := if s.shadowStackEnabled s.cpl then s.ssp + BitVec.ofNat 64 (nearShadowBytes n) else s.ssp }
              s.stackAddressSize imm := by
  have hcfg : ∀ k, (s.addSp s.stackAddressSize k).nearTargetOk n = s.nearTargetOk n := by
    intro k; funext v; cases n <;> rfl
  simp only [nearReturn, bind_eq_ok, Prod.exists, require_eq_ok, pop_eq_ok, nearShadowStep_eq_ok, Except.ok.injEq]
  constructor
  · rintro ⟨-, hst, v, s1, ⟨hv, rfl⟩, -, ht, s2, ⟨hs, rfl⟩, rfl⟩
    rw [hcfg] at ht
    have htr : truncTo n v = v := truncTo_of_lt (stackRead_lt hv)
    have henv : State.shadowStackEnabled ((s.addSp s.stackAddressSize n.bytes).writeIp n v) s.cpl
        = s.shadowStackEnabled s.cpl := rfl
    refine ⟨hst, v, hv, ht, fun he => ?_, ?_⟩
    · have := hs he
      rwa [writeIp_rip, htr] at this
    · simp [State.writeIp, htr, State.addSp, State.shadowStackEnabled, State.cet, State.pe, State.vm]
  · rintro ⟨hst, v, hv, ht, hs, rfl⟩
    have htr : truncTo n v = v := truncTo_of_lt (stackRead_lt hv)
    refine ⟨(), hst, v, _, ⟨hv, rfl⟩, (), by rw [hcfg]; exact ht, _, ⟨fun he => ?_, rfl⟩, ?_⟩
    · rw [writeIp_rip, htr]
      exact hs he
    · simp [State.writeIp, htr, State.addSp, State.shadowStackEnabled, State.cet, State.pe, State.vm]

end Sys2Proof.Laws
end

