-- ==== Sys2Proof/Laws/Exec.lean ====
section
/-! SUPPORT. `exec` and `step` in one equation each, and what every path leaves as it was. -/

namespace Sys2Proof.Laws

open Sys2Proof.Machine

/-- The four arms of `exec` are two procedures. -/
theorem exec_eq (i : Instr) (s : State) :
    exec i s = finish (if i.isFar then runFar i.prefixes i.imm s else runNear i.prefixes i.imm s) := by
  cases i <;> rfl

theorem exec_eq_far {i : Instr} (h : i.isFar = true) (s : State) :
    exec i s = finish (runFar i.prefixes i.imm s) := by
  rw [exec_eq, h]
  rfl

theorem exec_eq_near {i : Instr} (h : i.isFar = false) (s : State) :
    exec i s = finish (runNear i.prefixes i.imm s) := by
  rw [exec_eq, h]
  rfl

/-- A form that is ready runs its near procedure. -/
theorem runNear_of_ready {i : Instr} {s : State} {n : Width} (hi : i.isFar = false) (h : s.ready i n) :
    runNear i.prefixes i.imm s = nearReturn n i.imm s := by
  obtain ⟨h1, h2⟩ := h
  rw [hi] at h2
  rw [runNear, h1, h2]
  rfl

/-- A form that is ready runs its far procedure. -/
theorem runFar_of_ready {i : Instr} {s : State} {n : Width} (hi : i.isFar = true) (h : s.ready i n) :
    runFar i.prefixes i.imm s = farReturn n i.imm s := by
  obtain ⟨h1, h2⟩ := h
  rw [hi] at h2
  rw [runFar, h1, h2]
  rfl

theorem runNear_eq_ok {p : Prefixes} {imm : Option (BitVec 16)} {s t : State} :
    runNear p imm s = .ok t ↔
      s.requireSegments = .ok () ∧ ∃ n, s.operandSize false p = .ok n ∧ nearReturn n imm s = .ok t := by
  simp only [runNear, bind_eq_ok]
  exact ⟨fun ⟨_, h1, n, h2, h3⟩ => ⟨h1, n, h2, h3⟩, fun ⟨h1, n, h2, h3⟩ => ⟨(), h1, n, h2, h3⟩⟩

theorem runFar_eq_ok {p : Prefixes} {imm : Option (BitVec 16)} {s t : State} :
    runFar p imm s = .ok t ↔
      s.requireSegments = .ok () ∧ ∃ n, s.operandSize true p = .ok n ∧ farReturn n imm s = .ok t := by
  simp only [runFar, bind_eq_ok]
  exact ⟨fun ⟨_, h1, n, h2, h3⟩ => ⟨h1, n, h2, h3⟩, fun ⟨h1, n, h2, h3⟩ => ⟨(), h1, n, h2, h3⟩⟩

/-- Execution that completes: a near or a far procedure that does, and the draw counter moved on. -/
theorem exec_eq_next {i : Instr} {s t : State} :
    exec i s = .next t ↔
      ∃ n u, s.ready i n ∧ t = { u with draws := u.draws + 1 } ∧
        (if i.isFar then farReturn n i.imm s else nearReturn n i.imm s) = .ok u := by
  rw [exec_eq, finish_eq_next]
  cases h : i.isFar
  · simp only [Bool.false_eq_true, if_false, runNear_eq_ok, State.ready, h]
    exact ⟨fun ⟨u, ⟨h1, n, h2, h3⟩, h4⟩ => ⟨n, u, ⟨h1, h2⟩, h4, h3⟩,
      fun ⟨n, u, ⟨h1, h2⟩, h4, h3⟩ => ⟨u, ⟨h1, n, h2, h3⟩, h4⟩⟩
  · simp only [if_true, runFar_eq_ok, State.ready, h]
    exact ⟨fun ⟨u, ⟨h1, n, h2, h3⟩, h4⟩ => ⟨n, u, ⟨h1, h2⟩, h4, h3⟩,
      fun ⟨n, u, ⟨h1, h2⟩, h4, h3⟩ => ⟨u, ⟨h1, n, h2, h3⟩, h4⟩⟩

/-- The dispatch of R112 in protected and IA-32e mode. -/
theorem farReturn_segmented {n : Width} {imm : Option (BitVec 16)} {s : State} (h : s.realOrV86 = false) :
    farReturn n imm s = if s.ia32e then ia32eFarReturn n imm s else protFarReturn n imm s := by
  simp [farReturn, h]

/-- A far return that completes in protected or IA-32e mode: the code segment has passed its tests, and the return is
to the same level or to an outer one (R129, R159). -/
theorem farReturn_path {n : Width} {imm : Option (BitVec 16)} {s u : State} (hv : s.realOrV86 = false)
    (h : farReturn n imm s = .ok u) :
    ∃ ip rcs d, s.readTarget s.stackAddressSize n = .ok (ip, rcs) ∧ s.checkCodeSegment rcs = .ok d ∧
      ((¬ s.cpl < rpl rcs ∧
          s.sameLevel { n := n, imm := imm, a := s.stackAddressSize, ip := ip, rcs := rcs, d := d } = .ok u) ∨
       (s.cpl < rpl rcs ∧ ∃ esp ss,
          s.outerLevel { n := n, imm := imm, a := s.stackAddressSize, ip := ip, rcs := rcs, d := d }
            { sel := rcs, hidden := some d } esp ss = .ok u)) := by
  rw [farReturn_segmented hv] at h
  split at h
  · obtain ⟨-, ip, rcs, d, h1, h2, h⟩ := ia32eFarReturn_eq_ok.mp h
    refine ⟨ip, rcs, d, h1, h2, ?_⟩
    split at h
    · obtain ⟨-, rss, ss, esp, -, -, -, -, -, -, h⟩ := ia32eOuter_eq_ok.mp h
      exact .inr ⟨‹_›, esp, ss, h⟩
    · exact .inl ⟨‹_›, (ia32eSame_eq_ok.mp h).2⟩
  · obtain ⟨-, ip, rcs, d, h1, h2, h⟩ := protFarReturn_eq_ok.mp h
    refine ⟨ip, rcs, d, h1, h2, ?_⟩
    split at h
    · obtain ⟨-, rss, ss, esp, -, -, -, -, -, -, -, h⟩ := protOuter_eq_ok.mp h
      exact .inr ⟨‹_›, esp, _, h⟩
    · exact .inl ⟨‹_›, (protSame_eq_ok.mp h).2⟩

/-! ## Frames before the draw counter moves -/

/-- What a near return changes (R98): RIP, the stack pointer, SSP. -/
theorem nearReturn_frame {n : Width} {imm : Option (BitVec 16)} {s t : State} (h : nearReturn n imm s = .ok t) :
    t = { s with rip := t.rip, rsp := t.rsp, ssp := t.ssp } := by
  obtain ⟨-, v, -, -, -, rfl⟩ := nearReturn_eq_ok.mp h
  obtain ⟨r, hr⟩ := release_eq _ s.stackAddressSize imm
  rw [hr]
  rfl

/-- What a real-address or virtual-8086 far return changes (R117): RIP, CS, the stack pointer. -/
theorem realFarReturn_frame {n : Width} {imm : Option (BitVec 16)} {s t : State}
    (h : realFarReturn n imm s = .ok t) : t = { s with rip := t.rip, cs := t.cs, rsp := t.rsp } := by
  obtain ⟨-, v, c, -, -, -, -, rfl⟩ := realFarReturn_eq_ok.mp h
  obtain ⟨r, hr⟩ := release_eq _ .w16 imm
  rw [hr]
  rfl

/-- What a same-level return changes (R134, R164): RIP, CS, the stack pointer, SSP. -/
theorem sameLevel_frame {f : FarTarget} {s t : State} (h : s.sameLevel f = .ok t) :
    t = { s with rip := truncTo f.n f.ip, cs := { sel := f.rcs, hidden := some f.d }, rsp := t.rsp, ssp := t.ssp } := by
  obtain ⟨-, h⟩ := sameLevel_eq_ok.mp h
  obtain ⟨r, hr⟩ := release_eq ((s.enterCode f { sel := f.rcs, hidden := some f.d }).addSp f.a (2 * f.n.bytes)) f.a f.imm
  rw [hr] at h
  rcases sameShadowStep_eq_ok.mp h with ⟨-, rfl⟩ | ⟨-, -, prev, -, -, rfl⟩ <;> rfl

/-- What an outer return changes (R148, R178): RIP, CS, CPL, SS, the data segment registers, the stack pointer, SSP and
memory. -/
theorem outerLevel_frame {f : FarTarget} {s t : State} {cs ss : SegReg} {esp : Word}
    (h : s.outerLevel f cs esp ss = .ok t) :
    t = { s with
          rip := truncTo f.n f.ip
          cs := cs
          ss := ss
          cpl := rpl f.rcs
          ds := s.ds.afterOuter s.ia32e (rpl f.rcs)
          es := s.es.afterOuter s.ia32e (rpl f.rcs)
          fs := s.fs.afterOuter s.ia32e (rpl f.rcs)
          gs := s.gs.afterOuter s.ia32e (rpl f.rcs)
          rsp := t.rsp
          ssp := t.ssp
          mem := t.mem } := by
  obtain ⟨saved, s2, s4, s5, h2, h4, h5, rfl⟩ := outerLevel_eq_ok.mp h
  obtain ⟨p, rfl⟩ : ∃ p, s2 = { s.enterCode f cs with ssp := p } := by
    rcases outerShadowTests_eq_ok.mp h2 with ⟨-, -, rfl⟩ | ⟨-, -, -, -, rfl⟩ | ⟨-, -, -, prev, -, -, rfl⟩ <;>
      exact ⟨_, rfl⟩
  obtain ⟨q, rfl⟩ : ∃ q, s4 = { s.enterCode f cs with
      cpl := rpl f.rcs, rsp := StackPointer.load f.n s.draws esp, ss := ss, ssp := q } := by
    rcases switchSsp_eq_ok.mp h4 with ⟨-, rfl⟩ | ⟨-, v, -, -, rfl⟩ <;> exact ⟨_, rfl⟩
  obtain ⟨m, rfl⟩ : ∃ m, s5 = { s.enterCode f cs with
      cpl := rpl f.rcs, rsp := StackPointer.load f.n s.draws esp, ss := ss, ssp := q, mem := m } := by
    rcases freeOldToken_eq_ok.mp h5 with ⟨-, rfl⟩ | ⟨-, cur, -, rfl⟩
    · exact ⟨_, rfl⟩
    · split <;> exact ⟨_, rfl⟩
  obtain ⟨r, hr⟩ := release_eq _ _ f.imm
  rw [hr]
  rfl

end Sys2Proof.Laws
end

