-- ==== Sys2Proof/Laws/Paths.lean ====
section
/-! SUPPORT. The far return of protected and IA-32e mode as `exec` runs it, path by path: the tests that have passed are
taken out, the rest of the path is left to run. -/

namespace Sys2Proof.Laws

open Sys2Proof.Machine

/-- A far return that is ready in protected or IA-32e mode runs the procedure of the mode (R112). -/
theorem exec_segmented {i : Instr} {s : State} {n : Width} (hf : i.isFar = true)
    (hr : s.ready i n) (hs : s.segmented = true) :
    exec i s = finish (if s.ia32e then ia32eFarReturn n i.imm s else protFarReturn n i.imm s) := by
  rw [exec_eq_far hf, runFar_of_ready hf hr, farReturn_segmented]
  simpa [State.segmented] using hs

/-- The stack test of the mode (R120, R135; R150, R165). -/
theorem farStackOk_eq {s : State} {n : Width} {k : Nat} :
  s.farStackOk n k = if s.ia32e then s.ia32eStackOk s.stackAddressSize n k else s.stackWithin s.stackAddressSize k := rfl

/-- The target test of the mode (R130, R140; R160, R170). -/
theorem farTargetOk_eq {s : State} {f : FarTarget} :
    s.farTargetOk f.ip f.d = if s.ia32e then s.ia32eTargetOk f else s.codeWithin f.ip f.d := by
  unfold State.farTargetOk State.ia32eTargetOk
  cases s.ia32e <;> simp

/-- The first two items read, the tests on the code segment come next (R120 to R129, R150 to R159). -/
theorem exec_after_read {i : Instr} {s : State} {n : Width} {ip rcs} (hf : i.isFar = true)
    (hr : s.ready i n) (hs : s.segmented = true)
    (h1 : s.farStackOk n (2 * n.bytes) = true) (h2 : s.readTarget s.stackAddressSize n = .ok (ip, rcs)) :
    exec i s = finish (s.checkCodeSegment rcs >>= fun d =>
      if s.cpl < rpl rcs then (if s.ia32e then ia32eOuter else protOuter)
        { n := n, imm := i.imm, a := s.stackAddressSize, ip := ip, rcs := rcs, d := d } s
      else (if s.ia32e then ia32eSame else protSame)
        { n := n, imm := i.imm, a := s.stackAddressSize, ip := ip, rcs := rcs, d := d } s) := by
  rw [exec_segmented hf hr hs]
  rw [farStackOk_eq] at h1
  cases h64 : s.ia32e <;> simp [h64] at h1 <;> simp [ia32eFarReturn, protFarReturn, h1, h2]

/-- The code segment passed, a return to the same level (R130 to R133, R160 to R163). -/
theorem exec_same {i : Instr} {s : State} {n : Width} {ip rcs d} (hf : i.isFar = true)
    (hr : s.ready i n) (hs : s.segmented = true)
    (h1 : s.farStackOk n (2 * n.bytes) = true) (h2 : s.readTarget s.stackAddressSize n = .ok (ip, rcs))
    (h3 : s.checkCodeSegment rcs = .ok d)
    (h4 : ¬ s.cpl < rpl rcs) :
    exec i s = finish (do
      require (s.farTargetOk ip d) (.gp 0)
      s.sameLevel { n := n, imm := i.imm, a := s.stackAddressSize, ip := ip, rcs := rcs, d := d }) := by
  rw [exec_after_read hf hr hs h1 h2, h3]
  have ht := farTargetOk_eq (s := s) (f := { n := n, imm := i.imm, a := s.stackAddressSize, ip := ip, rcs := rcs, d := d })
  simp only at ht
  cases h64 : s.ia32e <;> simp [h64] at ht <;> simp [h4, ia32eSame, protSame, ht]

/-- The code segment passed, a return to an outer level (R135 to R147, R165 to R177). -/
theorem exec_outer {i : Instr} {s : State} {n : Width} {ip rcs d rss} (hf : i.isFar = true)
    (hr : s.ready i n) (hs : s.segmented = true)
    (h1 : s.farStackOk n (2 * n.bytes) = true) (h2 : s.readTarget s.stackAddressSize n = .ok (ip, rcs))
    (h3 : s.checkCodeSegment rcs = .ok d)
    (h4 : s.cpl < rpl rcs) (h5 : s.farStackOk n (4 * n.bytes + srcBytes i.imm) = true)
    (h6 : s.readSelector s.stackAddressSize (3 * n.bytes + srcBytes i.imm) n = .ok rss) :
    exec i s = finish (do
      let ss ← (if s.ia32e then s.ia32eStackSegment { n := n, imm := i.imm, a := s.stackAddressSize, ip := ip, rcs := rcs, d := d } rss
        else do
          require (!isNull rss) (.gp 0)
          let ds ← s.checkStackSegment rcs rss
          .ok { sel := rss, hidden := some ds })
      require (s.farTargetOk ip d) (.gp 0)
      let cs ← loadSeg rcs d
      let esp ← s.stackRead s.stackAddressSize (2 * n.bytes + srcBytes i.imm) n
      requireAccessed ss
      s.outerLevel { n := n, imm := i.imm, a := s.stackAddressSize, ip := ip, rcs := rcs, d := d } cs esp ss) := by
  rw [exec_after_read hf hr hs h1 h2, h3]
  have ht := farTargetOk_eq (s := s) (f := { n := n, imm := i.imm, a := s.stackAddressSize, ip := ip, rcs := rcs, d := d })
  simp only at ht
  rw [farStackOk_eq] at h5
  cases h64 : s.ia32e
  · simp [h64] at h5 ht
    simp only [ok_bind, h4, if_true, Bool.false_eq_true, if_false, protOuter, h5, require_true, h6, ht]
    cases isNull rss
    · simp only [Bool.not_false, require_true, ok_bind]
      cases s.checkStackSegment rcs rss
      · rfl
      · simp only [ok_bind, requireAccessed, loadSeg]
        cases s.codeWithin ip d
        · rfl
        · simp only [require_true, ok_bind]
          cases d.accessed
          · rfl
          · simp only [if_true, ok_bind]
            cases s.stackRead s.stackAddressSize (2 * n.bytes + srcBytes i.imm) n
            · rfl
            · simp only [ok_bind]
              rename_i ds _
              cases ds.accessed <;> rfl
    · rfl
  · simp [h64] at h5 ht
    simp [h4, ia32eOuter, h5, h6, ht]

/-! ## After the return -/

/-- The linear instruction pointer after the return (R133, R163). -/
theorem lip_enter {s : State} {d : Descriptor} {ip : Word} {rcs} (t : State) (hcs : t.cs = { sel := rcs, hidden := some d }) (hip : t.rip = ip)
   (h1 : t.sys = s.sys) (h2 : t.eflags = s.eflags) : t.lip = s.lipIn d ip := by
  simp [State.lip, State.lipIn, State.csBase, State.in64, State.enters64, State.linear, ia32e_congr h1 h2, hcs, hip, SegReg.desc]

/-- The range test of the new SSP after the return (R133, R144, R163, R174). -/
theorem newSspOk_enter {s : State} {d : Descriptor} {rcs} (t : State) (hcs : t.cs = { sel := rcs, hidden := some d })
   (h1 : t.sys = s.sys) (h2 : t.eflags = s.eflags) (v : Word) : t.newSspOk v = s.sspOkIn d v := by
  simp [State.newSspOk, State.sspOkIn, State.in64, State.enters64, ia32e_congr h1 h2, hcs, SegReg.desc, canonical_congr h1]

/-- An entry of the shadow stack depends on memory, the oracle, the address width and SSP alone. -/
theorem sspLoad_congr {s t : State} (hm : t.mem = s.mem) (hf : t.memFaults = s.memFaults) (hs : t.sys = s.sys)
    (he : t.eflags = s.eflags) (hp : t.ssp = s.ssp) (k : Nat) : t.sspLoad k = s.sspLoad k := by
  simp [State.sspLoad, memRead_congr hm hf hs he, hp]

/-- The same of the far frame. -/
theorem farFrameIs_congr {s t : State} (hm : t.mem = s.mem) (hf : t.memFaults = s.memFaults) (hs : t.sys = s.sys)
    (he : t.eflags = s.eflags) (hp : t.ssp = s.ssp) (sel lip prev) : t.farFrameIs sel lip prev = s.farFrameIs sel lip prev := by
  simp [State.farFrameIs, sspLoad_congr hm hf hs he hp]

/-- The stack-address size after the return (R77). -/
theorem stackAddressSize_enter {s : State} {d : Descriptor} {rcs ss} (t : State) (hcs : t.cs = { sel := rcs, hidden := some d }) (hss : t.ss = ss)
   (h1 : t.sys = s.sys) (h2 : t.eflags = s.eflags) : t.stackAddressSize = s.sasIn d ss := by
  simp [State.stackAddressSize, State.sasIn, State.in64, State.enters64, ia32e_congr h1 h2, hcs, hss, SegReg.desc]
  rfl

/-- What the far frame's tests answer for three entries that can be read (R133). -/
theorem shadowFrame_of_loads {t : State} {c l p : Word} (h1 : t.sspLoad 16 = .ok c) (h2 : t.sspLoad 8 = .ok l) (h3 : t.sspLoad 0 = .ok p) :
   t.shadowFrame = (if t.cs.sel.setWidth 64 ≠ c ∨ t.lip ≠ l ∨ p &&& 3#64 ≠ 0#64 then .error (.fault (.cp .farRetIret)) else .ok (p, { t with ssp := t.ssp + 24#64 })) := by
  have hp : (p.extractLsb' 0 2 == 0#2) = (p &&& 3#64 == 0#64) := by
    rw [Bool.eq_iff_iff, beq_iff_eq, beq_iff_eq, ← BitVec.toNat_inj, ← BitVec.toNat_inj, BitVec.toNat_and,
      BitVec.extractLsb'_toNat]
    have := Nat.and_two_pow_sub_one_eq_mod p.toNat 2
    norm_num at this ⊢
    rw [this]
  simp only [State.shadowFrame, h1, h2, h3, ok_bind, hp]
  by_cases a1 : t.cs.sel.setWidth 64 = c
  · by_cases a2 : t.lip = l
    · by_cases a3 : p &&& 3#64 = 0#64
      · simp [a1, a2, a3]
      · have : (p &&& 3#64 == 0#64) = false := by simp [a3]
        simp [a1, a2, a3, this]
    · have : (t.lip == l) = false := by simp [a2]
      simp [a1, a2, this]
  · have : (t.cs.sel.setWidth 64 == c) = false := by simp [a1]
    simp [a1, this]

/-- An outer return whose shadow-stack tests pass, written out (R141 to R147, R171 to R177). -/
theorem outerLevel_run {s : State} {f : FarTarget} {esp prev v cur : Word} {ss : SegReg} (htr : truncTo f.n f.ip = f.ip) (hlt : s.cpl < rpl f.rcs)
    (h1 : (s.shadowStackEnabled s.cpl = true →
      s.sspAligned = true ∧ (rpl f.rcs ≠ 3#2 → s.farFrameIs f.rcs (s.lipIn f.d f.ip) prev) ∧
      s.memRead .shadowLockedWrite (s.tokenAddress (rpl f.rcs)) 8 = .ok cur))
    (h2 : (s.shadowStackEnabled (rpl f.rcs) = true →
      v = (if rpl f.rcs = 3#2 then s.sys.pl3Ssp else prev) ∧ s.sspOkIn f.d v = true)) :
    s.outerLevel f { sel := f.rcs, hidden := some f.d } esp ss = .ok
      (State.release { s with
                rip := f.ip, cs := { sel := f.rcs, hidden := some f.d }, ss := ss, cpl := rpl f.rcs,
                ds := s.ds.afterOuter s.ia32e (rpl f.rcs),
                es := s.es.afterOuter s.ia32e (rpl f.rcs),
                fs := s.fs.afterOuter s.ia32e (rpl f.rcs),
                gs := s.gs.afterOuter s.ia32e (rpl f.rcs),
                rsp := StackPointer.load f.n s.draws esp,
                ssp := (if s.shadowStackEnabled (rpl f.rcs) then v
                  else if s.shadowStackEnabled s.cpl then s.tokenAddress (rpl f.rcs) else s.ssp),
                mem := if s.shadowStackEnabled s.cpl = true ∧ cur = s.tokenAddress (rpl f.rcs) ||| 1#64 then
                    s.mem.writeLE s.linearBits 8 (s.tokenAddress (rpl f.rcs)).toNat (s.tokenAddress (rpl f.rcs)).toNat
                  else s.mem } (s.sasIn f.d ss) f.imm) := by
  set w := s.enterCode f { sel := f.rcs, hidden := some f.d } with hw
  have e : w.sys = s.sys ∧ w.eflags = s.eflags ∧ w.mem = s.mem ∧ w.memFaults = s.memFaults ∧ w.ssp = s.ssp ∧
      w.cpl = s.cpl ∧ w.cs = { sel := f.rcs, hidden := some f.d } ∧ w.rip = f.ip := by
    simp [hw, htr]
  obtain ⟨e1, e2, e3, e4, e5, e6, e7, e8⟩ := e
  rw [outerLevel_eq_ok]
  rw [← hw]
  -- s2
  let s2 : State := { w with ssp := if s.shadowStackEnabled s.cpl then s.tokenAddress (rpl f.rcs) else s.ssp }
  let saved : Option Word := if s.shadowStackEnabled s.cpl = true ∧ rpl f.rcs ≠ 3#2 then some prev else none
  have hs2 : w.outerShadowTests (rpl f.rcs) = .ok (saved, s2) := by
    rw [outerShadowTests_eq_ok, shadowStackEnabled_congr e1 e2, e6]
    cases he : s.shadowStackEnabled s.cpl
    · left; refine ⟨rfl, by simp [saved, he], ?_⟩
      simp only [s2, he]; rw [if_neg (by simp), ← e5]
    · right
      obtain ⟨a1, a2, a3⟩ := h1 he
      have a1' : w.sspAligned = true := by simpa [State.sspAligned, e5] using a1
      by_cases h3 : rpl f.rcs = 3#2
      · left; refine ⟨rfl, a1', h3, by simp [saved, h3], ?_⟩
        simp only [s2, he, State.tokenAddress, h3]; simp only [if_true, ← e5]
      · right; refine ⟨rfl, a1', h3, prev, ?_, by simp [saved, he, h3], ?_⟩
        · rw [farFrameIs_congr e3 e4 e1 e2 e5, lip_enter w e7 e8 e1 e2, e7]; exact a2 h3
        · simp only [s2, he, State.tokenAddress, h3]; simp only [if_true, if_false, ← e5, e6]
  let s3 : State := { s2 with cpl := rpl f.rcs, rsp := StackPointer.load f.n s2.draws esp, ss := ss }
  let s4 : State := { s3 with ssp := if s.shadowStackEnabled (rpl f.rcs) then v else s2.ssp }
  have hs4 : s3.switchSsp saved = .ok s4 := by
    rw [switchSsp_eq_ok]
    have q1 : s3.shadowStackEnabled s3.cpl = s.shadowStackEnabled (rpl f.rcs) := shadowStackEnabled_congr (s := s) (t := s3) e1 e2 _
    rw [q1]
    cases he : s.shadowStackEnabled (rpl f.rcs)
    · left; refine ⟨rfl, ?_⟩; simp only [s4, he]; rw [if_neg (by simp)]
    · right
      obtain ⟨a1, a2⟩ := h2 he
      refine ⟨rfl, v, ?_, ?_, by simp only [s4, he, if_true]⟩
      · show (if rpl f.rcs = 3#2 then some s3.sys.pl3Ssp else saved) = some v
        rw [show s3.sys = s.sys from e1, a1]
        by_cases h3 : rpl f.rcs = 3#2
        · simp [h3]
        · have hold : s.shadowStackEnabled s.cpl = true := by
            rw [← he]; refine shadowStackEnabled_supervisor ?_ h3
            rintro hx; rw [hx] at hlt; bv_omega
          simp [h3, saved, hold]
      · rw [newSspOk_enter s3 e7 e1 e2]; exact a2
  let s5 : State := { s4 with mem := if s.shadowStackEnabled s.cpl = true ∧ cur = s.tokenAddress (rpl f.rcs) ||| 1#64 then
                    s.mem.writeLE s.linearBits 8 (s.tokenAddress (rpl f.rcs)).toNat (s.tokenAddress (rpl f.rcs)).toNat
                  else s.mem }
  have hs5 : s4.freeOldToken (s2.shadowStackEnabled s2.cpl) s2.ssp = .ok s5 := by
    have q1 : s2.shadowStackEnabled s2.cpl = s.shadowStackEnabled s.cpl := shadowStackEnabled_congr (s := s) (t := s2) e1 e2 _
    rw [freeOldToken_eq_ok, q1]
    cases he : s.shadowStackEnabled s.cpl
    · left; refine ⟨rfl, ?_⟩; simp only [s5, he]; rw [if_neg (by simp)]; rfl
    · right
      obtain ⟨a1, a2, a3⟩ := h1 he
      have hssp : s2.ssp = s.tokenAddress (rpl f.rcs) := by simp only [s2, he, if_true]
      have hlb : s4.linearBits = s.linearBits := linearBits_congr (s := s) (t := s4) e1 e2
      refine ⟨rfl, cur, ?_, ?_⟩
      · rw [hssp, memRead_congr (s := s) (t := s4) e3 e4 e1 e2]; exact a3
      · rw [hssp, hlb]
        simp only [s5, he, true_and]
        split
        · rfl
        · rfl
  refine ⟨saved, s2, s4, s5, hs2, hs4, hs5, ?_⟩
  have hsas : s5.clearDataSegs.stackAddressSize = s.sasIn f.d ss := stackAddressSize_enter s5.clearDataSegs e7 rfl e1 e2
  have hia : s5.ia32e = s.ia32e := ia32e_congr (s := s) (t := s5) e1 e2
  rw [hsas]
  congr 1
  simp only [State.clearDataSegs, hia]
  simp only [s5, s4, s3, s2, hw, State.enterCode, State.writeIp, htr]

/-- A return stack segment that passes gives the register to load on its path (R136 to R139, R166 to R169). -/
theorem outerStackPasses_run {s : State} {n ip rcs rss d ss imm} (h : s.outerStackPasses rcs rss d ss) :
  (if s.ia32e then s.ia32eStackSegment { n := n, imm := imm, a := s.stackAddressSize, ip := ip, rcs := rcs, d := d } rss
        else do
          require (!isNull rss) (.gp 0)
          let ds ← s.checkStackSegment rcs rss
          .ok { sel := rss, hidden := some ds }) = .ok ss := by
  rcases h with ⟨h1, ds, h2, rfl⟩ | ⟨h1, h2, h3, h4, h5, rfl⟩
  · cases h : s.ia32e
    · simp [h1, h2]
    · simp [State.ia32eStackSegment, h1, h2]
  · have : (rpl rss == 3#2) = false := by simp [h4]
    have h5' : (rpl rss == rpl rcs) = true := by simp [h5]
    rw [if_pos h1]
    unfold State.ia32eStackSegment
    simp only [h2, if_true, h3, this, h5', Bool.not_false, require_true, ok_bind]

/-- The stack segment passed as well: what is left of a return to an outer level (R140 to R147, R170 to R177). -/
theorem exec_outer_passed {i : Instr} {s : State} {n : Width} {ip rcs d rss ss} (hf : i.isFar = true)
    (hr : s.ready i n) (hs : s.segmented = true)
    (h1 : s.farStackOk n (2 * n.bytes) = true) (h2 : s.readTarget s.stackAddressSize n = .ok (ip, rcs))
    (h3 : s.checkCodeSegment rcs = .ok d)
    (h4 : s.cpl < rpl rcs) (h5 : s.farStackOk n (4 * n.bytes + srcBytes i.imm) = true)
    (h6 : s.readSelector s.stackAddressSize (3 * n.bytes + srcBytes i.imm) n = .ok rss)
    (h7 : s.outerStackPasses rcs rss d ss) :
    exec i s = finish (do
      require (s.farTargetOk ip d) (.gp 0)
      let cs ← loadSeg rcs d
      let esp ← s.stackRead s.stackAddressSize (2 * n.bytes + srcBytes i.imm) n
      requireAccessed ss
      s.outerLevel { n := n, imm := i.imm, a := s.stackAddressSize, ip := ip, rcs := rcs, d := d } cs esp ss) := by
  rw [exec_outer hf hr hs h1 h2 h3 h4 h5 h6, outerStackPasses_run h7, ok_bind]

end Sys2Proof.Laws
end

