-- ==== Sys2Proof/Laws/PerInstr.lean ====
section
/-! SUPPORT. Statements about every instruction as syntax, one lemma per constructor. -/

namespace Sys2Proof.Laws.EncodeLength

/-- R75: an encoding has one byte per prefix and 1 byte more in format ZO, 3 more in format I; no form is longer than the
decoder's window. -/
def Statement (i : Instr) : Prop :=
  (encode i).length
      = (if i.prefixes.opSize then 1 else 0) + (if i.prefixes.rex.isSome then 1 else 0)
        + (if i.imm.isSome then 3 else 1)
    ∧ (encode i).length ≤ maxInstrBytes

theorem retNear (p : Prefixes) : Statement (.retNear p) := by
  obtain ⟨o, r⟩ := p
  cases o <;> cases r <;> exact ⟨rfl, by simp [encode, encodePrefixes, maxInstrBytes]⟩

theorem retFar (p : Prefixes) : Statement (.retFar p) := by
  obtain ⟨o, r⟩ := p
  cases o <;> cases r <;> exact ⟨rfl, by simp [encode, encodePrefixes, maxInstrBytes]⟩

theorem retNearImm16 (p : Prefixes) (imm : BitVec 16) : Statement (.retNearImm16 p imm) := by
  obtain ⟨o, r⟩ := p
  cases o <;> cases r <;> exact ⟨rfl, by simp [encode, encodeImm, encodePrefixes, maxInstrBytes]⟩

theorem retFarImm16 (p : Prefixes) (imm : BitVec 16) : Statement (.retFarImm16 p imm) := by
  obtain ⟨o, r⟩ := p
  cases o <;> cases r <;> exact ⟨rfl, by simp [encode, encodeImm, encodePrefixes, maxInstrBytes]⟩

end Sys2Proof.Laws.EncodeLength
end

