-- ==== Sys2Proof/Tests/Slice0.lean ====
section
/-! SUPPORT. Tests: decoding, a few vectors of spec/95_test_vectors.md (each names its vector), and for every obligation
with hypotheses a state that meets them (`witness_…`). -/

namespace Sys2Proof.Tests

open Sys2Proof.Machine

/-! ## WellFormed refuses -/

theorem test_rex_outside_64bit_mode_is_ill_formed :
    (Instr.retNear { opSize := false, rex := some 8 }).wellFormed false = false ∧
    (Instr.retFarImm16 { opSize := false, rex := some 0 } 4).wellFormed false = false := by decide

theorem test_opsize_near_in_64bit_mode_is_ill_formed :
    (Instr.retNear { opSize := true, rex := none }).wellFormed true = false ∧
    (Instr.retNearImm16 { opSize := true, rex := some 8 } 4).wellFormed true = false := by decide

theorem test_well_formed :
    (Instr.retNear { opSize := true, rex := none }).wellFormed false = true ∧
    (Instr.retFar { opSize := true, rex := some 8 }).wellFormed true = true := by decide

/-! ## Decoding, bit by bit: `1100 f 01 z` (R71, R72; the opcode byte's bit 3 is far, bit 0 is no operand) -/

theorem test_decode_retNear :
    decode false [0b11000011#8] = .ok (.retNear { opSize := false, rex := none }, []) := by decide

theorem test_decode_retFar :
    decode false [0b11001011#8] = .ok (.retFar { opSize := false, rex := none }, []) := by decide

/-- VE3: the low byte comes first. -/
theorem test_decode_retNearImm16 :
    decode false [0b11000010#8, 0b00110100#8, 0b00010010#8, 0b11111111#8]
      = .ok (.retNearImm16 { opSize := false, rex := none } 0b0001001000110100#16, [0b11111111#8]) := by decide

/-- VE4. -/
theorem test_decode_retFarImm16 :
    decode true [0b11001010#8, 0b00000000#8, 0b00000001#8]
      = .ok (.retFarImm16 { opSize := false, rex := none } 0b0000000100000000#16, []) := by decide

/-- VE10, VE11: REX is `0100WRXB`, `66` before it. -/
theorem test_decode_prefixes :
    decode true [0b01001000#8, 0b11001011#8] = .ok (.retFar { opSize := false, rex := some 0b1000#4 }, []) ∧
    decode true [0b01100110#8, 0b01000101#8, 0b11001011#8]
      = .ok (.retFar { opSize := true, rex := some 0b0101#4 }, []) := by decide

/-- VE14 to VE18. -/
theorem test_decode_refuses :
    decode true [0x66, 0xC3] = .error .prefixNotAdmitted ∧ decode true [0x48, 0x66, 0xCB] = .error .prefixNotAdmitted ∧
    decode false [0xF3, 0xC3] = .error .prefixNotAdmitted ∧ decode false [0x48, 0xC3] = .error .notARet ∧
    decode true [0xC9] = .error .notARet ∧ decode true [0xCF] = .error .notARet ∧
    decode false [0xC2, 0x08] = .error .truncated := by decide

/-- Prefixed bytes of other instructions (R79) beside prefixed `RET` opcodes (R78). -/
theorem test_decode_tells_other_instructions_from_prefixed_ret :
    decode true [0xF3, 0x90] = .error .notARet ∧ decode false [0xF0, 0x0F, 0xB1] = .error .notARet ∧
    decode true [0x66, 0x48, 0x0F] = .error .notARet ∧ decode false [0x2E, 0xF3, 0xCA] = .error .prefixNotAdmitted ∧
    decode true [0xF3, 0x48, 0xC3] = .error .prefixNotAdmitted ∧
    decode true [0x66, 0xC2] = .error .prefixNotAdmitted ∧ decode false [0x66, 0xC2] = .error .truncated := by decide

theorem test_decodeTableWord :
    decodeTableWord 8 0xC3 = some (.retNear { opSize := false, rex := none }) ∧
    decodeTableWord 24 0x1234C2 = some (.retNearImm16 { opSize := false, rex := none } 0x1234) ∧
    decodeTableWord 8 0xCB = some (.retFar { opSize := false, rex := none }) ∧
    decodeTableWord 24 0x0100CA = some (.retFarImm16 { opSize := false, rex := none } 0x0100) := by decide

/-! ## The contexts of 95 section 2.0 -/

/-- Memory with little-endian values written: (address, bytes, value). -/
def cells (l : List (Nat × Nat × Nat)) : Memory := l.foldr (fun c m => Memory.writeLE m 64 c.2.1 c.1 c.2.2) []

def codeSeg (dpl : BitVec 2) (l : Bool) : Descriptor :=
  { Descriptor.resetCode with limit := 0xFFFFFFFF, dpl := dpl, l := l, db := !l }

def dataSeg (dpl : BitVec 2) : Descriptor := { Descriptor.resetData with limit := 0xFFFFFFFF, dpl := dpl, db := true }

/-- Context A: flat 32-bit protected mode, level 0. -/
def stateA (sp : Nat) (m : List (Nat × Nat × Nat)) : State :=
  { State.reset with
    rip := 0x100
    rsp := StackPointer.ofBits (BitVec.ofNat 64 sp)
    cs := { sel := 0x8, hidden := some (codeSeg 0 false) }
    ss := { sel := 0x10, hidden := some (dataSeg 0) }
    sys := { SysRegs.reset with cr0 := 1 }
    mem := cells m }

/-- Context B: real-address mode. -/
def stateB (sp : Nat) (m : List (Nat × Nat × Nat)) : State :=
  { State.reset with
    rip := 0x50
    rsp := StackPointer.ofBits (BitVec.ofNat 64 sp)
    cs := { sel := 0x1000, hidden := some { Descriptor.resetCode with base := 0x10000 } }
    ss := { sel := 0x2000, hidden := some { Descriptor.resetData with base := 0x20000 } }
    mem := cells m }

/-- Context P: context A with the global table at 8000h; the descriptors used stand in `m`. -/
def stateP (sp : Nat) (m : List (Nat × Nat × Nat)) : State :=
  { stateA sp m with sys := { SysRegs.reset with cr0 := 1, gdtr := { base := 0x8000, limit := 0x57 } } }

/-- Context Q: context P at level 3. -/
def stateQ (sp : Nat) (m : List (Nat × Nat × Nat)) : State :=
  { stateP sp m with
    cpl := 3
    cs := { sel := 0x1B, hidden := some (codeSeg 3 false) }
    ss := { sel := 0x23, hidden := some (dataSeg 3) } }

/-- Context L: 64-bit mode with the global table at 8000h. -/
def stateL (sp : Nat) (m : List (Nat × Nat × Nat)) : State :=
  { stateA sp m with
    cs := { sel := 0x8, hidden := some (codeSeg 0 true) }
    sys := { SysRegs.reset with cr0 := 1, efer := 0x400, gdtr := { base := 0x8000, limit := 0x3F } } }

/-- Shadow stacks enabled at every level. -/
def withShadow (ssp pl3 : Word) (s : State) : State :=
  { s with ssp := ssp, sys := { s.sys with cr4 := 0x800000, uCet := 1, sCet := 1, pl3Ssp := pl3 } }

/-- No prefix; `66`; REX.W. -/
def plain : Prefixes := { opSize := false, rex := none }
def p66 : Prefixes := { opSize := true, rex := none }
def pW : Prefixes := { opSize := false, rex := some 8 }

/-- The outcome is a next state with a property. -/
def nextIs (p : State → Bool) (o : Host.Outcome State Fault Refusal) : Bool :=
  match o with
  | .next t => p t
  | .fault _ => false
  | .refused _ => false

/-- The fault of an outcome. -/
def faultOf (o : Host.Outcome State Fault Refusal) : Option Fault :=
  match o with
  | .next _ => none
  | .fault f => some f
  | .refused _ => none

/-- The refusal of an outcome. -/
def refusalOf (o : Host.Outcome State Fault Refusal) : Option Refusal :=
  match o with
  | .next _ => none
  | .fault _ => none
  | .refused r => some r

theorem exists_next {p : State → Bool} {o : Host.Outcome State Fault Refusal} (h : nextIs p o = true) :
    ∃ t, o = .next t ∧ p t = true := by
  cases o with
  | next t => exact ⟨t, rfl, h⟩
  | fault f => exact absurd h (by simp [nextIs])
  | refused r => exact absurd h (by simp [nextIs])

/-! ## Steps -/

/-- VN1. -/
theorem test_retNear :
    nextIs (fun t => t.rip == 0x12345678 && t.rsp.esp == 0x1004)
      (step (stateA 0x1000 [(0x100, 1, 0xC3), (0x1000, 4, 0x12345678)])) = true := by decide

/-- VN21. -/
theorem test_retNear_mismatch :
    faultOf (exec (.retNear plain)
      (withShadow 0x90000 0 (stateA 0x1000 [(0x1000, 4, 0x12345678), (0x90000, 4, 0x12345679)])))
        = some (.cp .nearRet) := by decide

/-- VN3: the operand is not sign-extended. -/
theorem test_retNearImm16 :
    nextIs (fun t => t.rip == 0x12345678 && t.rsp.esp == 0x11003)
      (exec (.retNearImm16 plain 0xFFFF) (stateA 0x1000 [(0x1000, 4, 0x12345678)])) = true := by decide

/-- VN15: 64-bit mode. -/
theorem test_retNearImm16_64 :
    nextIs (fun t => t.rip == 0x401000 && t.rsp.bits == 0x00007FFFFFFFF018)
      (exec (.retNearImm16 plain 0x10) (stateL 0x00007FFFFFFFF000 [(0x00007FFFFFFFF000, 8, 0x401000)])) = true := by
  decide

/-- VR1. -/
theorem test_retFar_real :
    nextIs (fun t => t.rip == 0x1234 && t.cs.sel == 0x3000 && t.cs.desc.base == 0x30000 && t.cs.desc.limit == 0xFFFF
        && t.rsp.lo == 0x104)
      (exec (.retFar plain) (stateB 0x100 [(0x20100, 4, 0x30001234)])) = true := by decide

/-- VP32: level 0 to level 1 with shadow stacks; the token at 90018h is freed. -/
theorem test_retFar_outer :
    nextIs (fun t => t.rip == 0x5000 && t.cs.sel == 0x49 && t.cpl == 1 && t.ss.sel == 0x51 && t.rsp.esp == 0x6000
        && t.ssp == 0x91000 && t.mem.readLE 32 8 0x90018 == some 0x90018)
      (exec (.retFar plain) (withShadow 0x90000 0 (stateP 0x2000 [(0x2000, 8, 0x0000004900005000),
        (0x2008, 8, 0x0000005100006000), (0x8048, 16, 0x00CFB3000000FFFF00CFBB000000FFFF), (0x90000, 8, 0x91000),
        (0x90008, 8, 0x5000), (0x90010, 8, 0x49), (0x90018, 8, 0x90019)]))) = true := by decide

/-- VL3: 64-bit items, only 16 bits of the selector are used. -/
theorem test_retFarImm16_64 :
    nextIs (fun t => t.rip == 0x00007FFF00401000 && t.cs.sel == 8 && t.rsp.bits == 0x3030)
      (exec (.retFarImm16 pW 0x20) (stateL 0x3000 [(0x3000, 8, 0x00007FFF00401000), (0x3008, 8, 0x0000DEADBEEF0008),
        (0x8008, 8, 0x00AF9B000000FFFF)])) = true := by decide

/-- VP21: the eight parameter bytes lie between the two pairs of items. -/
theorem test_retFarImm16_outer :
    nextIs (fun t => t.rip == 0x401000 && t.cpl == 3 && t.ss.sel == 0x23 && t.rsp.esp == 0x7FFFF008
        && t.ds == { sel := 0, hidden := none } && t.es.sel == 0)
      (exec (.retFarImm16 plain 8) (stateP 0x2000 [(0x2000, 8, 0x0000001B00401000), (0x2010, 8, 0x000000237FFFF000),
        (0x8018, 16, 0x00CFF3000000FFFF00CFFB000000FFFF)])) = true := by decide

/-- 93 U1: an addition in place to ESP, and to SP at its wrap, keeps the bits above. -/
theorem test_addSp_keeps_the_bits_above_the_view :
    ((stateA 0x500001000 []).addSp .w32 4).rsp.bits = 0x500001004 ∧
    ((stateA 0x5FFFFFFFC []).addSp .w32 4).rsp.bits = 0x500000000 ∧
    ((stateA 0x51234FFFE []).addSp .w16 4).rsp.bits = 0x512340002 := by decide

/-! ## Witnesses: encoding and the step -/

theorem witness_DecodeOfEncodeIsTheInstruction :
    (Instr.retFarImm16 { opSize := true, rex := some 15 } 0xFFFF).wellFormed true = true ∧
    (Instr.retNear p66).wellFormed false = true := by decide

theorem witness_DecodedBytesAreTheEncoding :
    decode true [0x66, 0x4F, 0xCA, 0xFF, 0xFF, 0xC3]
      = .ok (.retFarImm16 { opSize := true, rex := some 15 } 0xFFFF, [0xC3]) := by decide

/-- `66 F3 C3`, `F3 66 C3`, `66 66 C3` and `F0 C2` in every mode; `48 66 CB` (VE15), `F3 48 C3`, `48 49 CB`, `66 48 C3` and
`66 C2` in 64-bit mode. -/
theorem witness_PrefixesNotAdmittedAreRefused_ret :
    (∀ is64 : Bool, ∀ ps ∈ [[0x66#8, 0xF3#8], [0xF3#8, 0x66#8], [0x66#8, 0x66#8], [0xF0#8]],
      (∀ p ∈ ps, prefixIn is64 p) ∧ ¬ prefixesAdmitted is64 ps 0xC3#8) ∧
    (∀ c ∈ [([0x48#8, 0x66#8], 0xCB#8), ([0xF3#8, 0x48#8], 0xC3#8), ([0x48#8, 0x49#8], 0xCB#8),
        ([0x66#8, 0x48#8], 0xC3#8), ([0x66#8], 0xC2#8)],
      (∀ p ∈ c.1, prefixIn true p) ∧ c.2 ∈ [0xC2#8, 0xC3#8, 0xCA#8, 0xCB#8] ∧ ¬ prefixesAdmitted true c.1 c.2) :=
  ⟨by decide, by decide⟩

/-- `66 F3 90` and `C9` in every mode; `48 90`, and each end of the bytes that are no prefix, in 64-bit mode. -/
theorem witness_PrefixesNotAdmittedAreRefused_other :
    (∀ is64 : Bool, ∀ p ∈ [0x66#8, 0xF3#8], prefixIn is64 p) ∧ prefixIn true 0x48#8 ∧
    (∀ is64 : Bool, ∀ op ∈ [0x90#8, 0xC9#8, 0x3F#8, 0x50#8],
      op ∉ [0xC2#8, 0xC3#8, 0xCA#8, 0xCB#8] ∧ ¬ prefixIn is64 op) := by decide

/-- Bytes at 100h, where context A fetches. -/
def stepA (n v : Nat) : State := stateA 0x1000 [(0x100, n, v)]

theorem witness_StepExecutesTheDecodedInstruction :
    (stepA 3 0x0008C2).cs.hidden.isSome = true ∧
    decode (stepA 3 0x0008C2).in64 (stepA 3 0x0008C2).fetchWindow = .ok (.retNearImm16 plain 8, []) := by decide

/-- A byte that is none of the four forms, and one behind a prefix; a prefix not admitted; nothing; a window of
prefixes. -/
theorem witness_StepRefusesWhatIsNotARet :
    (stepA 1 0xC9).cs.hidden.isSome = true ∧
    decode (stepA 1 0xC9).in64 (stepA 1 0xC9).fetchWindow = .error .notARet ∧
    (stepA 2 0xC3F0).cs.hidden.isSome = true ∧
    decode (stepA 2 0xC3F0).in64 (stepA 2 0xC3F0).fetchWindow = .error .prefixNotAdmitted ∧
    decode (stepA 2 0x90F3).in64 (stepA 2 0x90F3).fetchWindow = .error .notARet ∧
    (stepA 0 0).cs.hidden.isSome = true ∧
    decode (stepA 0 0).in64 (stepA 0 0).fetchWindow = .error .truncated ∧
    (stepA 0 0).fetchWindow.length < fetchWindowBytes ∧
    (let s := stepA 15 0x666666666666666666666666666666;
      s.cs.hidden.isSome = true ∧ decode s.in64 s.fetchWindow = .error .truncated ∧
        s.fetchWindow.length = fetchWindowBytes) := by decide

/-- `CS.D == 1` in context A and 0 in context B, each without and with `66`; 64-bit mode. -/
theorem witness_OperandSizesThatArise :
    (stateL 0 []).operandSize true pW = .ok .w64 ∧
    ((stateA 0 []).in64 = false ∧ (stateA 0 []).cs.desc.db = true ∧ (stateB 0 []).in64 = false ∧
      (stateB 0 []).cs.desc.db = false ∧ p66.rex = none ∧ p66.opSize = true ∧ plain.rex = none ∧
      plain.opSize = false) ∧
    ((stateL 0 []).in64 = true ∧ (Instr.retNear pW).isFar = false ∧ pW.opSize = false) ∧
    ((Instr.retFar pW).isFar = true ∧ pW.rex = some 8 ∧ (8 : BitVec 4).getLsbD 3 = true ∧
      (7 : BitVec 4).getLsbD 3 = false) := by decide

/-- The two prefixes and the `D` bit change the operand size as R76's table says. -/
theorem test_operandSize :
    (stateA 0 []).operandSize false plain = .ok .w32 ∧ (stateA 0 []).operandSize true p66 = .ok .w16 ∧
    (stateB 0 []).operandSize false plain = .ok .w16 ∧ (stateB 0 []).operandSize true p66 = .ok .w32 ∧
    (stateL 0 []).operandSize true p66 = .ok .w16 ∧
    (stateL 0 []).operandSize true { opSize := true, rex := some 8 } = .ok .w64 := by decide

/-! ## Witnesses: the machine as a whole.  A near return in flat protected mode, a far return in real-address mode, one
to the same level in 64-bit mode, and one to an outer level with a token freed (VN1, VR1, VL1, VP28) -/

def nearA : State := stateA 0x1000 [(0x100, 1, 0xC3), (0x1000, 4, 0x12345678)]

def farB : State := stateB 0x100 [(0x10050, 1, 0xCB), (0x20100, 4, 0x30001234)]

def sameL : State := stateL 0x3000 [(0x100, 1, 0xCB), (0x3000, 8, 0x0000000800401000), (0x8008, 8, 0x00AF9B000000FFFF)]

def sameP : State := stateP 0x2000 [(0x100, 1, 0xCB), (0x2000, 8, 0x0000000800001000), (0x8008, 8, 0x00CF9B000000FFFF)]

def outerP : State :=
  withShadow 0x90000 0xA0000 { stateP 0x2000 [(0x100, 1, 0xCB), (0x2000, 8, 0x0000001B00401000),
      (0x2008, 8, 0x000000237FFFF000), (0x8018, 16, 0x00CFF3000000FFFF00CFFB000000FFFF), (0x90000, 8, 0x90001)] with
    ds := { sel := 0x10, hidden := some (dataSeg 0) }
    es := { sel := 0x23, hidden := some (dataSeg 3) }
    fs := { sel := 3, hidden := none }
    gs := { sel := 0x2B, hidden := some { codeSeg 0 false with ec := true } } }

/-- VL10: 64-bit mode to level 3, no shadow stack. -/
def outerL : State :=
  { stateL 0x3000 [(0x3000, 8, 0x401000), (0x3008, 8, 0x2B), (0x3010, 8, 0x00007FFFFFFFE000), (0x3018, 8, 0x23),
      (0x8020, 16, 0x00AFFB000000FFFF00CFF3000000FFFF)] with
    ds := { sel := 0x10, hidden := some (dataSeg 0) }
    es := { sel := 0, hidden := none } }

theorem witness_StepKeepsMemoryCanonical :
    outerP.mem.wf = true ∧ ∃ t, step outerP = .next t ∧ (t.mem.readLE 32 8 0x90000 == some 0x90000) = true :=
  ⟨by decide, exists_next (p := fun t => t.mem.readLE 32 8 0x90000 == some 0x90000) (by decide)⟩

theorem witness_StepKeepsTheInvariant :
    (nearA.inv = true ∧ ∃ t, step nearA = .next t ∧ (t.cpl == 0) = true) ∧
    (farB.inv = true ∧ ∃ t, step farB = .next t ∧ (t.cs.sel == 0x3000) = true) ∧
    (sameL.inv = true ∧ ∃ t, step sameL = .next t ∧ (t.cs.sel == 8) = true) ∧
    (outerP.inv = true ∧ ∃ t, step outerP = .next t ∧ (t.cpl == 3) = true) :=
  ⟨⟨by decide, exists_next (p := fun t => t.cpl == 0) (by decide)⟩,
   ⟨by decide, exists_next (p := fun t => t.cs.sel == 0x3000) (by decide)⟩,
   ⟨by decide, exists_next (p := fun t => t.cs.sel == 8) (by decide)⟩,
   ⟨by decide, exists_next (p := fun t => t.cpl == 3) (by decide)⟩⟩

theorem witness_StepKeepsSspWordAligned :
    outerP.sspWordAligned = true ∧ ∃ t, step outerP = .next t ∧ (t.ssp == 0xA0000) = true :=
  ⟨by decide, exists_next (p := fun t => t.ssp == 0xA0000) (by decide)⟩

theorem witness_FlagsAreNotWrittenAndOnlyVmIsRead :
    State.vm { outerP with eflags := 0xFFFDFFFF } = outerP.vm ∧
    ∃ t, exec (.retFar plain) outerP = .next t ∧ (t.eflags == 2) = true :=
  ⟨by decide, exists_next (p := fun t => t.eflags == 2) (by decide)⟩

theorem witness_OtherGeneralRegistersAreUntouched :
    ∃ t, exec (.retFar plain) outerP = .next t ∧ (t.gprs == GeneralRegs.reset) = true :=
  exists_next (p := fun t => t.gprs == GeneralRegs.reset) (by decide)

theorem witness_SystemRegistersAreNeverWritten :
    ∃ t, exec (.retFar plain) outerP = .next t ∧ (t.sys.pl3Ssp == 0xA0000) = true :=
  exists_next (p := fun t => t.sys.pl3Ssp == 0xA0000) (by decide)

/-- The level is changed; and 64-bit mode is left for compatibility mode (VL6). -/
theorem witness_ReturnNeverGainsPrivilege :
    (∃ t, exec (.retFar plain) outerP = .next t ∧ (t.cpl != outerP.cpl) = true) ∧ outerP.segmented = true ∧
    outerP.ready (.retFar plain) .w32 ∧
    outerP.readTarget outerP.stackAddressSize .w32 = .ok (0x401000, 0x1B) ∧
    (∃ t, exec (.retFar pW) (stateL 0x3000 [(0x3000, 8, 0x401000), (0x3008, 8, 0x18), (0x8018, 8, 0x00CF9B000000FFFF)])
      = .next t ∧ (!t.in64) = true) :=
  ⟨exists_next (p := fun t => t.cpl != outerP.cpl) (by decide), by decide, by decide, by decide,
   exists_next (p := fun t => !t.in64) (by decide)⟩

/-- Each of the four reasons for which memory stays, and a byte outside the token. -/
theorem witness_MemoryChangesOnlyInTheFreedToken :
    ((Instr.retNear plain).isFar = false ∧ ∃ t, exec (.retNear plain) nearA = .next t ∧ (t.rip == 0x12345678) = true) ∧
    (farB.realOrV86 = true ∧ ∃ t, exec (.retFar plain) farB = .next t ∧ (t.rip == 0x1234) = true) ∧
    (∃ t, exec (.retFar plain) sameL = .next t ∧ (t.cpl == sameL.cpl) = true) ∧
    (outerL.shadowStackEnabled outerL.cpl = false ∧ ∃ t, exec (.retFar pW) outerL = .next t ∧ (t.cpl == 3) = true) ∧
    (∀ j, j < 8 → 0x90008 ≠ ((outerP.tokenAddress 3).toNat + j) % 2 ^ outerP.linearBits) :=
  ⟨⟨rfl, exists_next (p := fun t => t.rip == 0x12345678) (by decide)⟩,
   ⟨by decide, exists_next (p := fun t => t.rip == 0x1234) (by decide)⟩,
   exists_next (p := fun t => t.cpl == sameL.cpl) (by decide),
   ⟨by decide, exists_next (p := fun t => t.cpl == 3) (by decide)⟩, by decide⟩

theorem witness_SameLevelReturnsKeepTheOtherSegments :
    (∃ t, exec (.retNear plain) nearA = .next t ∧ (t.cpl == nearA.cpl) = true) ∧
    (∃ t, exec (.retFar plain) sameL = .next t ∧ (t.cpl == sameL.cpl) = true) :=
  ⟨exists_next (p := fun t => t.cpl == nearA.cpl) (by decide), exists_next (p := fun t => t.cpl == sameL.cpl) (by decide)⟩

/-- VN6, VR8, VP6, VP25 with VP9. -/
theorem witness_ExceptionsOfEachForm :
    faultOf (exec (.retNear plain) (stateA 0xFFFFFFFD [])) = some (.ss 0) ∧
    (faultOf (exec (.retFar plain) (stateB 0xFFFD [])) = some (.ss 0) ∧ (stateB 0xFFFD []).realOrV86 = true) ∧
    faultOf (exec (.retFar plain) (stateQ 0x2000 [(0x2000, 8, 0x0000000800001000), (0x8008, 8, 0x00CF9B000000FFFF)]))
      = some (.gp 8) ∧
    faultOf (exec (.retFar plain) (stateQ 0x2000 [(0x2000, 8, 0x0000003300001000), (0x8030, 8, 0x00CF7B000000FFFF)]))
      = some (.np 0x30) := by decide

/-- Protected mode with a stack of `SS.B == 1`; real-address mode with one of `SS.B == 0`. -/
theorem witness_ZeroOperandIsNoOperand :
    sameP.segmented = true ∧ sameP.ss.desc.db = true ∧ farB.segmented = false ∧ farB.ss.desc.db = false := by decide

/-! ## Witnesses: near return -/

/-- VN8 (the limit itself is within), VN9 (16-bit stack, wrap), VN14 (64-bit mode). -/
theorem witness_NearReturnCompletes :
    (nearA.ready (.retNear plain) .w32 ∧ nearA.nearStackOk nearA.stackAddressSize .w32 = true ∧
      nearA.stackRead nearA.stackAddressSize 0 .w32 = .ok 0x12345678 ∧ nearA.nearTargetOk .w32 0x12345678 = true ∧
      nearA.shadowStackEnabled nearA.cpl = false) ∧
    ((stateB 0xFFFE [(0x2FFFE, 2, 0xFFFF)]).ready (.retNearImm16 plain 0xFFFF) .w16 ∧
      (stateB 0xFFFE [(0x2FFFE, 2, 0xFFFF)]).nearStackOk .w16 .w16 = true ∧
      (stateB 0xFFFE [(0x2FFFE, 2, 0xFFFF)]).stackAddressSize = .w16 ∧
      (stateB 0xFFFE [(0x2FFFE, 2, 0xFFFF)]).stackRead .w16 0 .w16 = .ok 0xFFFF ∧
      (stateB 0xFFFE [(0x2FFFE, 2, 0xFFFF)]).nearTargetOk .w16 0xFFFF = true) ∧
    ((stateL 0x00007FFFFFFFFFF8 [(0x00007FFFFFFFFFF8, 8, 0x00007FFFFFFFFFFF)]).ready (.retNear plain) .w64 ∧
      (stateL 0x00007FFFFFFFFFF8 [(0x00007FFFFFFFFFF8, 8, 0x00007FFFFFFFFFFF)]).nearStackOk .w64 .w64 = true ∧
      (stateL 0x00007FFFFFFFFFF8 [(0x00007FFFFFFFFFF8, 8, 0x00007FFFFFFFFFFF)]).stackRead .w64 0 .w64
        = .ok 0x00007FFFFFFFFFFF ∧
      (stateL 0x00007FFFFFFFFFF8 [(0x00007FFFFFFFFFF8, 8, 0x00007FFFFFFFFFFF)]).nearTargetOk .w64 0x00007FFFFFFFFFFF
        = true) := by decide

/-- VN19, VN21: the shadow stack agrees, or does not. -/
def shadowA (v : Nat) : State := withShadow 0x90000 0 (stateA 0x1000 [(0x1000, 4, 0x12345678), (0x90000, 4, v)])

theorem witness_NearReturnCompletes_shadow :
    (shadowA 0x12345678).ready (.retNear plain) .w32 ∧
    (shadowA 0x12345678).nearStackOk (shadowA 0x12345678).stackAddressSize .w32 = true ∧
    (shadowA 0x12345678).stackRead (shadowA 0x12345678).stackAddressSize 0 .w32 = .ok 0x12345678 ∧
    (shadowA 0x12345678).nearTargetOk .w32 0x12345678 = true ∧
    (shadowA 0x12345678).shadowStackEnabled (shadowA 0x12345678).cpl = true ∧
    (shadowA 0x12345678).memRead .shadowRead (shadowA 0x12345678).ssp (nearShadowBytes .w32) = .ok 0x12345678 := by
  decide

/-- VN10; VN7 one above the limit; VN21. -/
theorem witness_NearReturnFaultsInOrder :
    ((stateB 0xFFFF []).ready (.retNear plain) .w16 ∧
      (stateB 0xFFFF []).nearStackOk (stateB 0xFFFF []).stackAddressSize .w16 = false) ∧
    ((stateB 0x100 [(0x20100, 4, 0x10000)]).ready (.retNear p66) .w32 ∧
      (stateB 0x100 [(0x20100, 4, 0x10000)]).nearStackOk .w16 .w32 = true ∧
      (stateB 0x100 [(0x20100, 4, 0x10000)]).stackRead .w16 0 .w32 = .ok 0x10000 ∧
      (stateB 0x100 [(0x20100, 4, 0x10000)]).nearTargetOk .w32 0x10000 = false) ∧
    ((shadowA 0x12345679).ready (.retNear plain) .w32 ∧
      (shadowA 0x12345679).nearStackOk (shadowA 0x12345679).stackAddressSize .w32 = true ∧
      (shadowA 0x12345679).stackRead (shadowA 0x12345679).stackAddressSize 0 .w32 = .ok 0x12345678 ∧
      (shadowA 0x12345679).nearTargetOk .w32 0x12345678 = true ∧
      (shadowA 0x12345679).shadowStackEnabled (shadowA 0x12345679).cpl = true ∧
      (shadowA 0x12345679).memRead .shadowRead (shadowA 0x12345679).ssp (nearShadowBytes .w32) = .ok 0x12345679) := by
  decide

/-- VN10; VR8's limit with a near return; VN9; VN22 and VN23. -/
theorem witness_NearReturnAtOperandSize16 :
    ((stateB 0xFFFF []).ready (.retNear plain) .w16 ∧ (stateB 0xFFFF []).stackWithin .w16 2 = false) ∧
    (let s := { stateB 0xFFFE [(0x2FFFE, 2, 0x1000)] with
        cs := { sel := 0x1000, hidden := some { Descriptor.resetCode with base := 0x10000, limit := 0xFFF } } };
      s.ready (.retNear plain) .w16 ∧ s.stackWithin s.stackAddressSize 2 = true ∧
        s.stackRead s.stackAddressSize 0 .w16 = .ok 0x1000 ∧ s.codeWithin 0x1000 s.cs.desc = false ∧
        s.codeWithin 0xFFF s.cs.desc = true ∧ s.shadowStackEnabled s.cpl = false) ∧
    (let s := shadowA 0x5678;
      s.ready (.retNear p66) .w16 ∧ s.stackWithin s.stackAddressSize 2 = true ∧
        s.stackRead s.stackAddressSize 0 .w16 = .ok 0x5678 ∧ s.codeWithin 0x5678 s.cs.desc = true ∧
        s.shadowStackEnabled s.cpl = true ∧ s.memRead .shadowRead s.ssp 4 = .ok 0x5678) ∧
    (shadowA 0x12345678).memRead .shadowRead (shadowA 0x12345678).ssp 4 = .ok 0x12345678 :=
  ⟨by decide, by decide, by decide, by decide⟩

theorem witness_NearControlProtectionMeansMismatch :
    faultOf (exec (.retNear plain) (shadowA 0x12345679)) = some (.cp .nearRet) := by decide

/-- Another level with the same enable; and in context A with a shadow stack at every level. -/
theorem witness_NearReturnReadsNoDescriptorTable :
    (Instr.retNearImm16 plain 8).isFar = false ∧
    nearA.shadowStackEnabled 3 = nearA.shadowStackEnabled nearA.cpl ∧
    (shadowA 0x5678).shadowStackEnabled 2 = (shadowA 0x5678).shadowStackEnabled (shadowA 0x5678).cpl := by decide

/-! ## Witnesses: far return in real-address and virtual-8086 mode -/

/-- VR4 (wrap of SP) with a release; VR10 (virtual-8086 mode). -/
theorem witness_RealFarReturnCompletes :
    ((stateB 0xFFFC [(0x2FFFC, 4, 0x4000FFFF)]).ready (.retFarImm16 plain 4) .w16 ∧
      (stateB 0xFFFC [(0x2FFFC, 4, 0x4000FFFF)]).realOrV86 = true ∧
      (stateB 0xFFFC [(0x2FFFC, 4, 0x4000FFFF)]).stackAddressSize = .w16 ∧
      (stateB 0xFFFC [(0x2FFFC, 4, 0x4000FFFF)]).stackWithin .w16 4 = true ∧
      (stateB 0xFFFC [(0x2FFFC, 4, 0x4000FFFF)]).stackRead .w16 0 .w16 = .ok 0xFFFF ∧
      (stateB 0xFFFC [(0x2FFFC, 4, 0x4000FFFF)]).codeWithin 0xFFFF
        (stateB 0xFFFC [(0x2FFFC, 4, 0x4000FFFF)]).cs.desc = true ∧
      (stateB 0xFFFC [(0x2FFFC, 4, 0x4000FFFF)]).stackRead .w16 2 .w16 = .ok 0x4000 ∧
      (stateB 0xFFFC [(0x2FFFC, 4, 0x4000FFFF)]).ss.desc.db = false) ∧
    State.realOrV86 { farB with cpl := 3, eflags := 0x20002, sys := { farB.sys with cr0 := 1 } } = true := by decide

/-- VR5; VR9; VR11. -/
def bigB : State :=
  { stateB 0x100 [(0x20100, 4, 0x30001234)] with
    ss := { sel := 0x2000, hidden := some { Descriptor.resetData with base := 0x20000, db := true } } }

theorem witness_RealFarReturnStopsInOrder :
    ((stateB 0xFFFD []).ready (.retFar plain) .w16 ∧ (stateB 0xFFFD []).realOrV86 = true ∧
      (stateB 0xFFFD []).stackWithin (stateB 0xFFFD []).stackAddressSize 4 = false) ∧
    ((stateB 0x100 [(0x20100, 8, 0x10000)]).ready (.retFar p66) .w32 ∧
      (stateB 0x100 [(0x20100, 8, 0x10000)]).stackWithin .w16 8 = true ∧
      (stateB 0x100 [(0x20100, 8, 0x10000)]).stackRead .w16 0 .w32 = .ok 0x10000 ∧
      (stateB 0x100 [(0x20100, 8, 0x10000)]).codeWithin 0x10000 (stateB 0x100 [(0x20100, 8, 0x10000)]).cs.desc
        = false) ∧
    (bigB.ready (.retFarImm16 plain 0) .w16 ∧ bigB.realOrV86 = true ∧ bigB.stackWithin bigB.stackAddressSize 4 = true ∧
      bigB.stackRead bigB.stackAddressSize 0 .w16 = .ok 0x1234 ∧ bigB.codeWithin 0x1234 bigB.cs.desc = true ∧
      bigB.stackRead bigB.stackAddressSize 2 .w16 = .ok 0x3000 ∧ (Instr.retFarImm16 plain 0).imm.isSome = true ∧
      bigB.ss.desc.db = true) := by decide

/-- An unreal-mode stack: VR5 and the row of R99 for SP equal to FFFFh, with SS.limit 1FFFFh. -/
def bigStackB (sp : Nat) : State :=
  { stateB sp [] with
    ss := { sel := 0x2000, hidden := some { Descriptor.resetData with base := 0x20000, limit := 0x1FFFF } } }

theorem witness_ItemsPastTheTopAreStackFault :
    ((bigStackB 0xFFFD).ready (.retFar plain) .w16 ∧ (bigStackB 0xFFFD).stackAddressSize ≠ .w64 ∧
      2 ^ (bigStackB 0xFFFD).stackAddressSize.bits
        < ((bigStackB 0xFFFD).sp (bigStackB 0xFFFD).stackAddressSize).toNat + 4) ∧
    ((bigStackB 0xFFFF).ready (.retNear plain) .w16 ∧
      2 ^ (bigStackB 0xFFFF).stackAddressSize.bits
        < ((bigStackB 0xFFFF).sp (bigStackB 0xFFFF).stackAddressSize).toNat + 2) := by decide

/-- Rows of R99 and R119: the last item that is within, and the first that is not, at any limit of SS. -/
theorem test_top_of_a_16_bit_stack :
    (bigStackB 0xFFFC).stackWithin .w16 4 = true ∧ (bigStackB 0xFFFE).stackWithin .w16 2 = true ∧
    faultOf (exec (.retFar plain) (bigStackB 0xFFFD)) = some (.ss 0) ∧
    faultOf (exec (.retNear plain) (bigStackB 0xFFFF)) = some (.ss 0) := by decide

theorem witness_RealFarReturnReadsNoPrivilegeState :
    (Instr.retFar plain).isFar = true ∧ farB.realOrV86 = true := by decide

/-! ## Witnesses: far return in protected and IA-32e mode.  The premises that several statements share -/

abbrev Target (i : Instr) (s : State) (n : Width) (ip : Word) (rcs : Selector) : Prop :=
  i.isFar = true ∧ s.ready i n ∧ s.segmented = true ∧ s.farStackOk n (2 * n.bytes) = true ∧
    s.readTarget s.stackAddressSize n = .ok (ip, rcs)

abbrev Same (i : Instr) (s : State) (n : Width) (ip : Word) (rcs : Selector) (d : Descriptor) : Prop :=
  Target i s n ip rcs ∧ s.checkCodeSegment rcs = .ok d ∧ ¬ s.cpl < rpl rcs

abbrev Outer (i : Instr) (s : State) (n : Width) (ip : Word) (rcs rss : Selector) (d : Descriptor) : Prop :=
  Target i s n ip rcs ∧ s.checkCodeSegment rcs = .ok d ∧ s.cpl < rpl rcs ∧
    s.farStackOk n (4 * n.bytes + srcBytes i.imm) = true ∧
    s.readSelector s.stackAddressSize (3 * n.bytes + srcBytes i.imm) n = .ok rss

/-- Context P with `ip = 1000h`, a code selector, and one descriptor at an address. -/
def targetP (sel at' desc : Nat) : State := stateP 0x2000 [(0x2000, 4, 0x1000), (0x2004, 4, sel), (at', 8, desc)]

/-- Context L, 64-bit items, with `ip = 401000h`, a code selector, and one descriptor at an address. -/
def targetL (sel at' desc : Nat) : State := stateL 0x3000 [(0x3000, 8, 0x401000), (0x3008, 8, sel), (at', 8, desc)]

/-- Context P to level 3 with a stack selector and its descriptor. -/
def stackP (sel at' desc : Nat) : State :=
  stateP 0x2000 [(0x2000, 8, 0x0000001B00401000), (0x2008, 4, 0x7FFFF000), (0x200C, 4, sel),
    (0x8018, 8, 0x00CFFB000000FFFF), (at', 8, desc)]

/-- Context L to 64-bit code at level 1 with a stack selector. -/
def stackL (sel : Nat) : State :=
  stateL 0x3000 [(0x3000, 8, 0x401000), (0x3008, 8, 0x39), (0x3010, 8, 0x00007FFFFFFFE000), (0x3018, 8, sel),
    (0x8038, 8, 0x00AFBB000000FFFF)]

/-- A stack segment limit for the data segment of level 0. -/
def withStackLimit (l : BitVec 32) (s : State) : State :=
  { s with ss := { sel := 0x10, hidden := some { dataSeg 0 with limit := l } } }

/-- VP12 and VP27 (one byte short), VL8. -/
theorem witness_FarStackOutsideIsStackFault :
    ((withStackLimit 0x2006 sameP).ready (.retFar plain) .w32 ∧ (withStackLimit 0x2006 sameP).segmented = true ∧
      (withStackLimit 0x2006 sameP).farStackOk .w32 8 = false) ∧
    ((stateL 0x00007FFFFFFFFFF1 []).ready (.retFar pW) .w64 ∧ (stateL 0x00007FFFFFFFFFF1 []).segmented = true ∧
      (stateL 0x00007FFFFFFFFFF1 []).farStackOk .w64 16 = false) ∧
    (Target (.retFar plain) (withStackLimit 0x200E outerP) .w32 0x401000 0x1B ∧
      (withStackLimit 0x200E outerP).checkCodeSegment 0x1B = .ok (codeSeg 3 false) ∧
      (withStackLimit 0x200E outerP).cpl < rpl 0x1B ∧ (withStackLimit 0x200E outerP).farStackOk .w32 16 = false) := by
  decide

/-- VP3: both ends of the null selectors. -/
theorem witness_NullCodeSelectorIsGeneralProtection :
    (Target (.retFar plain) (targetP 0 0x8000 0) .w32 0x1000 0 ∧ isNull 0 = true) ∧
    (Target (.retFarImm16 plain 8) (targetP 3 0x8000 0) .w32 0x1000 3 ∧ isNull 3 = true) := by decide

/-- VP4 (index 11 of a table of eleven); a descriptor address that is not canonical. -/
theorem witness_CodeSegmentTestsInOrder_table :
    (Target (.retFar plain) (targetP 0x58 0x8058 0) .w32 0x1000 0x58 ∧ isNull 0x58 = false ∧
      (targetP 0x58 0x8058 0).beyondLimit 0x58 = true) ∧
    (targetP 0x50 0x8050 0).beyondLimit 0x50 = false ∧
    (let s := { targetL 0x8 0 0 with sys := { SysRegs.reset with cr0 := 1, efer := 0x400, gdtr := ⟨0x7FFFFFFFFFF1, 0xF⟩ } };
      Target (.retFar pW) s .w64 0x401000 8 ∧ isNull 8 = false ∧ s.beyondLimit 8 = false ∧ s.ia32e = true ∧
        s.rangeCanonical (s.descAddr 8) 8 = false) := by decide

/-- VP5, VL5, VP6, a conforming segment of DPL 3 with RPL 0, VP8: one for each way of `#GP(selector)`. -/
theorem witness_CodeSegmentTestsInOrder_type :
    (Target (.retFar plain) (targetP 0x10 0x8010 0x00CF93000000FFFF) .w32 0x1000 0x10 ∧
      (targetP 0x10 0x8010 0x00CF93000000FFFF).beyondLimit 0x10 = false ∧
      (targetP 0x10 0x8010 0x00CF93000000FFFF).readDesc 0x10 = .ok (dataSeg 0) ∧
      ((dataSeg 0).s && (dataSeg 0).x) = false) ∧
    (Target (.retFar pW) (targetL 0x30 0x8030 0x00EF9B000000FFFF) .w64 0x401000 0x30 ∧
      (targetL 0x30 0x8030 0x00EF9B000000FFFF).rangeCanonical
        ((targetL 0x30 0x8030 0x00EF9B000000FFFF).descAddr 0x30) 8 = true ∧
      (targetL 0x30 0x8030 0x00EF9B000000FFFF).readDesc 0x30 = .ok { codeSeg 0 true with db := true }) ∧
    (rpl 0x8 < (stateQ 0 []).cpl ∧ isNull 0x8 = false) ∧
    (Target (.retFar plain) (targetP 0x28 0x8028 0x00CFFF000000FFFF) .w32 0x1000 0x28 ∧
      (targetP 0x28 0x8028 0x00CFFF000000FFFF).readDesc 0x28 = .ok { codeSeg 3 false with ec := true } ∧
      rpl 0x28 < (codeSeg 3 false).dpl) ∧
    (Target (.retFar plain) (targetP 0x18 0x8018 0x00CFFB000000FFFF) .w32 0x1000 0x18 ∧
      (targetP 0x18 0x8018 0x00CFFB000000FFFF).readDesc 0x18 = .ok (codeSeg 3 false) ∧
      (codeSeg 3 false).dpl ≠ rpl 0x18) := by decide

/-- VP9 at level 0: type and privilege pass, not present. -/
theorem witness_CodeSegmentTestsInOrder_present :
    Target (.retFar plain) (targetP 0x8 0x8008 0x00CF1B000000FFFF) .w32 0x1000 0x8 ∧ isNull 0x8 = false ∧
    (targetP 0x8 0x8008 0x00CF1B000000FFFF).beyondLimit 0x8 = false ∧
    (targetP 0x8 0x8008 0x00CF1B000000FFFF).readDesc 0x8 = .ok { codeSeg 0 false with p := false } ∧
    ¬ rpl 0x8 < (targetP 0x8 0x8008 0x00CF1B000000FFFF).cpl ∧ (codeSeg 0 false).dpl = rpl 0x8 := by decide

/-- VP26; a stack descriptor at an address that is not canonical; VP24 (type), VP23 (RPL), a DPL that differs; VP25. -/
theorem witness_StackSegmentTestsInOrder :
    (Outer (.retFar plain) (stackP 0x5B 0x8058 0) .w32 0x401000 0x1B 0x5B (codeSeg 3 false) ∧ isNull 0x5B = false ∧
      (stackP 0x5B 0x8058 0).beyondLimit 0x5B = true) ∧
    (let s := { stackL 0xD with sys := { (stackL 0xD).sys with ldtr := ⟨0x7FFFFFFFFFF1, 0xF⟩ } };
      Outer (.retFar pW) s .w64 0x401000 0x39 0xD (codeSeg 1 true) ∧ isNull 0xD = false ∧ s.beyondLimit 0xD = false ∧
        s.ia32e = true ∧ s.rangeCanonical (s.descAddr 0xD) 8 = false) ∧
    (Outer (.retFar plain) (stackP 0x1B 0x8020 0) .w32 0x401000 0x1B 0x1B (codeSeg 3 false) ∧
      (stackP 0x1B 0x8020 0).readDesc 0x1B = .ok (codeSeg 3 false) ∧ isNull 0x1B = false) ∧
    (Outer (.retFar plain) (stackP 0x20 0x8020 0x00CFF3000000FFFF) .w32 0x401000 0x1B 0x20 (codeSeg 3 false) ∧
      (stackP 0x20 0x8020 0x00CFF3000000FFFF).readDesc 0x20 = .ok (dataSeg 3) ∧ rpl 0x20 ≠ rpl 0x1B) ∧
    (Outer (.retFar plain) (stackP 0x13 0x8010 0x00CF93000000FFFF) .w32 0x401000 0x1B 0x13 (codeSeg 3 false) ∧
      (stackP 0x13 0x8010 0x00CF93000000FFFF).readDesc 0x13 = .ok (dataSeg 0) ∧ (dataSeg 0).dpl ≠ rpl 0x1B) ∧
    (Outer (.retFar plain) (stackP 0x43 0x8040 0x00CF73000000FFFF) .w32 0x401000 0x1B 0x43 (codeSeg 3 false) ∧
      (stackP 0x43 0x8040 0x00CF73000000FFFF).readDesc 0x43 = .ok { dataSeg 3 with p := false } ∧
      rpl 0x43 = rpl 0x1B ∧ (dataSeg 3).dpl = rpl 0x1B) :=
  ⟨by decide, by decide, by decide, by decide, by decide, by decide⟩

/-- VP22 with both ends of the null selectors. -/
theorem witness_NullStackSelectorInProtectedMode :
    (Outer (.retFar plain) (stackP 0 0x8020 0) .w32 0x401000 0x1B 0 (codeSeg 3 false) ∧ isNull 0 = true ∧
      (stackP 0 0x8020 0).ia32e = false) ∧
    (Outer (.retFar plain) (stackP 3 0x8020 0) .w32 0x401000 0x1B 3 (codeSeg 3 false) ∧ isNull 3 = true ∧
      (stackP 3 0x8020 0).ia32e = false) := by decide

/-- A compatibility-mode target; VL15; VL14. -/
theorem witness_NullStackSelectorInIa32eMode :
    (let s := stateL 0x3000 [(0x3000, 8, 0x401000), (0x3008, 8, 0x39), (0x3010, 16, 0x1 * 2 ^ 64 + 0x2000),
        (0x8038, 8, 0x00CFBB000000FFFF)];
      Outer (.retFar pW) s .w64 0x401000 0x39 1 (codeSeg 1 false) ∧ s.ia32e = true ∧ isNull 1 = true ∧
        (codeSeg 1 false).l = false) ∧
    (Outer (.retFar pW) (stackL 3) .w64 0x401000 0x39 3 (codeSeg 1 true) ∧ (stackL 3).ia32e = true ∧ rpl 3 = 3#2) ∧
    (Outer (.retFar pW) (stackL 0) .w64 0x401000 0x39 0 (codeSeg 1 true) ∧ rpl 0 ≠ rpl 0x39) :=
  ⟨by decide, by decide, by decide⟩

/-- VP10 (one above the limit of the new segment); VL4. -/
theorem witness_SameLevelTargetOutsideIsGeneralProtection :
    (let d := { codeSeg 0 false with limit := 0xFFF };
      Same (.retFar plain) (targetP 0x38 0x8038 0x00409B0000000FFF) .w32 0x1000 0x38 d ∧
        (targetP 0x38 0x8038 0x00409B0000000FFF).codeWithin 0x1000 d = false ∧
        (targetP 0x38 0x8038 0x00409B0000000FFF).codeWithin 0xFFF d = true) ∧
    (let s := stateL 0x3000 [(0x3000, 8, 0x0000800000000000), (0x3008, 8, 8), (0x8008, 8, 0x00AF9B000000FFFF)];
      Same (.retFar pW) s .w64 0x0000800000000000 8 (codeSeg 0 true) ∧ s.ia32e = true ∧
        s.canonical 0x0000800000000000 = false) := by decide

/-- To level 3: one above the limit of the new segment in protected mode, an address that is not canonical in IA-32e
mode. -/
theorem witness_OuterTargetOutsideIsGeneralProtection :
    (let s := stateP 0x2000 [(0x2000, 8, 0x0000001B00001000), (0x2008, 8, 0x000000237FFFF000),
        (0x8018, 16, 0x00CFF3000000FFFF0040FB0000000FFF)];
      let d := { codeSeg 3 false with limit := 0xFFF };
      Outer (.retFar plain) s .w32 0x1000 0x1B 0x23 d ∧
        s.outerStackPasses 0x1B 0x23 d { sel := 0x23, hidden := some (dataSeg 3) } ∧ s.codeWithin 0x1000 d = false ∧
        s.codeWithin 0xFFF d = true) ∧
    (let s := stateL 0x3000 [(0x3000, 8, 0x0000800000000000), (0x3008, 8, 0x2B), (0x3010, 8, 0x00007FFFFFFFE000),
        (0x3018, 8, 0x23), (0x8020, 16, 0x00AFFB000000FFFF00CFF3000000FFFF)];
      Outer (.retFar pW) s .w64 0x0000800000000000 0x2B 0x23 (codeSeg 3 true) ∧
        s.outerStackPasses 0x2B 0x23 (codeSeg 3 true) { sel := 0x23, hidden := some (dataSeg 3) } ∧ s.ia32e = true ∧
        s.canonical 0x0000800000000000 = false) :=
  ⟨⟨by decide, .inl ⟨by decide, dataSeg 3, by decide, rfl⟩, by decide⟩,
   ⟨by decide, .inl ⟨by decide, dataSeg 3, by decide, rfl⟩, by decide⟩⟩

/-- VP14: the far frame at 90000h. -/
def shadowP (prev lip sel : Nat) : State :=
  withShadow 0x90000 0 (stateP 0x2000 [(0x2000, 8, 0x0000000800001000), (0x8008, 8, 0x00CF9B000000FFFF),
    (0x90000, 8, prev), (0x90008, 8, lip), (0x90010, 8, sel)])

theorem witness_SameLevelFarReturnCompletes :
    (Same (.retFarImm16 plain 0xFFFF) sameP .w32 0x1000 8 (codeSeg 0 false) ∧
      sameP.farTargetOk 0x1000 (codeSeg 0 false) = true ∧ (codeSeg 0 false).accessed = true ∧
      sameP.shadowStackEnabled sameP.cpl = false) ∧
    (Same (.retFar plain) (shadowP 0x90020 0x1000 8) .w32 0x1000 8 (codeSeg 0 false) ∧
      (shadowP 0x90020 0x1000 8).shadowStackEnabled (shadowP 0x90020 0x1000 8).cpl = true ∧
      (shadowP 0x90020 0x1000 8).sspAligned = true ∧
      (shadowP 0x90020 0x1000 8).farFrameIs 8 ((shadowP 0x90020 0x1000 8).lipIn (codeSeg 0 false) 0x1000) 0x90020 ∧
      (shadowP 0x90020 0x1000 8).sspOkIn (codeSeg 0 false) 0x90020 = true) := by decide

/-- Every clause of the shadow-stack step has a state: VP14 without a shadow stack, VP19 with SSP misaligned by 4, VP18,
VP15, VP16, VP17 (the first value above 4 GB), VP14. -/
theorem witness_SameLevelShadowStackStep :
    sameP.shadowStackEnabled sameP.cpl = false ∧
    (let s := { shadowP 0x90020 0x1000 8 with ssp := 0x90004 };
      Same (.retFar plain) s .w32 0x1000 8 (codeSeg 0 false) ∧ s.farTargetOk 0x1000 (codeSeg 0 false) = true ∧
        s.shadowStackEnabled s.cpl = true ∧ s.ssp &&& 7#64 ≠ 0#64) ∧
    (let s := shadowP 0x90020 0x1000 0x10008;
      Same (.retFar plain) s .w32 0x1000 8 (codeSeg 0 false) ∧ s.ssp &&& 7#64 = 0#64 ∧ s.sspLoad 16 = .ok 0x10008 ∧
        s.sspLoad 8 = .ok 0x1000 ∧ s.sspLoad 0 = .ok 0x90020 ∧ (8 : Selector).setWidth 64 ≠ (0x10008 : Word)) ∧
    (shadowP 0x90020 0x1004 8).lipIn (codeSeg 0 false) 0x1000 ≠ 0x1004 ∧
    (0x90022 : Word) &&& 3#64 ≠ 0#64 ∧
    (shadowP 0x100000000 0x1000 8).sspOkIn (codeSeg 0 false) 0x100000000 = false ∧
    (shadowP 0xFFFFFFFC 0x1000 8).sspOkIn (codeSeg 0 false) 0xFFFFFFFC = true := by decide

/-- VP28 (level 3, token busy) and VL13 (an accepted null stack selector). -/
theorem witness_OuterFarReturnCompletes :
    (Outer (.retFar plain) outerP .w32 0x401000 0x1B 0x23 (codeSeg 3 false) ∧
      outerP.outerStackSegment 0x1B 0x23 (codeSeg 3 false) { sel := 0x23, hidden := some (dataSeg 3) } ∧
      outerP.farTargetOk 0x401000 (codeSeg 3 false) = true ∧ (codeSeg 3 false).accessed = true ∧
      outerP.stackRead outerP.stackAddressSize 8 .w32 = .ok 0x7FFFF000 ∧
      outerP.shadowStackEnabled outerP.cpl = true ∧ outerP.sspAligned = true ∧
      outerP.memRead .shadowLockedWrite (outerP.tokenAddress (rpl 0x1B)) 8 = .ok 0x90001 ∧
      outerP.shadowStackEnabled (rpl 0x1B) = true ∧
      (0xA0000 : Word) = (if rpl 0x1B = 3#2 then outerP.sys.pl3Ssp else 0) ∧
      outerP.sspOkIn (codeSeg 3 false) 0xA0000 = true) ∧
    (Outer (.retFar pW) (stackL 1) .w64 0x401000 0x39 1 (codeSeg 1 true) ∧
      (stackL 1).outerStackSegment 0x39 1 (codeSeg 1 true) { sel := 1, hidden := none } ∧
      (stackL 1).farTargetOk 0x401000 (codeSeg 1 true) = true ∧
      (stackL 1).stackRead (stackL 1).stackAddressSize 16 .w64 = .ok 0x00007FFFFFFFE000 ∧
      (stackL 1).shadowStackEnabled (stackL 1).cpl = false ∧ (stackL 1).shadowStackEnabled (rpl 0x39) = false) :=
  ⟨⟨by decide, ⟨.inl ⟨by decide, dataSeg 3, by decide, rfl⟩, by decide⟩, by decide, by decide, by decide, by decide,
      by decide, by decide, by decide, by decide, by decide⟩,
   ⟨by decide, ⟨.inr ⟨by decide, by decide, by decide, by decide, by decide, rfl⟩, nofun⟩, by decide, by decide,
      by decide, by decide⟩⟩

/-- VP30; level 1 (VP32) with a frame, and with a saved SSP above 4 GB; VP31. -/
def shadowToLevel1 (prev : Nat) : State :=
  withShadow 0x90000 0 (stateP 0x2000 [(0x2000, 8, 0x0000004900005000), (0x2008, 8, 0x0000005100006000),
    (0x8048, 16, 0x00CFB3000000FFFF00CFBB000000FFFF), (0x90000, 8, prev), (0x90008, 8, 0x5000), (0x90010, 8, 0x49),
    (0x90018, 8, 0x90019)])

theorem witness_OuterShadowStackFaults :
    (Outer (.retFar plain) { outerP with ssp := 0x90004 } .w32 0x401000 0x1B 0x23 (codeSeg 3 false) ∧
      State.outerStackSegment { outerP with ssp := 0x90004 } 0x1B 0x23 (codeSeg 3 false)
        { sel := 0x23, hidden := some (dataSeg 3) } ∧ (0x90004 : Word) &&& 7#64 ≠ 0#64) ∧
    (Outer (.retFar plain) (shadowToLevel1 0x100000000) .w32 0x5000 0x49 0x51 (codeSeg 1 false) ∧
      (shadowToLevel1 0x100000000).outerStackSegment 0x49 0x51 (codeSeg 1 false)
        { sel := 0x51, hidden := some (dataSeg 1) } ∧
      (shadowToLevel1 0x100000000).farTargetOk 0x5000 (codeSeg 1 false) = true ∧
      (shadowToLevel1 0x100000000).stackRead .w32 8 .w32 = .ok 0x6000 ∧
      (shadowToLevel1 0x100000000).shadowStackEnabled (shadowToLevel1 0x100000000).cpl = true ∧
      (shadowToLevel1 0x100000000).ssp &&& 7#64 = 0#64 ∧ rpl 0x49 ≠ 3#2 ∧
      (shadowToLevel1 0x100000000).sspLoad 16 = .ok 0x49 ∧ (shadowToLevel1 0x100000000).sspLoad 8 = .ok 0x5000 ∧
      (shadowToLevel1 0x100000000).sspLoad 0 = .ok 0x100000000 ∧
      (shadowToLevel1 0x100000000).lipIn (codeSeg 1 false) 0x5000 = 0x5000 ∧
      (shadowToLevel1 0x100000000).sspOkIn (codeSeg 1 false) 0x100000000 = false) ∧
    ((shadowToLevel1 0x91002).sspLoad 0 = .ok 0x91002 ∧ (0x91002 : Word) &&& 3#64 ≠ 0#64) ∧
    (let s := { outerP with sys := { outerP.sys with pl3Ssp := 0x100000000 } };
      Outer (.retFar plain) s .w32 0x401000 0x1B 0x23 (codeSeg 3 false) ∧ s.shadowStackEnabled 3#2 = true ∧
        rpl 0x1B = 3#2 ∧ s.ssp &&& 7#64 = 0#64 ∧ s.sspOkIn (codeSeg 3 false) s.sys.pl3Ssp = false) :=
  ⟨⟨by decide, ⟨.inl ⟨by decide, dataSeg 3, by decide, rfl⟩, by decide⟩, by decide⟩,
   ⟨by decide, ⟨.inl ⟨by decide, dataSeg 1, by decide, rfl⟩, by decide⟩, by decide⟩, by decide, by decide⟩

/-- VP20: DS and FS are cleared, ES and GS are kept. -/
theorem witness_DataSegmentsAfterProtectedOuterReturn :
    (∃ t, exec (.retFar plain) outerP = .next t ∧ decide (outerP.cpl < t.cpl) = true) ∧ outerP.ia32e = false ∧
    (outerP.ds.hidden = some (dataSeg 0) ∧ (dataSeg 0).dpl < 3) ∧ outerP.fs.sel.extractLsb' 2 14 = 0#14 ∧
    (outerP.es.sel.extractLsb' 2 14 ≠ 0#14 ∧ ¬(dataSeg 3).dpl < 3) :=
  ⟨exists_next (p := fun t => decide (outerP.cpl < t.cpl)) (by decide), by decide⟩

/-- VL10: DS is cleared, ES with its null selector is kept. -/
theorem witness_DataSegmentsAfterIa32eOuterReturn :
    (∃ t, exec (.retFar pW) outerL = .next t ∧ decide (outerL.cpl < t.cpl) = true) ∧ outerL.ia32e = true ∧
    (outerL.ds.sel.extractLsb' 2 14 ≠ 0#14 ∧ outerL.ds.hidden = some (dataSeg 0) ∧ (dataSeg 0).dpl < 3) ∧
    outerL.es.sel.extractLsb' 2 14 = 0#14 :=
  ⟨exists_next (p := fun t => decide (outerL.cpl < t.cpl)) (by decide), by decide⟩

/-- Context P to level 3 with the descriptors of CS (18h) and SS (20h). -/
def outerDescs (code data : Nat) : State :=
  stateP 0x2000 [(0x2000, 8, 0x0000001B00401000), (0x2008, 8, 0x000000237FFFF000), (0x8018, 8, code), (0x8020, 8, data)]

/-- At the same level; the code descriptor, and the stack descriptor, of a return to level 3. -/
theorem witness_ClearAccessedBitIsRefused :
    (let d := { codeSeg 0 false with accessed := false };
      Same (.retFar plain) (targetP 0x8 0x8008 0x00CF9A000000FFFF) .w32 0x1000 0x8 d ∧
        (targetP 0x8 0x8008 0x00CF9A000000FFFF).farTargetOk 0x1000 d = true ∧ d.accessed = false) ∧
    (let s := outerDescs 0x00CFFA000000FFFF 0x00CFF3000000FFFF;
      let d := { codeSeg 3 false with accessed := false };
      Outer (.retFar plain) s .w32 0x401000 0x1B 0x23 d ∧
        s.outerStackPasses 0x1B 0x23 d { sel := 0x23, hidden := some (dataSeg 3) } ∧ s.farTargetOk 0x401000 d = true) ∧
    (let s := outerDescs 0x00CFFB000000FFFF 0x00CFF2000000FFFF;
      let ds := { dataSeg 3 with accessed := false };
      Outer (.retFar plain) s .w32 0x401000 0x1B 0x23 (codeSeg 3 false) ∧
        s.outerStackPasses 0x1B 0x23 (codeSeg 3 false) { sel := 0x23, hidden := some ds } ∧
        s.farTargetOk 0x401000 (codeSeg 3 false) = true ∧ (codeSeg 3 false).accessed = true ∧
        s.stackRead .w32 8 .w32 = .ok 0x7FFFF000 ∧ ds.accessed = false) :=
  ⟨by decide, ⟨by decide, .inl ⟨by decide, dataSeg 3, by decide, rfl⟩, by decide⟩,
   ⟨by decide, .inl ⟨by decide, { dataSeg 3 with accessed := false }, by decide, rfl⟩, by decide⟩⟩

/-- AccessedSet holds of a step of VP28, whose two descriptors are those of level 3; and the stack descriptor of the last
state of witness_ClearAccessedBitIsRefused is loaded with the bit clear. -/
theorem witness_AccessedSetExcludesTheRefusal :
    outerP.accessedWithin 1 ∧
    (let s := outerDescs 0x00CFFB000000FFFF 0x00CFF2000000FFFF;
      s.loads (.retFar plain) { dataSeg 3 with accessed := false }) := by
  constructor
  · intro j t i d hj hr hf hl
    obtain rfl : j = 0 := by omega
    obtain rfl : outerP = t := Host.Outcome.next.inj hr
    obtain rfl : Instr.retFar plain = i := by
      have : outerP.fetch = .ok (.retFar plain) := by decide
      simpa [this] using hf
    obtain ⟨-, -, n, ip, rcs, c, hn, -, ht, hc, -, h⟩ := hl
    obtain rfl : Width.w32 = n := by
      have : outerP.ready (.retFar plain) .w32 := by decide
      simpa [this.2] using hn.2
    have h1 : outerP.readTarget outerP.stackAddressSize .w32 = .ok (0x401000, 0x1B) := by decide
    obtain ⟨rfl, rfl⟩ : (0x401000 : Word) = ip ∧ (0x1B : Selector) = rcs := by simpa [h1] using ht
    have h2 : outerP.checkCodeSegment 0x1B = .ok (codeSeg 3 false) := by decide
    obtain rfl : codeSeg 3 false = c := Except.ok.inj (h2.symm.trans hc)
    have h3 : outerP.readSelector outerP.stackAddressSize (3 * Width.w32.bytes + srcBytes (Instr.retFar plain).imm) .w32
        = .ok 0x23 := by decide
    rcases h with ⟨-, rfl⟩ | ⟨-, -, rss, ss, hs, hp, h⟩
    · rfl
    · obtain rfl : (0x23 : Selector) = rss := by simpa [h3] using hs
      rcases h with rfl | ⟨-, h⟩
      · rfl
      · rcases hp with ⟨-, ds, hd, rfl⟩ | ⟨-, hn, -⟩
        · have h4 : outerP.checkStackSegment 0x1B 0x23 = .ok (dataSeg 3) := by decide
          obtain rfl : dataSeg 3 = ds := Except.ok.inj (h4.symm.trans hd)
          obtain rfl : dataSeg 3 = d := by simpa using h
          rfl
        · exact absurd hn (by decide)
  · exact ⟨by decide, by decide, .w32, 0x401000, 0x1B, codeSeg 3 false, by decide, by decide, by decide, by decide,
      by decide, .inr ⟨by decide, by decide, 0x23, { sel := 0x23, hidden := some { dataSeg 3 with accessed := false } },
        by decide, .inl ⟨by decide, _, by decide, rfl⟩, .inr ⟨⟨0x7FFFF000, by decide⟩, rfl⟩⟩⟩

/-! ## Witnesses: refused accesses -/

/-- A memory system that refuses one access. -/
def refusing (addr size : Nat) (kind : AccessKind) (s : State) : State :=
  { s with memFaults := [{ addr := addr, size := size, kind := kind }] }

/-- The item of a near return; and its entry of the shadow stack. -/
theorem witness_RefusedNearAccessIsMemFault :
    (let s := refusing 0x1000 4 .dataRead nearA;
      s.ready (.retNear plain) .w32 ∧ s.nearStackOk s.stackAddressSize .w32 = true ∧
        s.refuses .dataRead (s.stackAddr s.stackAddressSize 0) 4) ∧
    (let s := refusing 0x90000 4 .shadowRead (shadowA 0x12345678);
      s.ready (.retNear plain) .w32 ∧ s.nearStackOk s.stackAddressSize .w32 = true ∧
        s.stackRead s.stackAddressSize 0 .w32 = .ok 0x12345678 ∧ s.nearTargetOk .w32 0x12345678 = true ∧
        s.shadowStackEnabled s.cpl = true ∧ s.refuses .shadowRead s.ssp (nearShadowBytes .w32)) := by decide

theorem witness_RefusedRealFarAccessIsMemFault :
    (let s := refusing 0x20100 2 .dataRead farB;
      s.ready (.retFar plain) .w16 ∧ s.realOrV86 = true ∧ s.stackWithin s.stackAddressSize 4 = true ∧
        s.refuses .dataRead (s.stackAddr s.stackAddressSize 0) 2) ∧
    (let s := refusing 0x20102 2 .dataRead farB;
      s.ready (.retFar plain) .w16 ∧ s.stackWithin s.stackAddressSize 4 = true ∧
        s.stackRead s.stackAddressSize 0 .w16 = .ok 0x1234 ∧ s.codeWithin 0x1234 s.cs.desc = true ∧
        s.refuses .dataRead (s.stackAddr s.stackAddressSize 2) 2) := by decide

/-- Each item, the descriptor, and each entry of the far frame. -/
theorem witness_RefusedFarAccessIsMemFault :
    (let s := refusing 0x2000 4 .dataRead sameP;
      s.ready (.retFar plain) .w32 ∧ s.segmented = true ∧ s.farStackOk .w32 8 = true ∧
        s.refuses .dataRead (s.stackAddr s.stackAddressSize 0) 4) ∧
    (let s := refusing 0x2004 4 .dataRead sameP;
      s.ready (.retFar plain) .w32 ∧ s.farStackOk .w32 8 = true ∧
        s.stackRead s.stackAddressSize 0 .w32 = .ok 0x1000 ∧
        s.refuses .dataRead (s.stackAddr s.stackAddressSize 4) 4) ∧
    (let s := refusing 0x8008 8 .descriptorRead sameL;
      Target (.retFar plain) s .w32 0x401000 8 ∧ isNull 8 = false ∧ s.beyondLimit 8 = false ∧ s.ia32e = true ∧
        s.rangeCanonical (s.descAddr 8) 8 = true ∧ s.refuses .descriptorRead (s.descAddr 8) 8) ∧
    (∀ a ∈ [0x90010, 0x90008, 0x90000],
      let s := refusing a 8 .shadowRead (shadowP 0x90020 0x1000 8);
      Same (.retFar plain) s .w32 0x1000 8 (codeSeg 0 false) ∧ s.farTargetOk 0x1000 (codeSeg 0 false) = true ∧
        s.shadowStackEnabled s.cpl = true ∧ s.sspAligned = true) ∧
    (refusing 0x90010 8 .shadowRead (shadowP 0x90020 0x1000 8)).refusesFarFrame ∧
    (refusing 0x90008 8 .shadowRead (shadowP 0x90020 0x1000 8)).refusesFarFrame ∧
    (refusing 0x90000 8 .shadowRead (shadowP 0x90020 0x1000 8)).refusesFarFrame :=
  ⟨by decide, by decide, by decide, by decide, .inl (by decide), .inr (.inl ⟨⟨8, by decide⟩, by decide⟩),
   .inr (.inr ⟨⟨8, 0x1000, by decide, by decide⟩, by decide⟩)⟩

/-- The stack selector, its descriptor, the stack pointer to load; the token at level 3 and at level 1; the frame. -/
theorem witness_RefusedOuterAccessIsMemFault :
    (let s := refusing 0x200C 4 .dataRead outerP;
      Target (.retFar plain) s .w32 0x401000 0x1B ∧ s.checkCodeSegment 0x1B = .ok (codeSeg 3 false) ∧
        s.cpl < rpl 0x1B ∧ s.farStackOk .w32 16 = true ∧
        s.refuses .dataRead (s.stackAddr s.stackAddressSize 12) 4) ∧
    (let s := refusing 0x8020 8 .descriptorRead outerP;
      Outer (.retFar plain) s .w32 0x401000 0x1B 0x23 (codeSeg 3 false) ∧ isNull 0x23 = false ∧
        s.beyondLimit 0x23 = false ∧ s.refuses .descriptorRead (s.descAddr 0x23) 8) ∧
    (let s := refusing 0x2008 4 .dataRead outerP;
      Outer (.retFar plain) s .w32 0x401000 0x1B 0x23 (codeSeg 3 false) ∧
        s.outerStackPasses 0x1B 0x23 (codeSeg 3 false) { sel := 0x23, hidden := some (dataSeg 3) } ∧
        s.farTargetOk 0x401000 (codeSeg 3 false) = true ∧ s.refuses .dataRead (s.stackAddr s.stackAddressSize 8) 4) ∧
    (let s := refusing 0x90000 8 .shadowLockedWrite outerP;
      Outer (.retFar plain) s .w32 0x401000 0x1B 0x23 (codeSeg 3 false) ∧
        s.outerStackSegment 0x1B 0x23 (codeSeg 3 false) { sel := 0x23, hidden := some (dataSeg 3) } ∧
        s.stackRead s.stackAddressSize 8 .w32 = .ok 0x7FFFF000 ∧ s.shadowStackEnabled s.cpl = true ∧
        s.sspAligned = true ∧ s.shadowStackEnabled (rpl 0x1B) = true ∧ s.sspOkIn (codeSeg 3 false) s.sys.pl3Ssp = true ∧
        s.refuses .shadowLockedWrite (s.tokenAddress (rpl 0x1B)) 8) ∧
    (let s := refusing 0x90018 8 .shadowLockedWrite (shadowToLevel1 0x91000);
      Outer (.retFar plain) s .w32 0x5000 0x49 0x51 (codeSeg 1 false) ∧ rpl 0x49 ≠ 3#2 ∧
        s.farFrameIs 0x49 (s.lipIn (codeSeg 1 false) 0x5000) 0x91000 ∧ s.sspOkIn (codeSeg 1 false) 0x91000 = true ∧
        s.refuses .shadowLockedWrite (s.tokenAddress (rpl 0x49)) 8) ∧
    (let s := refusing 0x90010 8 .shadowRead (shadowToLevel1 0x91000);
      Outer (.retFar plain) s .w32 0x5000 0x49 0x51 (codeSeg 1 false) ∧ s.refusesFarFrame) :=
  ⟨by decide, by decide, ⟨by decide, .inl ⟨by decide, dataSeg 3, by decide, rfl⟩, by decide⟩,
   ⟨by decide, ⟨.inl ⟨by decide, dataSeg 3, by decide, rfl⟩, by decide⟩, by decide⟩, by decide,
   ⟨by decide, .inl (by decide)⟩⟩

theorem witness_MemFaultMeansARefusedAccess :
    faultOf (exec (.retNear plain) (refusing 0x1000 4 .dataRead nearA)) = some .memFault ∧
    faultOf (exec (.retFar plain) (refusing 0x90000 8 .shadowLockedWrite outerP)) = some .memFault :=
  ⟨by decide, by decide⟩

/-- VP28 and VP29: the token busy, and not. -/
theorem witness_TokenFreeClearsTheBusyBit :
    (outerP.memRead .shadowLockedWrite 0x90000 8 = .ok 0x90001 ∧ (0x90001 : Word) = 0x90000 ||| 1#64 ∧
      ∃ t, outerP.freeToken 0x90000 = .ok t) ∧
    (outerP.memRead .shadowLockedWrite 0x2000 8 = .ok 0x0000001B00401000 ∧
      (0x0000001B00401000 : Word) ≠ 0x2000 ||| 1#64 ∧ ∃ t, outerP.freeToken 0x2000 = .ok t) :=
  ⟨⟨by decide, by decide, _, rfl⟩, ⟨by decide, by decide, _, rfl⟩⟩

end Sys2Proof.Tests
end

section
/-! SUPPORT. What a completed return has done to the state: one case per path, and what every path leaves as it was. -/

namespace Sys2Proof.Proofs

open Sys2Proof.Machine Sys2Proof.Laws

/-! ## Inversion of `exec` -/

/-- The four ways a return completes, with what each has tested and changed: near (R98), far in real-address or
virtual-8086 mode (R117), far to the same level (R134, R164), far to an outer level (R148, R178). -/
inductive ReturnEffect (i : Instr) (s t : State) : Prop
  | near (hnear : i.isFar = false)
      (ht : t = { s with rip := t.rip, rsp := t.rsp, ssp := t.ssp, draws := t.draws })
  | real (hfar : i.isFar = true) (hmode : s.realOrV86 = true) (sel : Selector)
      (ht : t = { s with rip := t.rip, cs := (s.loadCsReal sel).cs, rsp := t.rsp, draws := t.draws })
  | sameLevel (n : Width) (ip : Word) (rcs : Selector) (d : Descriptor)
      (hfar : i.isFar = true) (hmode : s.realOrV86 = false) (hready : s.ready i n)
      (hread : s.readTarget s.stackAddressSize n = .ok (ip, rcs)) (hcheck : s.checkCodeSegment rcs = .ok d)
      (hlevel : s.cpl = rpl rcs)
      (ht : t = { s with
        rip := ip, cs := { sel := rcs, hidden := some d }, rsp := t.rsp, ssp := t.ssp, draws := t.draws })
  | outerLevel (n : Width) (ip : Word) (rcs : Selector) (d : Descriptor) (ss : SegReg)
      (hfar : i.isFar = true) (hmode : s.realOrV86 = false) (hready : s.ready i n)
      (hread : s.readTarget s.stackAddressSize n = .ok (ip, rcs)) (hcheck : s.checkCodeSegment rcs = .ok d)
      (hlevel : s.cpl < rpl rcs)
      (hmem : t.mem = s.mem ∨ (s.shadowStackEnabled s.cpl = true ∧
        t.mem = s.mem.writeLE s.linearBits 8 (s.tokenAddress (rpl rcs)).toNat (s.tokenAddress (rpl rcs)).toNat))
      (ht : t = { s with
        rip := ip, cs := { sel := rcs, hidden := some d }, ss := ss, cpl := rpl rcs,
        ds := s.ds.afterOuter s.ia32e (rpl rcs), es := s.es.afterOuter s.ia32e (rpl rcs),
        fs := s.fs.afterOuter s.ia32e (rpl rcs), gs := s.gs.afterOuter s.ia32e (rpl rcs),
        rsp := t.rsp, ssp := t.ssp, mem := t.mem, draws := t.draws })

/-- The pointer read as the return target has the operand size's width (R120, R150). -/
theorem truncTo_of_readTarget {s : State} {a n : Width} {ip : Word} {rcs : Selector}
    (h : s.readTarget a n = .ok (ip, rcs)) : truncTo n ip = ip :=
  truncTo_of_lt (stackRead_lt (readTarget_eq_ok.mp h).1)

/-- SSP when the token is freed: past the frame unless the return is to level 3 (R142, R145, R172, R175). -/
theorem ssp_of_outerShadowTests {s t : State} {c : BitVec 2} {saved : Option Word}
    (hen : s.shadowStackEnabled s.cpl = true) (h : s.outerShadowTests c = .ok (saved, t)) :
    t = { s with ssp := s.tokenAddress c } := by
  rcases outerShadowTests_eq_ok.mp h with ⟨hoff, -, -⟩ | ⟨-, -, hc, -, rfl⟩ | ⟨-, -, hc, prev, -, -, rfl⟩
  · simp [hen] at hoff
  · simp [State.tokenAddress, hc]
  · simp [State.tokenAddress, hc]

/-- Memory after an outer return: as before, or with the freed token written (R145, R175). -/
theorem outerLevel_mem {f : FarTarget} {s t : State} {cs ss : SegReg} {esp : Word}
    (h : s.outerLevel f cs esp ss = .ok t) :
    t.mem = s.mem ∨ (s.shadowStackEnabled s.cpl = true ∧
      t.mem = s.mem.writeLE s.linearBits 8 (s.tokenAddress (rpl f.rcs)).toNat (s.tokenAddress (rpl f.rcs)).toNat) := by
  obtain ⟨saved, s2, s4, s5, h2, h4, h5, rfl⟩ := outerLevel_eq_ok.mp h
  have hs2 : s2 = { s.enterCode f cs with ssp := s2.ssp } := by
    rcases outerShadowTests_eq_ok.mp h2 with ⟨-, -, rfl⟩ | ⟨-, -, -, -, rfl⟩ | ⟨-, -, -, prev, -, -, rfl⟩ <;> rfl
  obtain ⟨hmem, hbits⟩ : s4.mem = s.mem ∧ s4.linearBits = s.linearBits := by
    rcases switchSsp_eq_ok.mp h4 with ⟨-, rfl⟩ | ⟨-, v, -, -, rfl⟩ <;> rw [hs2] <;> exact ⟨rfl, rfl⟩
  have hen : s2.shadowStackEnabled s2.cpl = s.shadowStackEnabled s.cpl := by rw [hs2]; rfl
  simp only [release_mem, clearDataSegs_mem]
  rcases freeOldToken_eq_ok.mp h5 with ⟨-, rfl⟩ | ⟨hon, cur, -, rfl⟩
  · exact .inl hmem
  · have hssp : s2.ssp = s.tokenAddress (rpl f.rcs) :=
      congrArg State.ssp (ssp_of_outerShadowTests (s := s.enterCode f cs) (hen ▸ hon) h2)
    split
    · exact .inr ⟨hen ▸ hon, by rw [hssp, hmem, hbits]⟩
    · exact .inl hmem

/-- A return code selector that passes and is not outer has the RPL of the current level (R126, R129, R157, R159). -/
theorem cpl_eq_rpl {s : State} {rcs : Selector} {d : Descriptor} (h : s.checkCodeSegment rcs = .ok d)
    (hlevel : ¬ s.cpl < rpl rcs) : s.cpl = rpl rcs := by
  obtain ⟨-, -, -, -, -, -, hge, -⟩ := checkCodeSegment_eq_ok.mp h
  bv_omega

/-- A form that completes does so in one of the four ways. -/
theorem exec_effect {i : Instr} {s t : State} (h : exec i s = .next t) : ReturnEffect i s t := by
  obtain ⟨n, u, hready, rfl, hu⟩ := exec_eq_next.mp h
  cases hfar : i.isFar with
  | false =>
    simp only [hfar, Bool.false_eq_true, if_false] at hu
    have hu := nearReturn_frame hu
    rw [hu]
    exact .near hfar rfl
  | true =>
    simp only [hfar, if_true] at hu
    cases hmode : s.realOrV86 with
    | true =>
      simp only [farReturn, hmode, if_true] at hu
      obtain ⟨-, v, c, -, -, -, -, rfl⟩ := realFarReturn_eq_ok.mp hu
      obtain ⟨r, hr⟩ := release_eq _ .w16 i.imm
      rw [hr]
      exact .real hfar hmode (c.setWidth 16) rfl
    | false =>
      obtain ⟨ip, rcs, d, hread, hcheck, ⟨hle, hu⟩ | ⟨hlt, esp, ss, hu⟩⟩ := farReturn_path hmode hu
      · have hu := sameLevel_frame hu
        rw [truncTo_of_readTarget hread] at hu
        rw [hu]
        exact .sameLevel n ip rcs d hfar hmode hready hread hcheck (cpl_eq_rpl hcheck hle) rfl
      · have hmem := outerLevel_mem hu
        have hu := outerLevel_frame hu
        rw [truncTo_of_readTarget hread] at hu
        rw [hu]
        exact .outerLevel n ip rcs d ss hfar hmode hready hread hcheck hlt hmem rfl

/-- A step that completes is a completed form. -/
theorem step_eq_next {s t : State} (h : step s = .next t) : ∃ i, s.fetch = .ok i ∧ exec i s = .next t := by
  unfold step at h
  cases hf : s.fetch with
  | ok i => exact ⟨i, rfl, by simpa [hf] using h⟩
  | error e => cases e <;> simp [hf] at h

/-! ## What every path leaves as it was -/

/-- No form writes a flag, a general register other than RSP, a system register or the memory oracle
(R22, R28, R29, R30, R33, R35, R52). -/
theorem exec_frame {i : Instr} {s t : State} (h : exec i s = .next t) :
    t.gprs = s.gprs ∧ t.eflags = s.eflags ∧ t.sys = s.sys ∧ t.memFaults = s.memFaults := by
  cases exec_effect h with
  | near _ ht => rw [ht]; exact ⟨rfl, rfl, rfl, rfl⟩
  | real _ _ sel ht => rw [ht]; exact ⟨rfl, rfl, rfl, rfl⟩
  | sameLevel _ _ _ _ _ _ _ _ _ _ ht => rw [ht]; exact ⟨rfl, rfl, rfl, rfl⟩
  | outerLevel _ _ _ _ _ _ _ _ _ _ _ _ ht => rw [ht]; exact ⟨rfl, rfl, rfl, rfl⟩

/-! ## The invariant -/

/-- CS as a segmented far return has tested it fits the mode and the level returned to (R122 to R128, R151 to R159). -/
theorem codeSegmentLoaded_of_check {s t : State} {rcs : Selector} {d : Descriptor}
    (hcheck : s.checkCodeSegment rcs = .ok d) (hmode : s.realOrV86 = false) (hsys : t.sys = s.sys)
    (hfl : t.eflags = s.eflags) (hcs : t.cs = { sel := rcs, hidden := some d }) (hcpl : t.cpl = rpl rcs) :
    t.codeSegmentLoaded = true := by
  obtain ⟨hnull, -, -, -, hcode, hld, -, hconf, hdpl, hp⟩ := checkCodeSegment_eq_ok.mp hcheck
  have hfits : (if d.ec then !decide (rpl rcs < d.dpl) else d.dpl == rpl rcs) = true := by
    cases hec : d.ec
    · simpa [hec] using hdpl
    · simpa [hec] using hconf
  have hbits : (!(s.ia32e && d.l && d.db)) = true := by
    simpa only [Bool.not_eq_true', ← Bool.not_eq_true, Bool.and_eq_true, and_assoc] using hld
  simp only [State.codeSegmentLoaded, hcs, realOrV86_congr hsys hfl, hmode, hnull, hcode, hp, hcpl, hfits,
    ia32e_congr hsys hfl, hbits, Bool.not_false, Bool.and_self, Bool.false_eq_true, if_false]

/-- Outside real-address and virtual-8086 mode CPL is consistent when it is the RPL of CS (R24, R27). -/
theorem cplConsistent_of_segmented {t : State} (hmode : t.realOrV86 = false) (h : t.cpl = rpl t.cs.sel) :
    t.cplConsistent = true := by
  simp only [State.realOrV86, Bool.or_eq_false_iff, Bool.not_eq_false'] at hmode
  simp [State.cplConsistent, hmode, h]

/-- A segmented far return establishes the invariant but for memory, whatever state it starts from. -/
theorem inv_of_segmented {s t : State} {rcs : Selector} {d : Descriptor}
    (hcheck : s.checkCodeSegment rcs = .ok d) (hmode : s.realOrV86 = false) (hsys : t.sys = s.sys)
    (hfl : t.eflags = s.eflags) (hcs : t.cs = { sel := rcs, hidden := some d }) (hcpl : t.cpl = rpl rcs)
    (hmem : t.mem.wf = true) : t.inv = true := by
  have hmode' : t.realOrV86 = false := by rw [realOrV86_congr hsys hfl, hmode]
  simp only [State.inv, hmem, codeSegmentLoaded_of_check hcheck hmode hsys hfl hcs hcpl,
    cplConsistent_of_segmented hmode' (by rw [hcpl, hcs]), Bool.and_self]

/-- In real-address and virtual-8086 mode CPL does not depend on CS (R24, R27). -/
theorem cplConsistent_of_real {s t : State} (hmode : s.realOrV86 = true) (hsys : t.sys = s.sys)
    (hfl : t.eflags = s.eflags) (hcpl : t.cpl = s.cpl) : t.cplConsistent = s.cplConsistent := by
  simp only [State.realOrV86, Bool.or_eq_true, Bool.not_eq_true'] at hmode
  unfold State.cplConsistent
  rw [pe_congr hsys, vm_congr hfl, hcpl]
  cases hpe : s.pe <;> simp_all

/-- A load of CS in real-address or virtual-8086 mode keeps what the mode asks of CS (R116). -/
theorem codeSegmentLoaded_of_real {s t : State} {sel : Selector} (hmode : s.realOrV86 = true)
    (hsys : t.sys = s.sys) (hfl : t.eflags = s.eflags) (hcs : t.cs = (s.loadCsReal sel).cs)
    (h : s.codeSegmentLoaded = true) : t.codeSegmentLoaded = true := by
  unfold State.codeSegmentLoaded at h ⊢
  rw [hcs, realOrV86_congr hsys hfl, hmode]
  cases hd : s.cs.hidden with
  | none => simp [hd] at h
  | some d => simp [State.loadCsReal, SegReg.realBase, SegReg.desc, hd]

/-- The write of a freed token keeps memory canonical (R50, R60). -/
theorem wf_of_token {s : State} (m : Memory) (a v : Nat) (h : m.wf = true) :
    (m.writeLE s.linearBits 8 a v).wf = true := by
  refine wf_writeLE m ?_ 8 a v h
  unfold State.linearBits
  split <;> omega

/-- Every completed form keeps the invariant. -/
theorem exec_inv {i : Instr} {s t : State} (hinv : s.inv = true) (h : exec i s = .next t) : t.inv = true := by
  obtain ⟨-, hfl, hsys, -⟩ := exec_frame h
  obtain ⟨⟨hmem, hcpl⟩, hcs⟩ : (s.mem.wf = true ∧ s.cplConsistent = true) ∧ s.codeSegmentLoaded = true := by
    simpa [State.inv] using hinv
  cases exec_effect h with
  | near _ ht =>
    rw [ht]
    exact hinv
  | real _ hmode sel ht =>
    have hcpl' := cplConsistent_of_real hmode hsys hfl (by rw [ht])
    have hcs' := codeSegmentLoaded_of_real hmode hsys hfl (by rw [ht]) hcs
    have hmem' : t.mem = s.mem := by rw [ht]
    simp only [State.inv, hmem', hmem, hcpl', hcpl, hcs', Bool.and_self]
  | sameLevel n ip rcs d _ hmode _ _ hcheck hlevel ht =>
    have hmem' : t.mem = s.mem := by rw [ht]
    exact inv_of_segmented hcheck hmode hsys hfl (by rw [ht])
      (by rw [ht, hlevel]) (hmem' ▸ hmem)
  | outerLevel n ip rcs d ss _ hmode _ _ hcheck _ hmem' ht =>
    refine inv_of_segmented hcheck hmode hsys hfl (by rw [ht]) (by rw [ht]) ?_
    rcases hmem' with hkept | ⟨-, hfreed⟩
    · rwa [hkept]
    · rw [hfreed]
      exact wf_of_token s.mem _ _ hmem

/-- Settles O10, by the invariant's three parts over the four ways a form completes. -/
theorem stepKeepsTheInvariant : Obligations.StepKeepsTheInvariant := by
  intro s t hinv h
  obtain ⟨i, -, hexec⟩ := step_eq_next h
  exact exec_inv hinv hexec

/-- Settles O14: the frame of every form. -/
theorem systemRegistersAreNeverWritten : Obligations.SystemRegistersAreNeverWritten := by
  intro i s t h
  obtain ⟨-, -, hsys, hfaults⟩ := exec_frame h
  exact ⟨hsys, hfaults⟩

/-- Settles O17: an outer return, the one path that writes these registers, changes CPL. -/
theorem sameLevelReturnsKeepTheOtherSegments : Obligations.SameLevelReturnsKeepTheOtherSegments := by
  intro i s t h hcpl
  cases exec_effect h with
  | near _ ht => rw [ht]; exact ⟨rfl, rfl, rfl, rfl, rfl⟩
  | real _ _ sel ht => rw [ht]; exact ⟨rfl, rfl, rfl, rfl, rfl⟩
  | sameLevel _ _ _ _ _ _ _ _ _ _ ht => rw [ht]; exact ⟨rfl, rfl, rfl, rfl, rfl⟩
  | outerLevel n ip rcs d ss _ _ _ _ _ hlevel _ ht =>
    have hnew : t.cpl = rpl rcs := by rw [ht]
    rw [← hnew, hcpl] at hlevel
    exact absurd hlevel (BitVec.lt_irrefl _)

end Sys2Proof.Proofs
end

section
/-! SUPPORT. One step, the reset state, and the fields of descriptors. -/

namespace Sys2Proof.Proofs

open Sys2Proof.Machine Sys2Proof.Laws

/-- The fetch answers the instruction at the head of the window (R66, R80). -/
theorem fetch_of_decode {s : State} {i : Instr} {rest : List Byte} (hcs : s.cs.hidden.isSome = true)
    (hdec : decode s.in64 s.fetchWindow = .ok (i, rest)) : s.fetch = .ok i := by
  simp [State.fetch, hcs, hdec]

/-- Settles O5: the fetch answers the decoded instruction, and a step runs it. -/
theorem stepExecutesTheDecodedInstruction : Obligations.StepExecutesTheDecodedInstruction := by
  intro s i rest hcs hdec
  simp only [step, fetch_of_decode hcs hdec]

/-- Nothing is written where the reset state fetches (log 6). -/
theorem fetch_reset : State.reset.fetch = .error (.refused .unwrittenMemory) := by decide

theorem step_reset : step State.reset = .refused .unwrittenMemory := by
  simp only [step, fetch_reset]

/-- So no step of a run from the reset state completes. -/
theorem run_reset_succ (k : Nat) : Sys2Proof.core.run (k + 1) State.reset = .refused Refusal.unwrittenMemory := by
  have hstep : Sys2Proof.core.step State.reset = .refused Refusal.unwrittenMemory :=
    step_reset
  simp only [Host.Core.run, hstep]

/-- No form runs from the reset state, so none loads a descriptor (R61, R211). -/
theorem accessedSet_reset : State.reset.accessedSet := by
  intro k j t i d _ hrun hfetch _
  cases j with
  | zero =>
    cases hrun
    simp [fetch_reset] at hfetch
  | succ j => simp [run_reset_succ] at hrun

/-- `SstkUniform` (R34) holds of every state, with the model's `ShadowStackEnabled` (log 9). -/
theorem sstkUniform (s : State) : s.sstkUniform :=
  ⟨fun _ _ hc hc' => shadowStackEnabled_supervisor hc hc', fun h c => not_shadowStackEnabled_of_realOrV86 h c⟩

/-- Settles O8: the decidable premises and invariants by evaluation, the premises about runs and levels by lemmas. -/
theorem resetMeetsTheLaunchPremises : Obligations.ResetMeetsTheLaunchPremises :=
  ⟨by decide, accessedSet_reset, sstkUniform _, by decide, by decide⟩

/-- Settles O44: four closed evaluations of the field positions (R23). -/
theorem descriptorFieldsOfTheContexts : Obligations.DescriptorFieldsOfTheContexts :=
  ⟨by decide, by decide, by decide, by decide⟩

end Sys2Proof.Proofs
end

section
/-! SUPPORT. The shadow-stack steps of a return to an outer level: where they fault, and that the saved SSP they use has a
value. -/

namespace Sys2Proof.Proofs

open Sys2Proof.Machine Sys2Proof.Laws

/-! ## The shadow-stack exceptions of an outer return -/

/-- An outer return with all that precedes its shadow-stack steps passed runs those (R141 to R147, R171 to R177). -/
theorem exec_outer_loaded {i : Instr} {s : State} {n : Width} {ip esp : Word} {rcs rss : Selector} {d : Descriptor}
    {ss : SegReg} (hf : i.isFar = true) (hr : s.ready i n) (hs : s.segmented = true)
    (h1 : s.farStackOk n (2 * n.bytes) = true) (h2 : s.readTarget s.stackAddressSize n = .ok (ip, rcs))
    (h3 : s.checkCodeSegment rcs = .ok d) (h4 : s.cpl < rpl rcs)
    (h5 : s.farStackOk n (4 * n.bytes + srcBytes i.imm) = true)
    (h6 : s.readSelector s.stackAddressSize (3 * n.bytes + srcBytes i.imm) n = .ok rss)
    (h7 : s.outerStackSegment rcs rss d ss) (h8 : s.farTargetOk ip d = true) (h9 : d.accessed = true)
    (h10 : s.stackRead s.stackAddressSize (2 * n.bytes + srcBytes i.imm) n = .ok esp) :
    exec i s = finish (s.outerLevel { n := n, imm := i.imm, a := s.stackAddressSize, ip := ip, rcs := rcs, d := d }
      { sel := rcs, hidden := some d } esp ss) := by
  obtain ⟨hpasses, hacc⟩ := h7
  have hcs : loadSeg rcs d = .ok { sel := rcs, hidden := some d } := loadSeg_eq_ok.mpr ⟨h9, rfl⟩
  have hss : requireAccessed ss = .ok () := requireAccessed_eq_ok.mpr hacc
  rw [exec_outer_passed hf hr hs h1 h2 h3 h4 h5 h6 hpasses]
  simp only [h8, hcs, h10, hss, require_true, ok_bind]

/-- SSP is 8-byte aligned, as a mask (R58). -/
theorem sspAligned_eq (s : State) : s.sspAligned = (s.ssp &&& 7#64 == 0#64) := by
  rw [State.sspAligned, Bool.eq_iff_iff, beq_iff_eq, beq_iff_eq, ← BitVec.toNat_inj, ← BitVec.toNat_inj,
    BitVec.toNat_and, BitVec.extractLsb'_toNat]
  have := Nat.and_two_pow_sub_one_eq_mod s.ssp.toNat 3
  norm_num at this ⊢
  rw [this]

/-- A misaligned SSP fails the tests at the old level (R142, R172). -/
theorem outerShadowTests_of_misaligned {s : State} {c : BitVec 2} (hen : s.shadowStackEnabled s.cpl = true)
    (hal : s.sspAligned = false) : s.outerShadowTests c = .error (.fault (.cp .farRetIret)) := by
  simp [State.outerShadowTests, hen, hal]

/-- A return to level 3 reads no frame (R142, R172). -/
theorem outerShadowTests_level3 {s : State} (hal : s.shadowStackEnabled s.cpl = true → s.sspAligned = true) :
    s.outerShadowTests 3#2 = .ok (none, s) := by
  unfold State.outerShadowTests
  split
  · simp [hal ‹_›]
  · rfl

/-- A return to level 1 or 2 reads the frame (R142, R172). -/
theorem outerShadowTests_of_frame {s : State} {c : BitVec 2} (hen : s.shadowStackEnabled s.cpl = true)
    (hal : s.sspAligned = true) (hc : c ≠ 3#2) :
    s.outerShadowTests c = (s.shadowFrame >>= fun x => .ok (some x.1, x.2)) := by
  simp [State.outerShadowTests, hen, hal, hc]

/-- The frame's tests with the new CS and RIP, for three entries that can be read (R142, R172). -/
theorem shadowFrame_enterCode {s : State} {f : FarTarget} {savedCs savedLip savedSsp : Word}
    (hip : truncTo f.n f.ip = f.ip) (h1 : s.sspLoad 16 = .ok savedCs) (h2 : s.sspLoad 8 = .ok savedLip)
    (h3 : s.sspLoad 0 = .ok savedSsp) :
    (s.enterCode f { sel := f.rcs, hidden := some f.d }).shadowFrame =
      (if f.rcs.setWidth 64 ≠ savedCs ∨ s.lipIn f.d f.ip ≠ savedLip ∨ savedSsp &&& 3#64 ≠ 0#64 then
        .error (.fault (.cp .farRetIret))
       else .ok (savedSsp, { s.enterCode f { sel := f.rcs, hidden := some f.d } with ssp := s.ssp + 24#64 })) := by
  have hlip : (s.enterCode f { sel := f.rcs, hidden := some f.d }).lip = s.lipIn f.d f.ip :=
    lip_enter _ rfl (by simp [hip]) rfl rfl
  have hload : ∀ k, (s.enterCode f { sel := f.rcs, hidden := some f.d }).sspLoad k = s.sspLoad k :=
    sspLoad_congr rfl rfl rfl rfl rfl
  rw [shadowFrame_of_loads ((hload 16).trans h1) ((hload 8).trans h2) ((hload 0).trans h3), hlip]
  rfl

/-- Below the outermost level both levels of an outer return have the same enable (R34, log 9). -/
theorem shadowStackEnabled_outer {s : State} {c : BitVec 2} (hlt : s.cpl < c) (hc : c ≠ 3#2) :
    s.shadowStackEnabled c = s.shadowStackEnabled s.cpl :=
  shadowStackEnabled_supervisor hc (by rintro h; bv_omega)

/-- A new SSP out of range ends the switch with `#GP(0)` (R144, R174). -/
theorem switchSsp_of_out_of_range {s : State} {saved : Option Word} {v : Word}
    (hen : s.shadowStackEnabled s.cpl = true) (hv : (if s.cpl = 3#2 then some s.sys.pl3Ssp else saved) = some v)
    (hbad : s.newSspOk v = false) : s.switchSsp saved = .error (.fault (.gp 0)) := by
  simp [State.switchSsp, hen, hv, hbad]

/-- A failure of the tests at the old level ends an outer return (R142, R172). -/
theorem outerLevel_of_tests_error {s : State} {f : FarTarget} {cs ss : SegReg} {esp : Word} {e : Stop}
    (h : (s.enterCode f cs).outerShadowTests (rpl f.rcs) = .error e) : s.outerLevel f cs esp ss = .error e := by
  rw [State.outerLevel, h, error_bind]

/-- So does a new SSP out of range for the new code segment (R144, R174). -/
theorem outerLevel_of_ssp_out_of_range {s : State} {f : FarTarget} {ss : SegReg} {esp p v : Word}
    {saved : Option Word}
    (h : (s.enterCode f { sel := f.rcs, hidden := some f.d }).outerShadowTests (rpl f.rcs) =
      .ok (saved, { s.enterCode f { sel := f.rcs, hidden := some f.d } with ssp := p }))
    (hen : s.shadowStackEnabled (rpl f.rcs) = true)
    (hv : (if rpl f.rcs = 3#2 then some s.sys.pl3Ssp else saved) = some v) (hbad : s.sspOkIn f.d v = false) :
    s.outerLevel f { sel := f.rcs, hidden := some f.d } esp ss = .error (.fault (.gp 0)) := by
  rw [State.outerLevel, h, ok_bind]
  dsimp only
  rw [switchSsp_of_out_of_range (v := v), error_bind]
  · exact hen
  · exact hv
  · refine Eq.trans (newSspOk_enter (s := s) (rcs := f.rcs) _ ?_ ?_ ?_ v) hbad <;> rfl

/-- Settles O39: the three faults of the shadow-stack steps, each after the steps before it have passed. -/
theorem outerShadowStackFaults : Obligations.OuterShadowStackFaults := by
  intro i s n ip esp rcs rss d ss hf hr hs h1 h2 h3 h4 h5 h6 h7 h8 h9 h10
  rw [exec_outer_loaded hf hr hs h1 h2 h3 h4 h5 h6 h7 h8 h9 h10]
  set f : FarTarget := { n := n, imm := i.imm, a := s.stackAddressSize, ip := ip, rcs := rcs, d := d }
  set w := s.enterCode f { sel := rcs, hidden := some d }
  have hip : truncTo f.n f.ip = f.ip := truncTo_of_readTarget h2
  have hold : s.shadowStackEnabled s.cpl = true → w.shadowStackEnabled w.cpl = true := id
  have hal : w.sspAligned = (s.ssp &&& 7#64 == 0#64) := sspAligned_eq w
  refine ⟨fun hen hmis => ?_, fun hen hok hc savedCs savedLip savedSsp l1 l2 l3 => ⟨fun hbad => ?_, ?_⟩,
    fun hen hc hok hbad => ?_⟩
  · have htests : w.outerShadowTests (rpl rcs) = .error (.fault (.cp .farRetIret)) :=
      outerShadowTests_of_misaligned (hold hen) (by simp [hal, hmis])
    exact finish_eq_fault.mpr (outerLevel_of_tests_error htests)
  · have htests : w.outerShadowTests (rpl rcs) = .error (.fault (.cp .farRetIret)) := by
      rw [outerShadowTests_of_frame (hold hen) (by simp [hal, hok]) hc, shadowFrame_enterCode hip l1 l2 l3, if_pos hbad,
        error_bind]
    exact finish_eq_fault.mpr (outerLevel_of_tests_error htests)
  · rintro ⟨m1, m2, m3⟩ hbad
    have htests : w.outerShadowTests (rpl rcs) = .ok (some savedSsp, { w with ssp := s.ssp + 24#64 }) := by
      rw [outerShadowTests_of_frame (hold hen) (by simp [hal, hok]) hc, shadowFrame_enterCode hip l1 l2 l3,
        if_neg (by simp [f, m1, m2, m3]), ok_bind]
    have hnew : s.shadowStackEnabled (rpl rcs) = true := (shadowStackEnabled_outer h4 hc).trans hen
    exact finish_eq_fault.mpr (outerLevel_of_ssp_out_of_range htests hnew (by simp [f, hc]) hbad)
  · have htests : w.outerShadowTests (rpl rcs) = .ok (none, { w with ssp := s.ssp }) := by
      rw [hc]
      exact outerShadowTests_level3 fun h => by simpa [hal] using hok h
    exact finish_eq_fault.mpr
      (outerLevel_of_ssp_out_of_range htests (by simpa [f, hc] using hen) (by simp [f, hc]) hbad)

end Sys2Proof.Proofs
end

section
/-! SUPPORT. Which stops an execution avoids, operation by operation. -/

namespace Sys2Proof.Proofs

open Sys2Proof.Machine Sys2Proof.Laws

/-- An execution does not end in the stop `e`. -/
def Avoids (e : Stop) {α : Type} (x : Exec α) : Prop := x ≠ .error e

section
variable {e : Stop} {α β : Type}

@[simp] theorem avoids_ok (a : α) : Avoids e (.ok a : Exec α) := by simp [Avoids]

@[simp] theorem avoids_refuse {r : Refusal} : Avoids e (refuse r : Exec α) ↔ e ≠ .refused r := by
  simp [Avoids]

@[simp] theorem avoids_require {b : Bool} {f : Fault} : Avoids e (require b f) ↔ (b = false → e ≠ .fault f) := by
  simp [Avoids]

@[simp] theorem avoids_premise {b : Bool} {r : Refusal} : Avoids e (premise b r) ↔ (b = false → e ≠ .refused r) := by
  simp [Avoids]

/-- A sequence avoids a stop when each of its parts does, the later ones on what the earlier ones answer. -/
@[simp] theorem avoids_bind {x : Exec α} {f : α → Exec β} :
    Avoids e (x >>= f) ↔ Avoids e x ∧ ∀ a, x = .ok a → Avoids e (f a) := by
  simp only [Avoids, ne_eq, bind_eq_error, not_or, not_exists, not_and]

/-- A branch avoids a stop when both sides do. -/
theorem avoids_ite {c : Prop} [Decidable c] {x y : Exec α} (hx : c → Avoids e x) (hy : ¬c → Avoids e y) :
    Avoids e (if c then x else y) := by
  split
  · exact hx ‹_›
  · exact hy ‹_›

end

/-! ## The refusal for want of a saved SSP

Every refusal but that of `switchSsp` has another name, so each operation avoids this one by the stops it names. -/

/-- The refusal `tempSspUnset` (R144; log 16), as a stop. -/
abbrev unset : Stop := .refused .tempSspUnset

@[simp] theorem memRead_avoids_unset (s : State) (k : AccessKind) (a : Word) (n : Nat) :
    Avoids unset (s.memRead k a n) := by
  intro h
  rcases memRead_eq_error h with h | h <;> simp at h

@[simp] theorem stackRead_avoids_unset (s : State) (a n : Width) (k : Nat) : Avoids unset (s.stackRead a k n) :=
  memRead_avoids_unset s _ _ _

@[simp] theorem sspLoad_avoids_unset (s : State) (k : Nat) : Avoids unset (s.sspLoad k) :=
  memRead_avoids_unset s _ _ _

@[simp] theorem readSelector_avoids_unset (s : State) (a n : Width) (k : Nat) :
    Avoids unset (s.readSelector a k n) := by
  intro h
  exact stackRead_avoids_unset s a n k (readSelector_eq_error.mp h)

@[simp] theorem readDesc_avoids_unset (s : State) (sel : Selector) : Avoids unset (s.readDesc sel) := by
  intro h
  exact memRead_avoids_unset s _ _ _ (readDesc_eq_error.mp h)

@[simp] theorem pop_avoids_unset (s : State) (a n : Width) : Avoids unset (s.pop a n) := by
  intro h
  exact stackRead_avoids_unset s a n 0 (pop_eq_error.mp h)

@[simp] theorem shadowPop_avoids_unset (s : State) (n : Nat) : Avoids unset (s.shadowPop n) := by
  intro h
  exact memRead_avoids_unset s _ _ _ (shadowPop_eq_error.mp h)

@[simp] theorem loadSeg_avoids_unset (sel : Selector) (d : Descriptor) : Avoids unset (loadSeg sel d) := by
  intro h
  simpa using (loadSeg_eq_error.mp h).2

@[simp] theorem requireAccessed_avoids_unset (r : SegReg) : Avoids unset (requireAccessed r) := by
  simp [requireAccessed]

@[simp] theorem requireSegments_avoids_unset (s : State) : Avoids unset s.requireSegments := by
  simp [State.requireSegments]

@[simp] theorem operandSize_avoids_unset (s : State) (far : Bool) (p : Prefixes) :
    Avoids unset (s.operandSize far p) := by
  unfold State.operandSize
  split_ifs <;> simp

@[simp] theorem readTarget_avoids_unset (s : State) (a n : Width) : Avoids unset (s.readTarget a n) := by
  simp [State.readTarget]

@[simp] theorem checkCodeSegment_avoids_unset (s : State) (rcs : Selector) :
    Avoids unset (s.checkCodeSegment rcs) := by
  simp [State.checkCodeSegment]

@[simp] theorem checkStackSegment_avoids_unset (s : State) (rcs rss : Selector) :
    Avoids unset (s.checkStackSegment rcs rss) := by
  simp [State.checkStackSegment]

@[simp] theorem ia32eStackSegment_avoids_unset (s : State) (f : FarTarget) (rss : Selector) :
    Avoids unset (s.ia32eStackSegment f rss) :=
  avoids_ite (fun _ => by simp) fun _ => by simp

@[simp] theorem shadowFrame_avoids_unset (s : State) : Avoids unset s.shadowFrame := by
  simp [State.shadowFrame]

@[simp] theorem sameShadowStep_avoids_unset (s : State) : Avoids unset s.sameShadowStep :=
  avoids_ite (fun _ => by simp) fun _ => by simp

@[simp] theorem sameLevel_avoids_unset (s : State) (f : FarTarget) : Avoids unset (s.sameLevel f) := by
  simp [State.sameLevel]

@[simp] theorem outerShadowTests_avoids_unset (s : State) (c : BitVec 2) : Avoids unset (s.outerShadowTests c) := by
  refine avoids_ite (fun _ => ?_) fun _ => by simp
  simp only [avoids_bind, avoids_require]
  exact ⟨by simp, fun _ _ => avoids_ite (fun _ => by simp) fun _ => by simp⟩

@[simp] theorem freeOldToken_avoids_unset (s : State) (en : Bool) (old : Word) :
    Avoids unset (s.freeOldToken en old) := by
  refine avoids_ite (fun _ => ?_) fun _ => by simp
  intro h
  unfold State.freeToken State.lockCmpxchg8b at h
  split at h
  · split at h <;> simp at h
  · rename_i e he
    cases h
    exact memRead_avoids_unset s _ _ _ he

/-- The switch avoids the refusal when a level below 3 with a shadow stack has a saved SSP (R144, R174). -/
theorem switchSsp_avoids_unset {s : State} {saved : Option Word}
    (h : s.shadowStackEnabled s.cpl = true → s.cpl ≠ 3#2 → saved.isSome = true) :
    Avoids unset (s.switchSsp saved) := by
  refine avoids_ite (fun hen => ?_) fun _ => by simp
  by_cases h3 : s.cpl = 3#2
  · simp [h3]
  · obtain ⟨v, rfl⟩ := Option.isSome_iff_exists.mp (h hen h3)
    simp [h3]

/-- The tests at the old level leave the enables as they were, and at an enabled level a return to level 1 or 2 has
read its saved SSP (R142, R172). -/
theorem saved_of_outerShadowTests {s t : State} {c : BitVec 2} {saved : Option Word}
    (hc : c ≠ 3#2) (h : s.outerShadowTests c = .ok (saved, t)) :
    t.shadowStackEnabled = s.shadowStackEnabled ∧ (s.shadowStackEnabled s.cpl = true → saved.isSome = true) := by
  rcases outerShadowTests_eq_ok.mp h with ⟨hoff, -, rfl⟩ | ⟨-, -, h3, -, -⟩ | ⟨-, -, -, prev, -, rfl, rfl⟩
  · exact ⟨rfl, by simp [hoff]⟩
  · exact absurd h3 hc
  · exact ⟨rfl, fun _ => rfl⟩

/-- A return to an outer level always has the SSP it switches to: below level 3 the enable is that of the old level
(R34, R144, R174; log 9). -/
theorem outerLevel_avoids_unset {s : State} {f : FarTarget} {cs ss : SegReg} {esp : Word}
    (hlevel : s.cpl < rpl f.rcs) : Avoids unset (s.outerLevel f cs esp ss) := by
  simp only [State.outerLevel, avoids_bind, outerShadowTests_avoids_unset, freeOldToken_avoids_unset, avoids_ok,
    true_and, implies_true, and_true, Prod.forall]
  intro saved s2 htests
  refine switchSsp_avoids_unset fun hen hc => ?_
  obtain ⟨hsame, hsaved⟩ := saved_of_outerShadowTests hc htests
  refine hsaved ?_
  have hnew : s.shadowStackEnabled (rpl f.rcs) = true := (congrFun hsame (rpl f.rcs)).symm.trans hen
  exact (shadowStackEnabled_outer hlevel hc).symm.trans hnew

/-! ## The paths -/

theorem protFarReturn_avoids_unset (n : Width) (imm : Option (BitVec 16)) (s : State) :
    Avoids unset (protFarReturn n imm s) := by
  simp only [protFarReturn, avoids_bind, Prod.forall]
  refine ⟨by simp, fun _ _ => ⟨by simp, fun ip rcs _ => ⟨by simp, fun d _ => avoids_ite (fun hlt => ?_) fun _ => ?_⟩⟩⟩
  · simp [protOuter, outerLevel_avoids_unset, hlt]
  · simp [protSame]

theorem ia32eFarReturn_avoids_unset (n : Width) (imm : Option (BitVec 16)) (s : State) :
    Avoids unset (ia32eFarReturn n imm s) := by
  simp only [ia32eFarReturn, avoids_bind, Prod.forall]
  refine ⟨by simp, fun _ _ => ⟨by simp, fun ip rcs _ => ⟨by simp, fun d _ => avoids_ite (fun hlt => ?_) fun _ => ?_⟩⟩⟩
  · simp [ia32eOuter, outerLevel_avoids_unset, hlt]
  · simp [ia32eSame]

theorem realFarReturn_avoids_unset (n : Width) (imm : Option (BitVec 16)) (s : State) :
    Avoids unset (realFarReturn n imm s) := by
  cases imm <;> simp [realFarReturn, State.releaseReal]

theorem nearReturn_avoids_unset (n : Width) (imm : Option (BitVec 16)) (s : State) :
    Avoids unset (nearReturn n imm s) := by
  have hshadow : ∀ t : State, Avoids unset (t.nearShadowStep n) := fun t =>
    avoids_ite (fun _ => by simp) fun _ => by simp
  simp [nearReturn, hshadow]

theorem farReturn_avoids_unset (n : Width) (imm : Option (BitVec 16)) (s : State) :
    Avoids unset (farReturn n imm s) :=
  avoids_ite (fun _ => realFarReturn_avoids_unset n imm s) fun _ =>
    avoids_ite (fun _ => ia32eFarReturn_avoids_unset n imm s) fun _ => protFarReturn_avoids_unset n imm s

/-- Settles O19: every path avoids the refusal, the outer return because the saved SSP has been read. -/
theorem savedSspAlwaysHasAValue : Obligations.SavedSspAlwaysHasAValue := by
  intro i s h
  rw [exec_eq, finish_eq_refused] at h
  revert h
  exact avoids_ite (e := unset)
    (fun _ => by simp [runFar, farReturn_avoids_unset]) fun _ => by simp [runNear, nearReturn_avoids_unset]

end Sys2Proof.Proofs
end

section
/-! SUPPORT. What no path reads: the fifteen general registers other than RSP, and EFLAGS but for VM.  A state with other
values of them, `disguise`, commutes with every operation. -/

namespace Sys2Proof.Proofs

open Sys2Proof.Machine Sys2Proof.Laws

/-- The state with other general registers, and with other flags where they have the same VM. -/
def disguise (g : GeneralRegs) (e : BitVec 32) (s : State) : State :=
  { s with gprs := g, eflags := if e.getLsbD 17 = s.vm then e else s.eflags }

section
variable (g : GeneralRegs) (e : BitVec 32) (s : State)

/-! ## What is read is not disguised -/

@[simp] theorem disguise_rip : (disguise g e s).rip = s.rip := rfl
@[simp] theorem disguise_rsp : (disguise g e s).rsp = s.rsp := rfl
@[simp] theorem disguise_cs : (disguise g e s).cs = s.cs := rfl
@[simp] theorem disguise_ss : (disguise g e s).ss = s.ss := rfl
@[simp] theorem disguise_ds : (disguise g e s).ds = s.ds := rfl
@[simp] theorem disguise_es : (disguise g e s).es = s.es := rfl
@[simp] theorem disguise_fs : (disguise g e s).fs = s.fs := rfl
@[simp] theorem disguise_gs : (disguise g e s).gs = s.gs := rfl
@[simp] theorem disguise_cpl : (disguise g e s).cpl = s.cpl := rfl
@[simp] theorem disguise_sys : (disguise g e s).sys = s.sys := rfl
@[simp] theorem disguise_ssp : (disguise g e s).ssp = s.ssp := rfl
@[simp] theorem disguise_memFaults : (disguise g e s).memFaults = s.memFaults := rfl
@[simp] theorem disguise_mem : (disguise g e s).mem = s.mem := rfl
@[simp] theorem disguise_draws : (disguise g e s).draws = s.draws := rfl

/-- VM is the one flag a disguise keeps. -/
@[simp] theorem disguise_vm : (disguise g e s).vm = s.vm := by
  show (if e.getLsbD 17 = s.vm then e else s.eflags).getLsbD 17 = s.vm
  split
  · assumption
  · rfl

@[simp] theorem disguise_pe : (disguise g e s).pe = s.pe := rfl
@[simp] theorem disguise_lma : (disguise g e s).lma = s.lma := rfl

@[simp] theorem disguise_realOrV86 : (disguise g e s).realOrV86 = s.realOrV86 := by simp [State.realOrV86]

@[simp] theorem disguise_ia32e : (disguise g e s).ia32e = s.ia32e := by simp [State.ia32e]

@[simp] theorem disguise_in64 : (disguise g e s).in64 = s.in64 := by simp [State.in64]

@[simp] theorem disguise_linearBits : (disguise g e s).linearBits = s.linearBits := by simp [State.linearBits]

@[simp] theorem disguise_shadowStackEnabled (c : BitVec 2) :
    (disguise g e s).shadowStackEnabled c = s.shadowStackEnabled c := by
  simp [State.shadowStackEnabled, State.cet]

/-! ## The operations that answer a value answer the same -/

@[simp] theorem disguise_memRead (k : AccessKind) (a : Word) (n : Nat) :
    (disguise g e s).memRead k a n = s.memRead k a n := by
  simp [State.memRead, State.memRefused]

@[simp] theorem disguise_linear (b off : Word) : (disguise g e s).linear b off = s.linear b off := by
  simp [State.linear]

@[simp] theorem disguise_lip : (disguise g e s).lip = s.lip := by simp [State.lip, State.csBase]

@[simp] theorem disguise_canonical (a : Word) : (disguise g e s).canonical a = s.canonical a := rfl

@[simp] theorem disguise_rangeCanonical (a : Word) (n : Nat) :
    (disguise g e s).rangeCanonical a n = s.rangeCanonical a n := rfl

@[simp] theorem disguise_stackRead (a n : Width) (k : Nat) :
    (disguise g e s).stackRead a k n = s.stackRead a k n := by
  simp [State.stackRead, State.stackAddr, State.ssBase, State.sp]

@[simp] theorem disguise_stackWithin (a : Width) (n : Nat) :
    (disguise g e s).stackWithin a n = s.stackWithin a n := by
  simp only [State.stackWithin, disguise_in64]
  rfl

@[simp] theorem disguise_stackCanonical (a : Width) (n : Nat) :
    (disguise g e s).stackCanonical a n = s.stackCanonical a n := rfl

@[simp] theorem disguise_codeWithin (ip : Word) (d : Descriptor) :
    (disguise g e s).codeWithin ip d = s.codeWithin ip d := rfl

@[simp] theorem disguise_stackAddressSize : (disguise g e s).stackAddressSize = s.stackAddressSize := by
  simp only [State.stackAddressSize, disguise_in64]
  rfl

@[simp] theorem disguise_operandSize (far : Bool) (p : Prefixes) :
    (disguise g e s).operandSize far p = s.operandSize far p := by
  simp [State.operandSize]

@[simp] theorem disguise_requireSegments : (disguise g e s).requireSegments = s.requireSegments := by
  simp [State.requireSegments]

@[simp] theorem disguise_beyondLimit (sel : Selector) : (disguise g e s).beyondLimit sel = s.beyondLimit sel := rfl

@[simp] theorem disguise_descAddr (sel : Selector) : (disguise g e s).descAddr sel = s.descAddr sel := by
  simp [State.descAddr, State.tableOf]

@[simp] theorem disguise_readDesc (sel : Selector) : (disguise g e s).readDesc sel = s.readDesc sel := by
  simp [State.readDesc]

@[simp] theorem disguise_readSelector (a n : Width) (k : Nat) :
    (disguise g e s).readSelector a k n = s.readSelector a k n := by
  simp [State.readSelector]

@[simp] theorem disguise_readTarget (a n : Width) : (disguise g e s).readTarget a n = s.readTarget a n := by
  simp [State.readTarget]

@[simp] theorem disguise_checkCodeSegment (rcs : Selector) :
    (disguise g e s).checkCodeSegment rcs = s.checkCodeSegment rcs := by
  simp only [State.checkCodeSegment, disguise_ia32e, disguise_descAddr, disguise_readDesc]
  rfl

@[simp] theorem disguise_checkStackSegment (rcs rss : Selector) :
    (disguise g e s).checkStackSegment rcs rss = s.checkStackSegment rcs rss := by
  simp [State.checkStackSegment]

@[simp] theorem disguise_ia32eStackSegment (f : FarTarget) (rss : Selector) :
    (disguise g e s).ia32eStackSegment f rss = s.ia32eStackSegment f rss := by
  simp [State.ia32eStackSegment]

@[simp] theorem disguise_sspLoad (k : Nat) : (disguise g e s).sspLoad k = s.sspLoad k := by simp [State.sspLoad]

@[simp] theorem disguise_sspAligned : (disguise g e s).sspAligned = s.sspAligned := rfl

@[simp] theorem disguise_newSspOk (v : Word) : (disguise g e s).newSspOk v = s.newSspOk v := by
  simp [State.newSspOk]

@[simp] theorem disguise_ia32eStackOk (a n : Width) (k : Nat) :
    (disguise g e s).ia32eStackOk a n k = s.ia32eStackOk a n k := by
  simp [State.ia32eStackOk]

@[simp] theorem disguise_ia32eTargetOk (f : FarTarget) : (disguise g e s).ia32eTargetOk f = s.ia32eTargetOk f := rfl

@[simp] theorem disguise_nearStackOk (a n : Width) : (disguise g e s).nearStackOk a n = s.nearStackOk a n := by
  simp [State.nearStackOk]

@[simp] theorem disguise_nearTargetOk (n : Width) (t : Word) :
    (disguise g e s).nearTargetOk n t = s.nearTargetOk n t := rfl

/-! ## The operations that write a state write the disguised one -/

@[simp] theorem disguise_writeIp (n : Width) (v : Word) :
    (disguise g e s).writeIp n v = disguise g e (s.writeIp n v) := rfl

@[simp] theorem disguise_addSp (a : Width) (k : Nat) : (disguise g e s).addSp a k = disguise g e (s.addSp a k) := rfl

@[simp] theorem disguise_release (a : Width) (imm : Option (BitVec 16)) :
    (disguise g e s).release a imm = disguise g e (s.release a imm) := by
  cases imm <;> rfl

@[simp] theorem disguise_loadCsReal (sel : Selector) :
    (disguise g e s).loadCsReal sel = disguise g e (s.loadCsReal sel) := rfl

@[simp] theorem disguise_enterCode (f : FarTarget) (cs : SegReg) :
    (disguise g e s).enterCode f cs = disguise g e (s.enterCode f cs) := rfl

@[simp] theorem disguise_clearDataSegs : (disguise g e s).clearDataSegs = disguise g e s.clearDataSegs := by
  simp only [State.clearDataSegs, disguise_ia32e]
  rfl

/-- `Pop` commutes with a disguise. -/
@[simp] theorem disguise_pop (a n : Width) :
    (disguise g e s).pop a n = Prod.map id (disguise g e) <$> s.pop a n := by
  simp only [State.pop, disguise_stackRead]
  cases s.stackRead a 0 n <;> rfl

@[simp] theorem disguise_shadowPop (n : Nat) :
    (disguise g e s).shadowPop n = Prod.map id (disguise g e) <$> s.shadowPop n := by
  simp only [State.shadowPop, disguise_memRead, disguise_ssp]
  cases s.memRead .shadowRead s.ssp n <;> rfl

@[simp] theorem disguise_shadowFrame :
    (disguise g e s).shadowFrame = Prod.map id (disguise g e) <$> s.shadowFrame := by
  simp only [State.shadowFrame, map_bind, disguise_sspLoad, disguise_lip]
  rfl

@[simp] theorem disguise_nearShadowStep (n : Width) :
    (disguise g e s).nearShadowStep n = disguise g e <$> s.nearShadowStep n := by
  simp only [State.nearShadowStep, disguise_shadowStackEnabled, disguise_cpl, disguise_shadowPop]
  split
  · simp only [map_bind, bind_map_left]
    rfl
  · rfl

@[simp] theorem disguise_sameShadowStep :
    (disguise g e s).sameShadowStep = disguise g e <$> s.sameShadowStep := by
  simp only [State.sameShadowStep, disguise_shadowStackEnabled, disguise_cpl, disguise_sspAligned,
    disguise_shadowFrame]
  split
  · simp only [map_bind, bind_map_left, Prod.map_snd, disguise_newSspOk]
    rfl
  · rfl

@[simp] theorem disguise_outerShadowTests (c : BitVec 2) :
    (disguise g e s).outerShadowTests c = Prod.map id (disguise g e) <$> s.outerShadowTests c := by
  simp only [State.outerShadowTests, disguise_shadowStackEnabled, disguise_cpl, disguise_sspAligned,
    disguise_shadowFrame]
  split
  · split
    · simp only [map_bind]
      rfl
    · simp only [map_bind, bind_map_left]
      rfl
  · rfl

@[simp] theorem disguise_switchSsp (saved : Option Word) :
    (disguise g e s).switchSsp saved = disguise g e <$> s.switchSsp saved := by
  simp only [State.switchSsp, disguise_shadowStackEnabled, disguise_cpl, disguise_sys, disguise_newSspOk]
  split
  · by_cases h3 : s.cpl = 3#2
    · simp only [h3, if_true, map_bind]
      rfl
    · simp only [h3, if_false]
      cases saved with
      | none => rfl
      | some v =>
        simp only [map_bind]
        rfl
  · rfl

@[simp] theorem disguise_freeOldToken (en : Bool) (old : Word) :
    (disguise g e s).freeOldToken en old = disguise g e <$> s.freeOldToken en old := by
  simp only [State.freeOldToken, State.freeToken, State.lockCmpxchg8b, disguise_memRead, disguise_linearBits]
  split
  · split
    · split <;> rfl
    · rfl
  · rfl

/-! ## The paths -/

@[simp] theorem disguise_sameLevel (f : FarTarget) :
    (disguise g e s).sameLevel f = disguise g e <$> s.sameLevel f := by
  simp [State.sameLevel, map_bind]

@[simp] theorem disguise_outerLevel (f : FarTarget) (cs ss : SegReg) (esp : Word) :
    (disguise g e s).outerLevel f cs esp ss = disguise g e <$> s.outerLevel f cs esp ss := by
  simp only [State.outerLevel, map_bind, disguise_enterCode, disguise_outerShadowTests, bind_map_left]
  refine bind_congr fun (saved, s2) => ?_
  change State.switchSsp (disguise g e
    { s2 with cpl := rpl f.rcs, rsp := StackPointer.load f.n s2.draws esp, ss := ss }) saved >>= _ = _
  simp only [disguise_switchSsp, bind_map_left, Prod.map_snd, disguise_shadowStackEnabled, disguise_cpl, disguise_ssp,
    disguise_freeOldToken, disguise_clearDataSegs, disguise_stackAddressSize, disguise_release]
  rfl

@[simp] theorem disguise_protFarReturn (n : Width) (imm : Option (BitVec 16)) :
    protFarReturn n imm (disguise g e s) = disguise g e <$> protFarReturn n imm s := by
  simp [protFarReturn, map_bind, apply_ite (disguise g e <$> ·), protOuter, protSame]

@[simp] theorem disguise_ia32eFarReturn (n : Width) (imm : Option (BitVec 16)) :
    ia32eFarReturn n imm (disguise g e s) = disguise g e <$> ia32eFarReturn n imm s := by
  simp [ia32eFarReturn, map_bind, apply_ite (disguise g e <$> ·), ia32eOuter, ia32eSame]

@[simp] theorem disguise_realFarReturn (n : Width) (imm : Option (BitVec 16)) :
    realFarReturn n imm (disguise g e s) = disguise g e <$> realFarReturn n imm s := by
  have hrelease : ∀ t : State, (disguise g e t).releaseReal imm = disguise g e <$> t.releaseReal imm := by
    intro t
    cases imm with
    | none => rfl
    | some v => simp [State.releaseReal, map_bind]
  simp [realFarReturn, map_bind, hrelease]

@[simp] theorem disguise_nearReturn (n : Width) (imm : Option (BitVec 16)) :
    nearReturn n imm (disguise g e s) = disguise g e <$> nearReturn n imm s := by
  simp [nearReturn, map_bind]

@[simp] theorem disguise_farReturn (n : Width) (imm : Option (BitVec 16)) :
    farReturn n imm (disguise g e s) = disguise g e <$> farReturn n imm s := by
  simp only [farReturn, disguise_realOrV86, disguise_ia32e, disguise_realFarReturn, disguise_ia32eFarReturn,
    disguise_protFarReturn, apply_ite (disguise g e <$> ·)]

/-- Every outcome of a form is that of the undisguised state, disguised. -/
theorem exec_disguise (i : Instr) : exec i (disguise g e s) = mapNext (disguise g e) (exec i s) := by
  have hfinish : ∀ x : Exec State, finish (disguise g e <$> x) = mapNext (disguise g e) (finish x) := by
    rintro ((f | r) | t) <;> rfl
  simp only [exec_eq, runFar, runNear, disguise_requireSegments, disguise_operandSize, disguise_farReturn,
    disguise_nearReturn, ← map_bind, ← apply_ite (disguise g e <$> ·), hfinish]

end

/-! ## The two non-interference statements -/

/-- Changed next states agree where the changes agree on the state reached. -/
theorem mapNext_congr {φ ψ : State → State} {o : Host.Outcome State Fault Refusal}
    (h : ∀ t, o = .next t → φ t = ψ t) : mapNext φ o = mapNext ψ o := by
  cases o with
  | next t => exact congrArg _ (h t rfl)
  | fault f => rfl
  | refused r => rfl

/-- Settles O12: other flags of the same VM are a disguise, and no form writes a flag. -/
theorem flagsAreNotWrittenAndOnlyVmIsRead : Obligations.FlagsAreNotWrittenAndOnlyVmIsRead := by
  intro i s e hvm
  refine ⟨fun t h => ?_, ?_⟩
  · obtain ⟨-, heflags, -, -⟩ := exec_frame h
    exact heflags
  have hvm : e.getLsbD 17 = s.vm := hvm
  have hs : { s with eflags := e } = disguise s.gprs e s := by
    simp only [disguise, if_pos hvm]
  rw [hs, exec_disguise]
  refine mapNext_congr fun t h => ?_
  obtain ⟨hgprs, heflags, -, -⟩ := exec_frame h
  simp only [disguise, vm_congr heflags, ← hgprs, if_pos hvm]

/-- Settles O13: other general registers are a disguise that keeps every flag, and no form writes one. -/
theorem otherGeneralRegistersAreUntouched : Obligations.OtherGeneralRegistersAreUntouched := by
  intro i s g
  refine ⟨fun t h => ?_, ?_⟩
  · obtain ⟨hgprs, -, -, -⟩ := exec_frame h
    exact hgprs
  have hs : { s with gprs := g } = disguise g s.eflags s := by
    simp only [disguise, ite_self]
  rw [hs, exec_disguise]
  refine mapNext_congr fun t h => ?_
  obtain ⟨-, heflags, -, -⟩ := exec_frame h
  simp only [disguise, ← heflags, ite_self]

end Sys2Proof.Proofs
end

section
/-! SUPPORT. What every step keeps of memory and of the shadow-stack pointer, and what the token free does. -/

namespace Sys2Proof.Proofs

open Sys2Proof.Machine Sys2Proof.Laws

/-! ## Canonical memory -/

/-- Settles O9: an outer return is the one path that writes memory, and it writes a token. -/
theorem stepKeepsMemoryCanonical : Obligations.StepKeepsMemoryCanonical := by
  intro s t hwf h
  obtain ⟨i, -, hexec⟩ := step_eq_next h
  cases exec_effect hexec with
  | near _ ht => rwa [ht]
  | real _ _ _ ht => rwa [ht]
  | sameLevel _ _ _ _ _ _ _ _ _ _ ht => rwa [ht]
  | outerLevel _ _ _ _ _ _ _ _ _ _ _ hmem _ =>
    rcases hmem with hkept | ⟨-, hfreed⟩
    · rwa [hkept]
    · rw [hfreed]
      exact wf_of_token s.mem _ _ hwf

/-! ## Alignment of the shadow-stack pointer -/

/-- 4-byte alignment of a shadow-stack pointer (R58). -/
abbrev WordAligned (v : Word) : Prop := v.extractLsb' 0 2 = 0#2

theorem wordAligned_iff {v : Word} : WordAligned v ↔ v.toNat % 4 = 0 := by
  rw [WordAligned, ← BitVec.toNat_inj, BitVec.extractLsb'_toNat]
  simp

/-- The two parts of the invariant of O11. -/
theorem sspWordAligned_iff {s : State} :
    s.sspWordAligned = true ↔ WordAligned s.ssp ∧ WordAligned s.sys.pl3Ssp := by
  simp [State.sspWordAligned]

/-- Moving past whole 4-byte units keeps the alignment (R59). -/
theorem wordAligned_add {v : Word} {k : Nat} (hv : WordAligned v) (hk : k % 4 = 0) :
    WordAligned (v + BitVec.ofNat 64 k) := by
  rw [wordAligned_iff] at hv ⊢
  rw [BitVec.toNat_add, BitVec.toNat_ofNat]
  omega

theorem nearShadowBytes_mod (n : Width) : nearShadowBytes n % 4 = 0 := by cases n <;> rfl

/-- A near return moves SSP past a whole entry (R93 to R95). -/
theorem nearReturn_wordAligned {n : Width} {imm : Option (BitVec 16)} {s t : State} (hssp : WordAligned s.ssp)
    (h : nearReturn n imm s = .ok t) : WordAligned t.ssp := by
  obtain ⟨-, v, -, -, -, rfl⟩ := nearReturn_eq_ok.mp h
  rw [release_ssp]
  cases s.shadowStackEnabled s.cpl
  · exact hssp
  · exact wordAligned_add hssp (nearShadowBytes_mod n)

/-- A same-level far return keeps SSP or loads the saved one, whose alignment the frame's tests ask (R133, R163). -/
theorem sameLevel_wordAligned {f : FarTarget} {s t : State} (hssp : WordAligned s.ssp)
    (h : s.sameLevel f = .ok t) : WordAligned t.ssp := by
  obtain ⟨-, h⟩ := sameLevel_eq_ok.mp h
  rcases sameShadowStep_eq_ok.mp h with ⟨-, rfl⟩ | ⟨-, -, prev, ⟨-, -, -, hprev⟩, -, rfl⟩
  · simpa using hssp
  · exact hprev

/-- The tests at the old level leave SSP aligned, and a saved SSP they answer is aligned (R142, R172). -/
theorem outerShadowTests_wordAligned {s t : State} {c : BitVec 2} {saved : Option Word} (hssp : WordAligned s.ssp)
    (h : s.outerShadowTests c = .ok (saved, t)) :
    t.sys = s.sys ∧ WordAligned t.ssp ∧ ∀ prev, saved = some prev → WordAligned prev := by
  rcases outerShadowTests_eq_ok.mp h with
    ⟨-, rfl, rfl⟩ | ⟨-, -, -, rfl, rfl⟩ | ⟨-, -, -, prev, ⟨-, -, -, hprev⟩, rfl, rfl⟩
  · exact ⟨rfl, hssp, by simp⟩
  · exact ⟨rfl, hssp, by simp⟩
  · exact ⟨rfl, wordAligned_add hssp (k := 24) rfl, by simpa using hprev⟩

/-- The switch loads IA32_PL3_SSP or the saved SSP (R144, R174). -/
theorem switchSsp_wordAligned {s t : State} {saved : Option Word} (hssp : WordAligned s.ssp)
    (hpl3 : WordAligned s.sys.pl3Ssp) (hsaved : ∀ prev, saved = some prev → WordAligned prev)
    (h : s.switchSsp saved = .ok t) : WordAligned t.ssp := by
  rcases switchSsp_eq_ok.mp h with ⟨-, rfl⟩ | ⟨-, v, hv, -, rfl⟩
  · exact hssp
  · split at hv
    · cases hv
      exact hpl3
    · exact hsaved v hv

/-- The token free leaves SSP (R145, R175). -/
theorem freeOldToken_ssp {s t : State} {en : Bool} {old : Word} (h : s.freeOldToken en old = .ok t) :
    t.ssp = s.ssp := by
  rcases freeOldToken_eq_ok.mp h with ⟨-, rfl⟩ | ⟨-, cur, -, rfl⟩
  · rfl
  · split <;> rfl

theorem outerLevel_wordAligned {f : FarTarget} {s t : State} {cs ss : SegReg} {esp : Word} (hssp : WordAligned s.ssp)
    (hpl3 : WordAligned s.sys.pl3Ssp) (h : s.outerLevel f cs esp ss = .ok t) : WordAligned t.ssp := by
  obtain ⟨saved, s2, s4, s5, h2, h4, h5, rfl⟩ := outerLevel_eq_ok.mp h
  obtain ⟨hsys, hssp2, hsaved⟩ := outerShadowTests_wordAligned (s := s.enterCode f cs) hssp h2
  rw [release_ssp, clearDataSegs_ssp, freeOldToken_ssp h5]
  refine switchSsp_wordAligned ?_ ?_ hsaved h4
  · exact hssp2
  · rw [hsys]
    exact hpl3

theorem exec_wordAligned {i : Instr} {s t : State} (hssp : WordAligned s.ssp) (hpl3 : WordAligned s.sys.pl3Ssp)
    (h : exec i s = .next t) : WordAligned t.ssp := by
  obtain ⟨n, u, -, rfl, hu⟩ := exec_eq_next.mp h
  show WordAligned u.ssp
  split at hu
  · cases hmode : s.realOrV86 with
    | true =>
      simp only [farReturn, hmode, if_true] at hu
      rw [realFarReturn_frame hu]
      exact hssp
    | false =>
      obtain ⟨ip, rcs, d, -, -, ⟨-, hu⟩ | ⟨-, esp, ss, hu⟩⟩ := farReturn_path hmode hu
      · exact sameLevel_wordAligned hssp hu
      · exact outerLevel_wordAligned hssp hpl3 hu
  · exact nearReturn_wordAligned hssp hu

/-- Settles O11: each path moves SSP by whole entries or loads an aligned value. -/
theorem stepKeepsSspWordAligned : Obligations.StepKeepsSspWordAligned := by
  intro s t hal h
  obtain ⟨hssp, hpl3⟩ := sspWordAligned_iff.mp hal
  obtain ⟨i, -, hexec⟩ := step_eq_next h
  obtain ⟨-, -, hsys, -⟩ := exec_frame hexec
  exact sspWordAligned_iff.mpr ⟨exec_wordAligned hssp hpl3 hexec, hsys ▸ hpl3⟩

/-! ## The token free -/

/-- Settles O43: the eight bytes stored are read back, the others are none of them, and nothing decides whether an
access is refused but the state outside memory. -/
theorem tokenFreeClearsTheBusyBit : Obligations.TokenFreeClearsTheBusyBit := by
  intro s t old cur hcur hfree
  obtain ⟨cur', hcur', rfl⟩ := lockCmpxchg8b_eq_ok.mp hfree
  obtain rfl : cur = cur' := Except.ok.inj (hcur.symm.trans hcur')
  refine ⟨fun hidle => if_neg hidle, fun hbusy => ?_⟩
  rw [if_pos hbusy]
  refine ⟨rfl, ?_, fun b hb => readByte_writeLE_other s.mem 8 old.toNat old.toNat hb⟩
  obtain ⟨hpass, -⟩ := memRead_eq_ok.mp hcur
  have h8 : 8 ≤ 2 ^ s.linearBits := by
    unfold State.linearBits
    split <;> decide
  have hold : BitVec.ofNat 64 (old.toNat % 256 ^ 8) = old := by
    rw [Nat.mod_eq_of_lt (by simpa using old.isLt), BitVec.ofNat_toNat, BitVec.setWidth_eq]
  exact memRead_eq_ok.mpr ⟨hpass, _, readLE_writeLE s.mem 8 old.toNat old.toNat h8, hold.symm⟩

end Sys2Proof.Proofs
end

section
/-! SUPPORT. Where a refused access, a clear accessed bit or an item past the top of the stack ends each path. -/

namespace Sys2Proof.Proofs

open Sys2Proof.Machine Sys2Proof.Laws

/-! ## `exec` as the procedure of its path -/

/-- A near return that is ready runs its procedure (R92). -/
theorem exec_near {i : Instr} {s : State} {n : Width} (hf : i.isFar = false) (hr : s.ready i n) :
    exec i s = finish (nearReturn n i.imm s) := by
  rw [exec_eq_near hf, runNear_of_ready hf hr]

/-- A far return that is ready in real-address or virtual-8086 mode runs its procedure (R112). -/
theorem exec_real {i : Instr} {s : State} {n : Width} (hf : i.isFar = true) (hr : s.ready i n)
    (hmode : s.realOrV86 = true) : exec i s = finish (realFarReturn n i.imm s) := by
  rw [exec_eq_far hf, runFar_of_ready hf hr, farReturn, if_pos hmode]

/-- The path of a far return in protected or IA-32e mode once its code segment has passed (R129, R159). -/
def farPath (f : FarTarget) (s : State) : Exec State :=
  if s.cpl < rpl f.rcs then (if s.ia32e then ia32eOuter else protOuter) f s
  else (if s.ia32e then ia32eSame else protSame) f s

/-- A far return in protected or IA-32e mode: stack test, items, code segment, path (R120 to R129, R150 to R159). -/
theorem farReturn_eq_farPath {s : State} {n : Width} {imm : Option (BitVec 16)} (hmode : s.realOrV86 = false) :
    farReturn n imm s = (do
      require (s.farStackOk n (2 * n.bytes)) (.ss 0)
      let (ip, rcs) ← s.readTarget s.stackAddressSize n
      let d ← s.checkCodeSegment rcs
      farPath { n := n, imm := imm, a := s.stackAddressSize, ip := ip, rcs := rcs, d := d } s) := by
  rw [farReturn_segmented hmode, farStackOk_eq]
  unfold farPath
  cases s.ia32e <;> rfl

/-- The same of a far return that is ready. -/
theorem exec_farPath {i : Instr} {s : State} {n : Width} (hf : i.isFar = true) (hr : s.ready i n)
    (hs : s.segmented = true) :
    exec i s = finish (do
      require (s.farStackOk n (2 * n.bytes)) (.ss 0)
      let (ip, rcs) ← s.readTarget s.stackAddressSize n
      let d ← s.checkCodeSegment rcs
      farPath { n := n, imm := i.imm, a := s.stackAddressSize, ip := ip, rcs := rcs, d := d } s) := by
  rw [exec_eq_far hf, runFar_of_ready hf hr, farReturn_eq_farPath]
  simpa [State.segmented] using hs

/-- An outer return first tests the stack for the whole frame and reads the stack selector (R135, R165). -/
theorem farPath_outer {s : State} {f : FarTarget} (hlevel : s.cpl < rpl f.rcs) (ha : f.a = s.stackAddressSize) :
    ∃ rest : Selector → Exec State, farPath f s = (do
      require (s.farStackOk f.n (4 * f.n.bytes + srcBytes f.imm)) (.ss 0)
      let rss ← s.readSelector s.stackAddressSize (3 * f.n.bytes + srcBytes f.imm) f.n
      rest rss) := by
  rw [farPath, if_pos hlevel, farStackOk_eq, ← ha]
  cases s.ia32e
  · exact ⟨_, rfl⟩
  · exact ⟨_, rfl⟩

/-! ## Refused accesses, operation by operation -/

theorem stackRead_of_refuses {s : State} {a n : Width} {k : Nat}
    (h : s.refuses .dataRead (s.stackAddr a k) n.bytes) : s.stackRead a k n = .error (.fault .memFault) :=
  memRead_of_refuses h

theorem readSelector_of_refuses {s : State} {a n : Width} {k : Nat}
    (h : s.refuses .dataRead (s.stackAddr a k) n.bytes) : s.readSelector a k n = .error (.fault .memFault) :=
  readSelector_eq_error.mpr (stackRead_of_refuses h)

theorem readDesc_of_refuses {s : State} {sel : Selector} (h : s.refuses .descriptorRead (s.descAddr sel) 8) :
    s.readDesc sel = .error (.fault .memFault) :=
  readDesc_eq_error.mpr (memRead_of_refuses h)

/-- The canonical test of a descriptor address is made in IA-32e mode only (R153, R167). -/
theorem descriptorRange_of_imp {s : State} {sel : Selector}
    (h : s.ia32e = true → s.rangeCanonical (s.descAddr sel) 8 = true) :
    (!s.ia32e || s.rangeCanonical (s.descAddr sel) 8) = true := by
  cases hmode : s.ia32e with
  | false => rfl
  | true => simp [h hmode]

/-- The code descriptor is read after the null, limit and canonical tests (R122, R151 to R153). -/
theorem checkCodeSegment_of_refuses {s : State} {rcs : Selector} (hnull : isNull rcs = false)
    (hlimit : s.beyondLimit rcs = false) (hcanon : s.ia32e = true → s.rangeCanonical (s.descAddr rcs) 8 = true)
    (h : s.refuses .descriptorRead (s.descAddr rcs) 8) : s.checkCodeSegment rcs = .error (.fault .memFault) := by
  simp only [State.checkCodeSegment, hnull, hlimit, descriptorRange_of_imp hcanon, readDesc_of_refuses h,
    Bool.not_false, require_true, ok_bind, error_bind]

/-- The stack descriptor is read after the limit and canonical tests (R137, R167). -/
theorem checkStackSegment_of_refuses {s : State} {rcs rss : Selector} (hlimit : s.beyondLimit rss = false)
    (hcanon : s.ia32e = true → s.rangeCanonical (s.descAddr rss) 8 = true)
    (h : s.refuses .descriptorRead (s.descAddr rss) 8) : s.checkStackSegment rcs rss = .error (.fault .memFault) := by
  simp only [State.checkStackSegment, hlimit, descriptorRange_of_imp hcanon, readDesc_of_refuses h, Bool.not_false,
    require_true, ok_bind, error_bind]

/-- With a shadow stack a near return reads an entry at SSP (R93 to R95). -/
theorem nearShadowStep_of_refuses {s : State} {n : Width} (hen : s.shadowStackEnabled s.cpl = true)
    (h : s.refuses .shadowRead s.ssp (nearShadowBytes n)) : s.nearShadowStep n = .error (.fault .memFault) := by
  have hpop : s.shadowPop (nearShadowBytes n) = .error (.fault .memFault) :=
    shadowPop_eq_error.mpr (memRead_of_refuses h)
  simp only [State.nearShadowStep, hen, if_true, hpop, error_bind]

/-- With a shadow stack a same-level far return reads the frame after the alignment test (R133, R163). -/
theorem sameShadowStep_of_refuses {s : State} (hen : s.shadowStackEnabled s.cpl = true) (hal : s.sspAligned = true)
    (h : s.refusesFarFrame) : s.sameShadowStep = .error (.fault .memFault) := by
  simp only [State.sameShadowStep, hen, if_true, hal, require_true, ok_bind, shadowFrame_of_refuses h, error_bind]

/-- The token free makes one locked access (R60, R145, R175). -/
theorem freeOldToken_of_refuses {s : State} {old : Word} (h : s.refuses .shadowLockedWrite old 8) :
    s.freeOldToken true old = .error (.fault .memFault) := by
  simp only [State.freeOldToken, if_true, State.freeToken, State.lockCmpxchg8b, memRead_of_refuses h]

/-! ## Near return -/

/-- The target test reads nothing a pop changes (R93 to R95). -/
theorem nearTargetOk_addSp (s : State) (a n : Width) (k : Nat) (v : Word) :
    (s.addSp a k).nearTargetOk n v = s.nearTargetOk n v := by
  cases n <;> rfl

/-- The item read and its target passed, a near return takes its shadow-stack step and releases (R93 to R96). -/
theorem nearReturn_of_target {s : State} {n : Width} {imm : Option (BitVec 16)} {v : Word}
    (hst : s.nearStackOk s.stackAddressSize n = true) (hv : s.stackRead s.stackAddressSize 0 n = .ok v)
    (ht : s.nearTargetOk n v = true) :
    nearReturn n imm s = (do
      let t ← ((s.addSp s.stackAddressSize n.bytes).writeIp n v).nearShadowStep n
      .ok (t.release s.stackAddressSize imm)) := by
  have hpop : s.pop s.stackAddressSize n = .ok (v, s.addSp s.stackAddressSize n.bytes) := pop_eq_ok.mpr ⟨hv, rfl⟩
  simp only [nearReturn, hst, hpop, nearTargetOk_addSp, ht, require_true, ok_bind]

/-- Settles O47: the two accesses of a near return, each with what precedes it passed. -/
theorem refusedNearAccessIsMemFault : Obligations.RefusedNearAccessIsMemFault := by
  intro i s n hf hr hst
  rw [exec_near hf hr, finish_eq_fault]
  refine ⟨fun href => ?_, fun v hv ht hen href => ?_⟩
  · have hpop : s.pop s.stackAddressSize n = .error (.fault .memFault) :=
      pop_eq_error.mpr (stackRead_of_refuses href)
    simp only [nearReturn, hst, hpop, require_true, ok_bind, error_bind]
  · have hstep : ((s.addSp s.stackAddressSize n.bytes).writeIp n v).nearShadowStep n = .error (.fault .memFault) :=
      nearShadowStep_of_refuses hen href
    rw [nearReturn_of_target hst hv ht, hstep, error_bind]

/-! ## Far return in real-address and virtual-8086 mode -/

/-- Settles O48: the two accesses of the far return, each with what precedes it passed. -/
theorem refusedRealFarAccessIsMemFault : Obligations.RefusedRealFarAccessIsMemFault := by
  intro i s n hf hr hmode hst
  rw [exec_real hf hr hmode, finish_eq_fault]
  refine ⟨fun href => ?_, fun v hv ht href => ?_⟩
  · have hpop : s.pop s.stackAddressSize n = .error (.fault .memFault) :=
      pop_eq_error.mpr (stackRead_of_refuses href)
    simp only [realFarReturn, hst, hpop, require_true, ok_bind, error_bind]
  · set s1 := s.addSp s.stackAddressSize n.bytes
    have hpop1 : s.pop s.stackAddressSize n = .ok (v, s1) := pop_eq_ok.mpr ⟨hv, rfl⟩
    have hread : (s1.writeIp n v).stackRead s.stackAddressSize 0 n = .error (.fault .memFault) :=
      (stackRead_addSp s s.stackAddressSize n n.bytes 0).trans (stackRead_of_refuses href)
    have ht1 : s1.codeWithin v s1.cs.desc = true := ht
    simp only [realFarReturn, hst, hpop1, ht1, pop_eq_error.mpr hread, require_true, ok_bind, error_bind]

/-! ## Far return in protected and IA-32e mode -/

/-- Target and code descriptor passed, a return to the same level takes its shadow-stack step in the state with the new
CS, RIP and stack pointer (R131 to R133, R161 to R163). -/
theorem sameLevel_of_accessed {s : State} {f : FarTarget} (hacc : f.d.accessed = true) :
    s.sameLevel f = (((s.enterCode f { sel := f.rcs, hidden := some f.d }).addSp f.a (2 * f.n.bytes)).release f.a
      f.imm).sameShadowStep := by
  simp only [State.sameLevel, loadSeg_eq_ok.mpr ⟨hacc, rfl⟩, ok_bind]

/-- What a refused frame read asks is the same in a state with the same memory, oracle, mode and SSP. -/
theorem refusesFarFrame_congr {s t : State} (hm : t.mem = s.mem) (hf : t.memFaults = s.memFaults) (hs : t.sys = s.sys)
    (he : t.eflags = s.eflags) (hp : t.ssp = s.ssp) : t.refusesFarFrame ↔ s.refusesFarFrame := by
  simp only [State.refusesFarFrame, State.refuses, sspLoad_congr hm hf hs he hp, linearBits_congr hs he, hf, hp]

/-- Settles O49: the items, the code descriptor and the frame of a same-level return, each with what precedes it
passed. -/
theorem refusedFarAccessIsMemFault : Obligations.RefusedFarAccessIsMemFault := by
  intro i s n hf hr hs h1
  refine ⟨fun href => ?_, fun ip hip href => ?_, fun ip rcs h2 => ⟨fun hnull hlimit hcanon href => ?_,
    fun d h3 h4 h5 hacc hen hal href => ?_⟩⟩
  · have hread : s.readTarget s.stackAddressSize n = .error (.fault .memFault) := by
      simp only [State.readTarget, stackRead_of_refuses href, error_bind]
    rw [exec_farPath hf hr hs, finish_eq_fault]
    simp only [h1, hread, require_true, ok_bind, error_bind]
  · have hread : s.readTarget s.stackAddressSize n = .error (.fault .memFault) := by
      simp only [State.readTarget, hip, readSelector_of_refuses href, ok_bind, error_bind]
    rw [exec_farPath hf hr hs, finish_eq_fault]
    simp only [h1, hread, require_true, ok_bind, error_bind]
  · rw [exec_after_read hf hr hs h1 h2, checkCodeSegment_of_refuses hnull hlimit hcanon href, error_bind]
    rfl
  · rw [exec_same hf hr hs h1 h2 h3 h4, h5, require_true, ok_bind, sameLevel_of_accessed hacc, finish_eq_fault]
    apply sameShadowStep_of_refuses
    · rw [shadowStackEnabled_congr (s := s) (by simp) (by simp)]
      simpa using hen
    · simpa [State.sspAligned] using hal
    · exact (refusesFarFrame_congr (by simp) (by simp) (by simp) (by simp) (by simp)).mpr href

/-! ## Far return to an outer level -/

/-- With a shadow stack a return to level 1 or 2 reads the frame after the alignment test (R142, R172). -/
theorem outerShadowTests_of_refuses {s : State} {c : BitVec 2} (hen : s.shadowStackEnabled s.cpl = true)
    (hal : s.sspAligned = true) (hc : c ≠ 3#2) (h : s.refusesFarFrame) :
    s.outerShadowTests c = .error (.fault .memFault) := by
  rw [outerShadowTests_of_frame hen hal hc, shadowFrame_of_refuses h, error_bind]

/-- The tests at the old level pass: SSP is the address of the token, and on a return to level 1 or 2 the saved SSP is
that of the frame (R142, R172). -/
theorem outerShadowTests_enterCode {s : State} {f : FarTarget} {prev : Word} (hip : truncTo f.n f.ip = f.ip)
    (hen : s.shadowStackEnabled s.cpl = true) (hal : s.sspAligned = true)
    (hframe : rpl f.rcs ≠ 3#2 → s.farFrameIs f.rcs (s.lipIn f.d f.ip) prev) :
    (s.enterCode f { sel := f.rcs, hidden := some f.d }).outerShadowTests (rpl f.rcs) =
      .ok (if rpl f.rcs = 3#2 then none else some prev,
        { s.enterCode f { sel := f.rcs, hidden := some f.d } with ssp := s.tokenAddress (rpl f.rcs) }) := by
  set w := s.enterCode f { sel := f.rcs, hidden := some f.d } with hw
  have henw : w.shadowStackEnabled w.cpl = true := hen
  by_cases hc : rpl f.rcs = 3#2
  · rw [hc, outerShadowTests_level3 (s := w) fun _ => hal]
    rfl
  · have hlip : w.lip = s.lipIn f.d f.ip := lip_enter w rfl (by simp [hw, hip]) rfl rfl
    have hfw : w.farFrameIs w.cs.sel w.lip prev := by
      rw [hlip, farFrameIs_congr (s := s) (t := w) rfl rfl rfl rfl rfl]
      exact hframe hc
    rw [outerShadowTests_of_frame henw hal hc, shadowFrame_eq_ok_iff_frame.mpr ⟨hfw, rfl⟩]
    simp [hc, State.tokenAddress, hw]

/-- The switch passes, and changes SSP only (R144, R174). -/
theorem switchSsp_of_in_range {s : State} {saved : Option Word} {v : Word}
    (h : s.shadowStackEnabled s.cpl = true →
      (if s.cpl = 3#2 then some s.sys.pl3Ssp else saved) = some v ∧ s.newSspOk v = true) :
    ∃ p, s.switchSsp saved = .ok { s with ssp := p } := by
  cases hen : s.shadowStackEnabled s.cpl with
  | false => exact ⟨s.ssp, switchSsp_eq_ok.mpr (.inl ⟨hen, rfl⟩)⟩
  | true =>
    obtain ⟨hv, hok⟩ := h hen
    exact ⟨v, switchSsp_eq_ok.mpr (.inr ⟨hen, v, hv, hok, rfl⟩)⟩

/-- The locked access to the token, the last of an outer return, refused (R145, R175). -/
theorem outerLevel_of_token_refused {s : State} {f : FarTarget} {ss : SegReg} {esp prev v : Word}
    (hip : truncTo f.n f.ip = f.ip) (hen : s.shadowStackEnabled s.cpl = true) (hal : s.sspAligned = true)
    (hframe : rpl f.rcs ≠ 3#2 → s.farFrameIs f.rcs (s.lipIn f.d f.ip) prev)
    (hnew : s.shadowStackEnabled (rpl f.rcs) = true →
      v = (if rpl f.rcs = 3#2 then s.sys.pl3Ssp else prev) ∧ s.sspOkIn f.d v = true)
    (href : s.refuses .shadowLockedWrite (s.tokenAddress (rpl f.rcs)) 8) :
    s.outerLevel f { sel := f.rcs, hidden := some f.d } esp ss = .error (.fault .memFault) := by
  set w := s.enterCode f { sel := f.rcs, hidden := some f.d }
  set s2 : State := { w with ssp := s.tokenAddress (rpl f.rcs) }
  set s3 : State := { s2 with cpl := rpl f.rcs, rsp := StackPointer.load f.n s2.draws esp, ss := ss }
  obtain ⟨p, hswitch⟩ : ∃ p,
      s3.switchSsp (if rpl f.rcs = 3#2 then none else some prev) = .ok { s3 with ssp := p } := by
    refine switchSsp_of_in_range (v := v) fun henNew => ?_
    obtain ⟨hv, hok⟩ := hnew henNew
    refine ⟨?_, (newSspOk_enter (s := s) s3 rfl rfl rfl v).trans hok⟩
    show (if rpl f.rcs = 3#2 then some s.sys.pl3Ssp else if rpl f.rcs = 3#2 then none else some prev) = some v
    rw [hv]
    split <;> rfl
  have hfree : State.freeOldToken { s3 with ssp := p } (s2.shadowStackEnabled s2.cpl) s2.ssp
      = .error (.fault .memFault) := by
    rw [show s2.shadowStackEnabled s2.cpl = true from hen]
    exact freeOldToken_of_refuses href
  rw [State.outerLevel, outerShadowTests_enterCode hip hen hal hframe, ok_bind]
  show (s3.switchSsp _ >>= _) = _
  rw [hswitch, ok_bind, hfree, error_bind]

/-- Settles O50: the accesses of an outer return in their order, each with what precedes it passed. -/
theorem refusedOuterAccessIsMemFault : Obligations.RefusedOuterAccessIsMemFault := by
  intro i s n ip rcs d hf hr hs h1 h2 h3 h4 h5
  set f : FarTarget := { n := n, imm := i.imm, a := s.stackAddressSize, ip := ip, rcs := rcs, d := d }
  have hip : truncTo f.n f.ip = f.ip := truncTo_of_readTarget h2
  refine ⟨fun href => ?_, fun rss h6 => ⟨fun hnull hlimit hcanon href => ?_,
    fun ss hpasses h8 hacc => ⟨fun href => ?_, fun esp h9 hss hen hal => ⟨fun hc href => ?_,
      fun prev v hframe hnew href => ?_⟩⟩⟩⟩
  · obtain ⟨rest, hrest⟩ := farPath_outer (f := f) h4 rfl
    rw [exec_farPath hf hr hs, finish_eq_fault]
    simp only [h1, h2, h3, require_true, ok_bind]
    rw [hrest]
    simp only [f, h5, readSelector_of_refuses href, require_true, ok_bind, error_bind]
  · have hcheck : s.checkStackSegment rcs rss = .error (.fault .memFault) :=
      checkStackSegment_of_refuses hlimit hcanon href
    rw [exec_outer hf hr hs h1 h2 h3 h4 h5 h6, finish_eq_fault]
    cases s.ia32e <;>
      simp only [State.ia32eStackSegment, hnull, hcheck, if_true, Bool.false_eq_true, if_false, Bool.not_false,
        require_true, ok_bind, error_bind]
  · have hcs : loadSeg rcs d = .ok { sel := rcs, hidden := some d } := loadSeg_eq_ok.mpr ⟨hacc, rfl⟩
    rw [exec_outer_passed hf hr hs h1 h2 h3 h4 h5 h6 hpasses, finish_eq_fault]
    simp only [h8, hcs, stackRead_of_refuses href, require_true, ok_bind, error_bind]
  · rw [exec_outer_loaded hf hr hs h1 h2 h3 h4 h5 h6 hss h8 hacc h9, finish_eq_fault]
    exact outerLevel_of_tests_error (outerShadowTests_of_refuses hen hal hc href)
  · rw [exec_outer_loaded hf hr hs h1 h2 h3 h4 h5 h6 hss h8 hacc h9, finish_eq_fault]
    exact outerLevel_of_token_refused hip hen hal hframe hnew href

/-! ## The accessed bit -/

theorem loadSeg_of_clear {sel : Selector} {d : Descriptor} (h : d.accessed = false) :
    loadSeg sel d = .error (.refused .accessedBitClear) :=
  loadSeg_eq_error.mpr ⟨h, rfl⟩

theorem requireAccessed_of_clear {r : SegReg} {d : Descriptor} (hr : r.hidden = some d) (h : d.accessed = false) :
    requireAccessed r = .error (.refused .accessedBitClear) := by
  simp only [requireAccessed, hr, h, premise_false]

/-- Settles O42: the three loads, each with what precedes it passed. -/
theorem clearAccessedBitIsRefused : Obligations.ClearAccessedBitIsRefused := by
  intro i s n ip rcs d hf hr hs h1 h2 h3 h4
  refine ⟨fun hsame hclear => ?_, fun houter h5 rss ss h6 hpasses => ⟨fun hclear => ?_,
    fun hacc esp ds hesp hds hclear => ?_⟩⟩
  · rw [exec_same hf hr hs h1 h2 h3 hsame, finish_eq_refused]
    simp only [h4, State.sameLevel, loadSeg_of_clear hclear, require_true, ok_bind, error_bind]
  · rw [exec_outer_passed hf hr hs h1 h2 h3 houter h5 h6 hpasses, finish_eq_refused]
    simp only [h4, loadSeg_of_clear hclear, require_true, ok_bind, error_bind]
  · have hcs : loadSeg rcs d = .ok { sel := rcs, hidden := some d } := loadSeg_eq_ok.mpr ⟨hacc, rfl⟩
    rw [exec_outer_passed hf hr hs h1 h2 h3 houter h5 h6 hpasses, finish_eq_refused]
    simp only [h4, hcs, hesp, requireAccessed_of_clear hds hclear, require_true, ok_bind, error_bind]

/-! ## The top of the stack segment -/

/-- Outside 64-bit mode the stack-address size is that of the offset space (R54, R77). -/
theorem topOffset_eq {s : State} (ha : s.stackAddressSize ≠ .w64) :
    s.in64 = false ∧ s.ss.desc.topOffset + 1 = 2 ^ s.stackAddressSize.bits := by
  unfold State.stackAddressSize at ha ⊢
  cases h64 : s.in64
  · cases hdb : s.ss.desc.db <;> simp [Descriptor.topOffset, hdb, Width.bits]
  · simp [h64] at ha

/-- Bytes past the top of the offset space are outside, whatever the limit (R54; log 40). -/
theorem stackWithin_past_top {s : State} {k : Nat} (ha : s.stackAddressSize ≠ .w64)
    (h : 2 ^ s.stackAddressSize.bits < (s.sp s.stackAddressSize).toNat + k) :
    s.stackWithin s.stackAddressSize k = false := by
  obtain ⟨h64, htop⟩ := topOffset_eq ha
  rw [← Bool.not_eq_true, stackWithin_iff, h64]
  rintro (hin | ⟨hle, -⟩)
  · exact absurd hin (by decide)
  · omega

/-- Operand size 64 arises in 64-bit mode only (R76). -/
theorem operandSize_ne_w64 {s : State} {far : Bool} {p : Prefixes} {n : Width} (h64 : s.in64 = false)
    (h : s.operandSize far p = .ok n) : n ≠ .w64 := by
  rintro rfl
  simp only [State.operandSize, h64, Bool.false_eq_true, if_false] at h
  split at h
  · simp at h
  · split at h <;> simp at h

/-- Settles O53: the stack test, the first of every path, fails. -/
theorem itemsPastTheTopAreStackFault : Obligations.ItemsPastTheTopAreStackFault := by
  intro i s n hr ha hpast
  have hw := stackWithin_past_top ha hpast
  cases hf : i.isFar with
  | false =>
    simp only [hf, Bool.false_eq_true, if_false] at hw
    rw [exec_near hf hr, finish_eq_fault]
    simp only [nearReturn, State.nearStackOk, hw, Bool.false_and, require_false, error_bind]
  | true =>
    simp only [hf, if_true] at hw
    cases hmode : s.realOrV86 with
    | true =>
      rw [exec_real hf hr hmode, finish_eq_fault]
      simp only [realFarReturn, hw, require_false, error_bind]
    | false =>
      have hn : n ≠ .w64 := operandSize_ne_w64 (topOffset_eq ha).1 hr.2
      have hst : s.farStackOk n (2 * n.bytes) = false := by simp [State.farStackOk, hw, hn]
      rw [exec_farPath hf hr (by simp [State.segmented, hmode]), finish_eq_fault]
      simp only [hst, require_false, error_bind]

end Sys2Proof.Proofs
end

section
/-! SUPPORT. Which of the two stops `MemFault` and `accessedBitClear` an operation can end in. -/

namespace Sys2Proof.Proofs

open Sys2Proof.Machine Sys2Proof.Laws

/-! ## Stops that neither a test nor an access answers -/

/-- The stop is no exception of a test (R180 to R187), and no memory access in the state ends in it. -/
structure Unraised (e : Stop) (s : State) : Prop where
  exception : ∀ f, e = .fault f → f = .memFault
  read : ∀ k a n, Avoids e (s.memRead k a n)

/-- A sequence that ends in a stop its first part avoids ends in it later. -/
theorem ok_of_avoids {e : Stop} {α β : Type} {x : Exec α} {g : α → Exec β} (hx : Avoids e x)
    (h : (x >>= g) = .error e) : ∃ a, x = .ok a ∧ g a = .error e :=
  (bind_eq_error.mp h).resolve_left hx

/-- A sequence that is refused has passed the test it begins with. -/
theorem passed_of_refused {r : Refusal} {α : Type} {b : Bool} {f : Fault} {g : Unit → Exec α}
    (h : (require b f >>= g) = .error (.refused r)) : b = true ∧ g () = .error (.refused r) := by
  obtain ⟨_, hb, h⟩ := ok_of_avoids (by simp) h
  exact ⟨require_eq_ok.mp hb, h⟩

/-- Without a refused access, `MemFault` is such a stop (R52, R193). -/
theorem unraised_memFault {s : State} (h : ∀ k a n, ¬ s.refuses k a n) : Unraised (.fault .memFault) s where
  exception := by simp
  read k a n := by
    have hpass : s.memRefused k a n = false := by simpa [State.memRefused] using h k a n
    unfold Avoids State.memRead
    rw [hpass]
    cases s.mem.readLE s.linearBits n a.toNat <;> simp

/-- The refusal for a clear accessed bit (R61; log 14), as a stop. -/
abbrev clearBit : Stop := .refused .accessedBitClear

/-- It is such a stop in every state. -/
theorem unraised_clearBit (s : State) : Unraised clearBit s where
  exception := by simp
  read k a n h := by rcases memRead_eq_error h with h | h <;> simp at h

namespace Unraised

variable {e : Stop} {s : State}

/-- Accesses depend on memory, the oracle and the address width alone. -/
theorem congr (h : Unraised e s) {t : State} (hm : t.mem = s.mem) (hf : t.memFaults = s.memFaults)
    (hs : t.sys = s.sys) (he : t.eflags = s.eflags) : Unraised e t where
  exception := h.exception
  read k a n := by
    rw [memRead_congr hm hf hs he]
    exact h.read k a n

theorem ne_fault (h : Unraised e s) {f : Fault} (hf : f ≠ .memFault) : e ≠ .fault f :=
  fun he => hf (h.exception f he)

theorem require (h : Unraised e s) {f : Fault} (hf : f ≠ .memFault) (b : Bool) : Avoids e (require b f) :=
  avoids_require.mpr fun _ => h.ne_fault hf

/-! ## The reads -/

theorem stackRead (h : Unraised e s) (a n : Width) (k : Nat) : Avoids e (s.stackRead a k n) := h.read _ _ _

theorem sspLoad (h : Unraised e s) (k : Nat) : Avoids e (s.sspLoad k) := h.read _ _ _

theorem readSelector (h : Unraised e s) (a n : Width) (k : Nat) : Avoids e (s.readSelector a k n) :=
  fun hr => h.stackRead a n k (readSelector_eq_error.mp hr)

theorem readDesc (h : Unraised e s) (sel : Selector) : Avoids e (s.readDesc sel) :=
  fun hr => h.read _ _ _ (readDesc_eq_error.mp hr)

theorem pop (h : Unraised e s) (a n : Width) : Avoids e (s.pop a n) :=
  fun hr => h.stackRead a n 0 (pop_eq_error.mp hr)

theorem shadowPop (h : Unraised e s) (n : Nat) : Avoids e (s.shadowPop n) :=
  fun hr => h.read _ _ _ (shadowPop_eq_error.mp hr)

theorem readTarget (h : Unraised e s) (a n : Width) : Avoids e (s.readTarget a n) := by
  simp [State.readTarget, h.stackRead, h.readSelector]

/-! ## The tests -/

theorem checkCodeSegment (h : Unraised e s) (rcs : Selector) : Avoids e (s.checkCodeSegment rcs) := by
  simp [State.checkCodeSegment, h.readDesc, h.ne_fault]

theorem checkStackSegment (h : Unraised e s) (rcs rss : Selector) : Avoids e (s.checkStackSegment rcs rss) := by
  simp [State.checkStackSegment, h.readDesc, h.ne_fault]

theorem ia32eStackSegment (h : Unraised e s) (f : FarTarget) (rss : Selector) :
    Avoids e (s.ia32eStackSegment f rss) :=
  avoids_ite (fun _ => by simp [h.ne_fault]) fun _ => by simp [h.checkStackSegment]

/-! ## The shadow stack -/

theorem shadowFrame (h : Unraised e s) : Avoids e s.shadowFrame := by
  simp [State.shadowFrame, h.sspLoad, h.ne_fault]

theorem sameShadowStep (h : Unraised e s) : Avoids e s.sameShadowStep :=
  avoids_ite (fun _ => by simp [h.shadowFrame, h.ne_fault]) fun _ => by simp

theorem nearShadowStep (h : Unraised e s) (n : Width) : Avoids e (s.nearShadowStep n) :=
  avoids_ite (fun _ => by simp [h.shadowPop, h.ne_fault]) fun _ => by simp

theorem outerShadowTests (h : Unraised e s) (c : BitVec 2) : Avoids e (s.outerShadowTests c) := by
  refine avoids_ite (fun _ => avoids_bind.mpr ⟨h.require (by simp) _, fun _ _ => ?_⟩) fun _ => by simp
  exact avoids_ite (fun _ => by simp) fun _ => by simp [h.shadowFrame]

theorem switchSsp (h : Unraised e s) (hunset : e ≠ unset) (saved : Option Word) : Avoids e (s.switchSsp saved) := by
  refine avoids_ite (fun _ => ?_) fun _ => by simp
  split
  · exact avoids_refuse.mpr hunset
  · simp [h.ne_fault]

theorem freeOldToken (h : Unraised e s) (en : Bool) (old : Word) : Avoids e (s.freeOldToken en old) := by
  refine avoids_ite (fun _ hr => ?_) fun _ => by simp
  unfold State.freeToken State.lockCmpxchg8b at hr
  split at hr
  · split at hr <;> cases hr
  · rename_i hread
    cases hr
    exact h.read _ _ _ hread

/-! ## The paths -/

theorem nearReturn (h : Unraised e s) (n : Width) (imm : Option (BitVec 16)) : Avoids e (nearReturn n imm s) := by
  simp only [Machine.nearReturn, avoids_bind, Prod.forall, pop_eq_ok]
  refine ⟨h.require (by simp) _, fun _ _ => ⟨h.pop _ _, ?_⟩⟩
  rintro v s1 ⟨-, rfl⟩
  refine ⟨h.require (by simp) _, fun _ _ => ⟨nearShadowStep ?_ n, by simp⟩⟩
  exact h.congr rfl rfl rfl rfl

theorem realFarReturn (h : Unraised e s) (hrelease : e ≠ .refused .realStack16) (n : Width)
    (imm : Option (BitVec 16)) : Avoids e (realFarReturn n imm s) := by
  simp only [Machine.realFarReturn, avoids_bind, Prod.forall, pop_eq_ok]
  refine ⟨h.require (by simp) _, fun _ _ => ⟨h.pop _ _, ?_⟩⟩
  rintro v s1 ⟨-, rfl⟩
  refine ⟨h.require (by simp) _, fun _ _ => ⟨pop ?_ _ _, fun c s2 _ => ?_⟩⟩
  · exact h.congr rfl rfl rfl rfl
  · cases imm <;> simp [State.releaseReal, hrelease]

/-- A same-level return whose load passes (R131 to R133, R161 to R163). -/
theorem sameLevel (h : Unraised e s) {f : FarTarget} (hload : Avoids e (loadSeg f.rcs f.d)) :
    Avoids e (s.sameLevel f) := by
  refine avoids_bind.mpr ⟨hload, fun cs _ => (h.congr ?_ ?_ ?_ ?_).sameShadowStep⟩ <;> simp

/-- An outer return whose loads have passed (R141 to R147, R171 to R177). -/
theorem outerLevel (h : Unraised e s) (hunset : e ≠ unset) (f : FarTarget) (cs ss : SegReg) (esp : Word) :
    Avoids e (s.outerLevel f cs esp ss) := by
  simp only [State.outerLevel, avoids_bind, avoids_ok, implies_true, and_true, Prod.forall]
  have hw : Unraised e (s.enterCode f cs) := h.congr rfl rfl rfl rfl
  refine ⟨hw.outerShadowTests _, fun saved s2 h2 => ?_⟩
  have hs2 : Unraised e s2 := by
    rcases outerShadowTests_eq_ok.mp h2 with ⟨-, -, rfl⟩ | ⟨-, -, -, -, rfl⟩ | ⟨-, -, -, prev, -, -, rfl⟩ <;>
      exact hw.congr rfl rfl rfl rfl
  set s3 : State := { s2 with cpl := rpl f.rcs, rsp := StackPointer.load f.n s2.draws esp, ss := ss }
  have hs3 : Unraised e s3 := hs2.congr rfl rfl rfl rfl
  refine ⟨hs3.switchSsp hunset saved, fun s4 h4 => freeOldToken ?_ _ _⟩
  rcases switchSsp_eq_ok.mp h4 with ⟨-, rfl⟩ | ⟨-, v, -, -, rfl⟩
  · exact hs3
  · exact hs3.congr rfl rfl rfl rfl

end Unraised

/-! ## What `MemFault` means -/

/-- The refusals are no `MemFault`: a far return of protected or IA-32e mode without a refused access does not end in
one. -/
theorem farPath_avoids_memFault {s : State} (h : Unraised (.fault .memFault) s) (f : FarTarget) :
    Avoids (.fault .memFault) (farPath f s) := by
  have hload : ∀ sel d, Avoids (.fault .memFault) (loadSeg sel d) := fun sel d he => by
    simpa using (loadSeg_eq_error.mp he).2
  have hacc : ∀ r, Avoids (.fault .memFault) (requireAccessed r) := fun r => by simp [requireAccessed]
  refine avoids_ite (fun _ => ?_) fun _ => ?_
  · split
    · simp [ia32eOuter, h.readSelector, h.ia32eStackSegment, h.stackRead, hload, hacc, h.outerLevel]
    · simp [protOuter, h.readSelector, h.checkStackSegment, h.stackRead, hload, h.outerLevel]
  · split
    · simp [ia32eSame, h.sameLevel, hload]
    · simp [protSame, h.sameLevel, hload]

theorem farReturn_avoids_memFault {s : State} (h : Unraised (.fault .memFault) s) (n : Width)
    (imm : Option (BitVec 16)) : Avoids (.fault .memFault) (farReturn n imm s) := by
  cases hmode : s.realOrV86 with
  | true =>
    rw [farReturn, if_pos hmode]
    exact h.realFarReturn (by simp) n imm
  | false =>
    rw [farReturn_eq_farPath hmode]
    simp [h.readTarget, h.checkCodeSegment, farPath_avoids_memFault h]

/-- A stop that is none of the three refusals before it is one of the near or far procedure (R76, R211). -/
theorem procedure_of_stop {i : Instr} {s : State} {e : Stop} (hcode : e ≠ .refused .codeSegmentInvalid)
    (hstack : e ≠ .refused .stackSegmentInvalid) (hprefix : e ≠ .refused .prefixNotAdmitted)
    (h : (if i.isFar then runFar i.prefixes i.imm s else runNear i.prefixes i.imm s) = .error e) :
    ∃ n, s.ready i n ∧ (if i.isFar then farReturn n i.imm s else nearReturn n i.imm s) = .error e := by
  have hsegments : Avoids e s.requireSegments := by simp [State.requireSegments, hcode, hstack]
  have hsize : ∀ far, Avoids e (s.operandSize far i.prefixes) := fun far => by
    unfold State.operandSize
    split_ifs <;> simp [hprefix]
  cases hf : i.isFar with
  | false =>
    simp only [hf, Bool.false_eq_true, if_false, runNear] at h
    obtain ⟨_, h1, h⟩ := ok_of_avoids hsegments h
    obtain ⟨n, h2, h⟩ := ok_of_avoids (hsize false) h
    exact ⟨n, ⟨h1, hf ▸ h2⟩, h⟩
  | true =>
    simp only [hf, if_true, runFar] at h
    obtain ⟨_, h1, h⟩ := ok_of_avoids hsegments h
    obtain ⟨n, h2, h⟩ := ok_of_avoids (hsize true) h
    exact ⟨n, ⟨h1, hf ▸ h2⟩, h⟩

/-- Settles O51: where no access is refused, every path avoids `MemFault`. -/
theorem memFaultMeansARefusedAccess : Obligations.MemFaultMeansARefusedAccess := by
  intro i s h
  by_contra hnone
  have hpass : Unraised (.fault .memFault) s :=
    unraised_memFault fun k a n href => hnone ⟨k, a, n, href⟩
  rw [exec_eq, finish_eq_fault] at h
  obtain ⟨n, -, h⟩ := procedure_of_stop (by simp) (by simp) (by simp) h
  split at h
  · exact farReturn_avoids_memFault hpass n i.imm h
  · exact hpass.nearReturn n i.imm h

end Sys2Proof.Proofs
end

section
/-! SUPPORT. The refusal for a clear accessed bit comes from a load, and from no run under AccessedSet. -/

namespace Sys2Proof.Proofs

open Sys2Proof.Machine Sys2Proof.Laws

/-! ## The loads of a far return -/

theorem requireAccessed_eq_error {r : SegReg} {e : Stop} :
    requireAccessed r = .error e ↔ (∃ d, r.hidden = some d ∧ d.accessed = false) ∧ e = clearBit := by
  unfold requireAccessed
  cases r.hidden <;> simp

/-- The stack segment register an outer return is about to load, as its path tests it (R136 to R139, R166 to R169):
the first part of what `exec_outer` leaves to run. -/
abbrev outerStackRegister (s : State) (f : FarTarget) (rss : Selector) : Exec SegReg :=
  if s.ia32e then s.ia32eStackSegment f rss
  else do
    require (!isNull rss) (.gp 0)
    let ds ← s.checkStackSegment f.rcs rss
    .ok { sel := rss, hidden := some ds }

theorem outerStackPasses_of_register {s : State} {f : FarTarget} {rss : Selector} {ss : SegReg}
    (h : outerStackRegister s f rss = .ok ss) : s.outerStackPasses f.rcs rss f.d ss := by
  unfold outerStackRegister at h
  split at h
  · rcases ia32eStackSegment_eq_ok.mp h with ⟨hnull, hl, h3, hrpl, rfl⟩ | ⟨hnull, ds, hds, rfl⟩
    · exact .inr ⟨‹_›, hnull, hl, h3, hrpl, rfl⟩
    · exact .inl ⟨hnull, ds, hds, rfl⟩
  · simp only [bind_eq_ok, require_eq_ok, Bool.not_eq_true', Except.ok.injEq] at h
    obtain ⟨-, hnull, ds, hds, rfl⟩ := h
    exact .inl ⟨hnull, ds, hds, rfl⟩

/-- These tests refuse nothing for a clear accessed bit. -/
theorem outerStackRegister_avoids_clearBit (s : State) (f : FarTarget) (rss : Selector) :
    Avoids clearBit (outerStackRegister s f rss) := by
  have hu := unraised_clearBit s
  exact avoids_ite (fun _ => hu.ia32eStackSegment f rss) fun _ => by simp [hu.checkStackSegment]

/-- A same-level return refused for a clear accessed bit has passed its target test and loads its code descriptor (R130,
R131, R160, R161). -/
theorem clear_of_sameLevel {s : State} {f : FarTarget}
    (h : (do require (s.farTargetOk f.ip f.d) (.gp 0); s.sameLevel f) = .error clearBit) :
    s.farTargetOk f.ip f.d = true ∧ f.d.accessed = false := by
  obtain ⟨ht, h⟩ := passed_of_refused h
  refine ⟨ht, ?_⟩
  by_contra hset
  have hacc : f.d.accessed = true := by simpa using hset
  exact (unraised_clearBit s).sameLevel (by simp [Avoids, loadSeg_eq_error, hacc]) h

/-- An outer return refused for a clear accessed bit after its stack segment has passed its target test, and the code
descriptor has the bit clear, or after the read of the stack pointer the stack descriptor (R140, R141, R170, R171). -/
theorem clear_of_outerLevel {s : State} {f : FarTarget} {ss : SegReg}
    (h : (do
      require (s.farTargetOk f.ip f.d) (.gp 0)
      let cs ← loadSeg f.rcs f.d
      let esp ← s.stackRead f.a (2 * f.n.bytes + srcBytes f.imm) f.n
      requireAccessed ss
      s.outerLevel f cs esp ss) = .error clearBit) :
    s.farTargetOk f.ip f.d = true ∧ (f.d.accessed = false ∨
      (∃ esp, s.stackRead f.a (2 * f.n.bytes + srcBytes f.imm) f.n = .ok esp) ∧
        ∃ ds, ss.hidden = some ds ∧ ds.accessed = false) := by
  have hu := unraised_clearBit s
  obtain ⟨ht, h⟩ := passed_of_refused h
  refine ⟨ht, ?_⟩
  rcases bind_eq_error.mp h with hload | ⟨cs, -, h⟩
  · exact .inl (loadSeg_eq_error.mp hload).1
  · obtain ⟨esp, hesp, h⟩ := ok_of_avoids (hu.stackRead _ _ _) h
    rcases bind_eq_error.mp h with hacc | ⟨-, -, h⟩
    · exact .inr ⟨⟨esp, hesp⟩, (requireAccessed_eq_error.mp hacc).1⟩
    · exact absurd h (hu.outerLevel (by simp) f cs ss esp)

/-- A form refused for a clear accessed bit is a far return of protected or IA-32e mode, and has passed the tests of its
code segment (R122 to R128, R151 to R159). -/
theorem checked_of_clearBit {i : Instr} {s : State} (h : exec i s = .refused .accessedBitClear) :
    i.isFar = true ∧ s.segmented = true ∧ ∃ n ip rcs d, s.ready i n ∧ s.farStackOk n (2 * n.bytes) = true ∧
      s.readTarget s.stackAddressSize n = .ok (ip, rcs) ∧ s.checkCodeSegment rcs = .ok d ∧
      farPath { n := n, imm := i.imm, a := s.stackAddressSize, ip := ip, rcs := rcs, d := d } s = .error clearBit := by
  have hu := unraised_clearBit s
  rw [exec_eq, finish_eq_refused] at h
  obtain ⟨n, hr, h⟩ := procedure_of_stop (by simp) (by simp) (by simp) h
  cases hf : i.isFar with
  | false =>
    simp only [hf, Bool.false_eq_true, if_false] at h
    exact absurd h (hu.nearReturn n i.imm)
  | true =>
    simp only [hf, if_true] at h
    cases hmode : s.realOrV86 with
    | true =>
      rw [farReturn, if_pos hmode] at h
      exact absurd h (hu.realFarReturn (by simp) n i.imm)
    | false =>
      rw [farReturn_eq_farPath hmode] at h
      obtain ⟨h1, h⟩ := passed_of_refused h
      obtain ⟨⟨ip, rcs⟩, h2, h⟩ := ok_of_avoids (hu.readTarget _ _) h
      obtain ⟨d, h3, h⟩ := ok_of_avoids (hu.checkCodeSegment _) h
      exact ⟨rfl, by simp [State.segmented, hmode], n, ip, rcs, d, hr, h1, h2, h3, h⟩

/-- A form refused for a clear accessed bit loads a descriptor with the bit clear. -/
theorem loads_of_clearBit {i : Instr} {s : State} (h : exec i s = .refused .accessedBitClear) :
    ∃ d, s.loads i d ∧ d.accessed = false := by
  have hu := unraised_clearBit s
  obtain ⟨hf, hs, n, ip, rcs, d, hr, h1, h2, h3, hpath⟩ := checked_of_clearBit h
  set f : FarTarget := { n := n, imm := i.imm, a := s.stackAddressSize, ip := ip, rcs := rcs, d := d }
  by_cases h4 : s.cpl < rpl rcs
  · obtain ⟨rest, hrest⟩ := farPath_outer (f := f) h4 rfl
    rw [hrest] at hpath
    obtain ⟨h5, hpath⟩ := passed_of_refused hpath
    obtain ⟨rss, h6, -⟩ := ok_of_avoids (hu.readSelector _ _ _) hpath
    rw [exec_outer hf hr hs h1 h2 h3 h4 h5 h6, finish_eq_refused] at h
    obtain ⟨ss, h7, h⟩ := ok_of_avoids (outerStackRegister_avoids_clearBit s f rss) h
    have h7 : s.outerStackPasses rcs rss d ss := outerStackPasses_of_register (f := f) h7
    obtain ⟨ht, hclear | ⟨hesp, ds, hds, hclear⟩⟩ := clear_of_outerLevel (f := f) h
    · refine ⟨d, ?_, hclear⟩
      exact ⟨hf, hs, n, ip, rcs, d, hr, h1, h2, h3, ht, .inr ⟨h4, h5, rss, ss, h6, h7, .inl rfl⟩⟩
    · refine ⟨ds, ?_, hclear⟩
      exact ⟨hf, hs, n, ip, rcs, d, hr, h1, h2, h3, ht, .inr ⟨h4, h5, rss, ss, h6, h7, .inr ⟨hesp, hds⟩⟩⟩
  · rw [exec_same hf hr hs h1 h2 h3 h4, finish_eq_refused] at h
    obtain ⟨ht, hclear⟩ := clear_of_sameLevel (f := f) h
    exact ⟨d, ⟨hf, hs, n, ip, rcs, d, hr, h1, h2, h3, ht, .inl ⟨h4, rfl⟩⟩, hclear⟩

/-- A form that loads a descriptor with the bit clear is refused for it: a stack descriptor where the code descriptor has
it set, and otherwise for the code descriptor. -/
theorem clearBit_of_loads {i : Instr} {s : State} {d : Descriptor} (h : s.loads i d) (hclear : d.accessed = false) :
    exec i s = .refused .accessedBitClear := by
  obtain ⟨hf, hs, n, ip, rcs, c, hr, h1, h2, h3, ht, hload⟩ := h
  obtain ⟨hsame, houter⟩ := clearAccessedBitIsRefused i s n ip rcs c hf hr hs h1 h2 h3 ht
  rcases hload with ⟨h4, rfl⟩ | ⟨h4, h5, rss, ss, h6, h7, hload⟩
  · exact hsame h4 hclear
  · obtain ⟨hcode, hstack⟩ := houter h4 h5 rss ss h6 h7
    rcases hload with rfl | ⟨⟨esp, hesp⟩, hd⟩
    · exact hcode hclear
    · cases hacc : c.accessed with
      | false => exact hcode hacc
      | true => exact hstack hacc esp d hesp hd hclear

/-! ## Runs -/

/-- The fetch and the decoder refuse for other reasons. -/
theorem fetch_avoids_clearBit (s : State) : Avoids clearBit s.fetch := by
  have hshort : s.refusalOfTruncated ≠ .accessedBitClear := by
    unfold State.refusalOfTruncated
    split <;> simp
  simp only [State.fetch, avoids_bind, avoids_premise]
  refine ⟨by simp, fun _ _ => ?_⟩
  split <;> simp [hshort.symm]

/-- A step refused for a clear accessed bit is a form that is. -/
theorem exec_of_step_clearBit {s : State} (h : step s = .refused .accessedBitClear) :
    ∃ i, s.fetch = .ok i ∧ exec i s = .refused .accessedBitClear := by
  unfold step at h
  cases hf : s.fetch with
  | ok i => exact ⟨i, rfl, by simpa [hf] using h⟩
  | error e =>
    rcases e with f | r
    · simp [hf] at h
    · obtain rfl : r = .accessedBitClear := by simpa [hf] using h
      exact absurd hf (fetch_avoids_clearBit s)

/-- After a step the premise holds for the steps that are left. -/
theorem accessedWithin_of_step {k : Nat} {s t : State} (h : s.accessedWithin (k + 1)) (hstep : step s = .next t) :
    t.accessedWithin k := by
  intro j u i d hj hrun hfetch hload
  have hrun' : Sys2Proof.core.run (j + 1) s = .next u := by
    have hcore : Sys2Proof.core.step s = .next t := hstep
    simpa only [Host.Core.run, hcore] using hrun
  exact h (j + 1) u i d (by omega) hrun' hfetch hload

/-- Under the premise no step of the run is refused for a clear accessed bit. -/
theorem run_avoids_clearBit {k : Nat} {s : State} (h : s.accessedWithin k) :
    Sys2Proof.core.run k s ≠ .refused Refusal.accessedBitClear := by
  induction k generalizing s with
  | zero => simp [Host.Core.run]
  | succ k ih =>
    intro hrun
    rcases hstep : step s with t | f | r
    · have hcore : Sys2Proof.core.step s = .next t := hstep
      simp only [Host.Core.run, hcore] at hrun
      exact ih (accessedWithin_of_step h hstep) hrun
    · have hcore : Sys2Proof.core.step s = .fault f := hstep
      simp [Host.Core.run, hcore] at hrun
    · have hcore : Sys2Proof.core.step s = .refused r := hstep
      simp only [Host.Core.run, hcore] at hrun
      cases hrun
      obtain ⟨i, hfetch, hexec⟩ := exec_of_step_clearBit hstep
      obtain ⟨d, hload, hclear⟩ := loads_of_clearBit hexec
      have hset := h 0 s i d (by omega) rfl hfetch hload
      simp [hclear] at hset

/-- Settles O52: the loads are the one source of the refusal, and the premise is about every load of the run. -/
theorem accessedSetExcludesTheRefusal : Obligations.AccessedSetExcludesTheRefusal :=
  ⟨fun _ _ => ⟨loads_of_clearBit, fun ⟨_, hload, hclear⟩ => clearBit_of_loads hload hclear⟩,
    fun _ _ h => run_avoids_clearBit h⟩

end Sys2Proof.Proofs
end

section
/-! SUPPORT. The decoder splits bytes into prefixes, opcode bytes and the rest, and the encoder joins them. -/

namespace Sys2Proof.Proofs

open Sys2Proof.Laws

/-! ## Prefixes -/

/-- The admitted prefixes at the head of the bytes, `66` and then REX, and the bytes after them, as `decode` splits them
(R80). -/
def splitPrefixes (is64 : Bool) (bs : List Byte) : Prefixes × List Byte :=
  (⟨(splitOpSize bs).1, (splitRex is64 (splitOpSize bs).2).1⟩, (splitRex is64 (splitOpSize bs).2).2)

theorem splitPrefixes_encodePrefixes {is64 : Bool} {p : Prefixes} (hp : p.rexAllowed is64 = true) {op : Byte}
    (hop : isRetOpcode op = true) (r : List Byte) :
    splitPrefixes is64 (encodePrefixes p ++ op :: r) = (p, op :: r) := by
  have hne : op ≠ 0x66#8 ∧ (op.extractLsb' 4 4 == 4#4) = false := by
    revert op
    decide
  obtain ⟨hsize, hrex⟩ := split_encodePrefixes hp op r hne.1 hne.2
  simp only [splitPrefixes, hsize, hrex]

/-- `66` split off and put back. -/
theorem splitOpSize_join (bs : List Byte) :
    (if (splitOpSize bs).1 then [0x66#8] else []) ++ (splitOpSize bs).2 = bs := by
  cases bs with
  | nil => rfl
  | cons b r =>
    rw [splitOpSize_cons]
    split
    · simp [*]
    · rfl

/-- The REX byte split off and put back. -/
theorem splitRex_join (is64 : Bool) (bs : List Byte) :
    encodePrefixes ⟨false, (splitRex is64 bs).1⟩ ++ (splitRex is64 bs).2 = bs := by
  cases bs with
  | nil => rfl
  | cons b r =>
    rw [splitRex_cons]
    split
    next h =>
      have hb : 4#4 ++ b.extractLsb' 0 4 = b := rex_byte_eq b (by simp_all)
      exact congrArg (· :: r) hb
    · rfl

/-- What is split off are prefixes of the bytes: put back, they give the bytes again. -/
theorem encodePrefixes_splitPrefixes (is64 : Bool) (bs : List Byte) :
    encodePrefixes (splitPrefixes is64 bs).1 ++ (splitPrefixes is64 bs).2 = bs := by
  calc encodePrefixes (splitPrefixes is64 bs).1 ++ (splitPrefixes is64 bs).2
      = (if (splitOpSize bs).1 then [0x66#8] else []) ++
          (encodePrefixes ⟨false, (splitRex is64 (splitOpSize bs).2).1⟩ ++ (splitRex is64 (splitOpSize bs).2).2) :=
        List.append_assoc ..
    _ = bs := by rw [splitRex_join, splitOpSize_join]

theorem splitPrefixes_rexAllowed (is64 : Bool) (bs : List Byte) :
    (splitPrefixes is64 bs).1.rexAllowed is64 = true := by
  simp only [splitPrefixes, Prefixes.rexAllowed]
  cases (splitOpSize bs).2 with
  | nil => rfl
  | cons b r =>
    rw [splitRex_cons]
    split <;> simp_all

/-! ## Opcode bytes -/

/-- The bytes of an instruction after its prefixes (R71 to R73). -/
def encodeOpcode : Instr → List Byte
  | .retNear _ => [0xC3#8]
  | .retFar _ => [0xCB#8]
  | .retNearImm16 _ imm => 0xC2#8 :: encodeImm imm
  | .retFarImm16 _ imm => 0xCA#8 :: encodeImm imm

theorem encode_eq (i : Instr) : encode i = encodePrefixes i.prefixes ++ encodeOpcode i := by cases i <;> rfl

theorem encodeOpcode_eq_cons (i : Instr) : ∃ op r, encodeOpcode i = op :: r ∧ isRetOpcode op = true := by
  cases i <;> exact ⟨_, _, rfl, rfl⟩

theorem isRetOpcode_iff {b : Byte} : isRetOpcode b = true ↔ b ∈ [0xC2#8, 0xC3#8, 0xCA#8, 0xCB#8] := by
  simp [isRetOpcode]

/-- After the prefixes the decoder answers an instruction exactly where its opcode bytes stand. -/
theorem decodeOpcode_eq_ok {is64 : Bool} {p : Prefixes} {bs rest : List Byte} {i : Instr} :
    decodeOpcode is64 p bs = .ok (i, rest) ↔ i.prefixes = p ∧ bs = encodeOpcode i ++ rest := by
  constructor
  · intro h
    rcases bs with _ | ⟨op, r⟩
    · cases h
    cases hop : isRetOpcode op with
    | false => simp [decodeOpcode_of_not_opcode hop] at h
    | true =>
      obtain rfl | rfl | rfl | rfl : op = 0xC2#8 ∨ op = 0xC3#8 ∨ op = 0xCA#8 ∨ op = 0xCB#8 := by
        simpa using isRetOpcode_iff.mp hop
      · rcases r with _ | ⟨lo, _ | ⟨hi, r⟩⟩
        · cases h
        · cases h
        · cases h
          exact ⟨rfl, by rw [encodeOpcode, encodeImm_immOfBytes]; rfl⟩
      · cases h
        exact ⟨rfl, rfl⟩
      · rcases r with _ | ⟨lo, _ | ⟨hi, r⟩⟩
        · cases h
        · cases h
        · cases h
          exact ⟨rfl, by rw [encodeOpcode, encodeImm_immOfBytes]; rfl⟩
      · cases h
        exact ⟨rfl, rfl⟩
  · rintro ⟨rfl, rfl⟩
    cases i with
    | retNear p => rfl
    | retFar p => rfl
    | retNearImm16 p imm => simp [decodeOpcode, encodeOpcode, encodeImm, immOfBytes_encodeImm, Instr.prefixes]
    | retFarImm16 p imm => simp [decodeOpcode, encodeOpcode, encodeImm, immOfBytes_encodeImm, Instr.prefixes]

/-! ## The decoder -/

/-- The decoder answers an instruction where the opcode bytes after the prefixes give one whose prefixes the mode
admits. -/
theorem decode_eq_ok {is64 : Bool} {bs rest : List Byte} {i : Instr} :
    decode is64 bs = .ok (i, rest) ↔
      decodeOpcode is64 (splitPrefixes is64 bs).1 (splitPrefixes is64 bs).2 = .ok (i, rest) ∧
        i.wellFormed is64 = true := by
  simp only [decode, splitPrefixes]
  cases decodeOpcode is64 ⟨(splitOpSize bs).1, (splitRex is64 (splitOpSize bs).2).1⟩
      (splitRex is64 (splitOpSize bs).2).2 with
  | error e => simp
  | ok x =>
    obtain ⟨j, r⟩ := x
    simp only [Except.ok.injEq, Prod.mk.injEq]
    by_cases hj : j.wellFormed is64 = true
    · simp only [hj, if_true, Except.ok.injEq, Prod.mk.injEq]
      exact ⟨fun h => ⟨h, h.1 ▸ hj⟩, And.left⟩
    · simp only [hj, Bool.false_eq_true, if_false, reduceCtorEq, false_iff]
      rintro ⟨⟨rfl, -⟩, hi⟩
      exact hj hi

/-- Settles O1: the prefixes split off are those of the instruction, and its opcode bytes follow them. -/
theorem decodeOfEncodeIsTheInstruction : Obligations.DecodeOfEncodeIsTheInstruction := by
  intro is64 i rest hwf
  have hrex : i.prefixes.rexAllowed is64 = true := (Bool.and_eq_true_iff.mp hwf).1
  obtain ⟨op, r, hbytes, hop⟩ := encodeOpcode_eq_cons i
  have hsplit : splitPrefixes is64 (encode i ++ rest) = (i.prefixes, encodeOpcode i ++ rest) := by
    rw [encode_eq, List.append_assoc, hbytes]
    exact splitPrefixes_encodePrefixes hrex hop _
  rw [decode_eq_ok, hsplit]
  exact ⟨decodeOpcode_eq_ok.mpr ⟨rfl, rfl⟩, hwf⟩

/-- Settles O2: the prefixes split off and the opcode bytes after them are those of the instruction decoded. -/
theorem decodedBytesAreTheEncoding : Obligations.DecodedBytesAreTheEncoding := by
  intro is64 bs rest i h
  obtain ⟨hdec, hwf⟩ := decode_eq_ok.mp h
  obtain ⟨hp, hbytes⟩ := decodeOpcode_eq_ok.mp hdec
  refine ⟨?_, hwf⟩
  calc bs = encodePrefixes (splitPrefixes is64 bs).1 ++ (splitPrefixes is64 bs).2 :=
        (encodePrefixes_splitPrefixes is64 bs).symm
    _ = encodePrefixes i.prefixes ++ (encodeOpcode i ++ rest) := by rw [hp, hbytes]
    _ = encode i ++ rest := by rw [encode_eq, List.append_assoc]

/-- Settles O3: five closed evaluations of the decoder. -/
theorem opcodeBytesDecode : Obligations.OpcodeBytesDecode := ⟨by decide, by decide, by decide, by decide, by decide⟩

end Sys2Proof.Proofs
end

section
/-! SUPPORT. Prefixes that are not admitted, and what a step refuses. -/

namespace Sys2Proof.Proofs

open Sys2Proof.Machine Sys2Proof.Laws

/-! ## Bytes that are not decoded -/

/-- The `RET` opcodes are not among the prefixes. -/
theorem not_isPrefixByte_of_isRetOpcode {is64 : Bool} {op : Byte} (h : isRetOpcode op = true) :
    isPrefixByte is64 op = false := by
  revert is64 op
  decide

/-- The decoder reports what the opcode bytes are refused for. -/
theorem decode_of_decodeOpcode_error {is64 : Bool} {bs : List Byte} {e : DecodeError}
    (h : decodeOpcode is64 (splitPrefixes is64 bs).1 (splitPrefixes is64 bs).2 = .error e) :
    decode is64 bs = .error e := by
  simp only [splitPrefixes] at h
  simp only [decode, h]

/-- An instruction read with prefixes the mode does not admit before it is refused for them (R78). -/
theorem decode_of_not_wellFormed {is64 : Bool} {bs r : List Byte} {i : Instr}
    (h : decodeOpcode is64 (splitPrefixes is64 bs).1 (splitPrefixes is64 bs).2 = .ok (i, r))
    (hwf : i.wellFormed is64 = false) : decode is64 bs = .error .prefixNotAdmitted := by
  simp only [splitPrefixes] at h
  simp [decode, h, hwf]

/-- Splitting off prefixes stops at a byte that is none (R80). -/
theorem splitPrefixes_append {is64 : Bool} {op : Byte} (hop : isPrefixByte is64 op = false) (ps rest : List Byte) :
    splitPrefixes is64 (ps ++ op :: rest) = ((splitPrefixes is64 ps).1, (splitPrefixes is64 ps).2 ++ op :: rest) := by
  have h66 : op ≠ 0x66#8 := by
    rintro rfl
    simp [isPrefixByte] at hop
  have hrex : (is64 && op.extractLsb' 4 4 == 4#4) = false := (Bool.or_eq_false_iff.mp hop).2
  simp only [splitPrefixes, splitOpSize_append h66, splitRex_append hrex]

/-- What is left of the prefixes once the admitted ones are split off are prefixes too. -/
theorem prefixIn_of_mem_splitPrefixes {is64 : Bool} {ps : List Byte} (hp : ∀ p ∈ ps, prefixIn is64 p) :
    ∀ p ∈ (splitPrefixes is64 ps).2, prefixIn is64 p := by
  intro p hmem
  refine hp p ?_
  rw [← encodePrefixes_splitPrefixes is64 ps]
  exact List.mem_append_right _ hmem

/-- Where more prefixes stand before a byte than the decoder splits off, the bytes are refused (R78, R79). -/
theorem decode_of_prefixes_left {is64 : Bool} {ps rest : List Byte} {op : Byte} (hp : ∀ p ∈ ps, prefixIn is64 p)
    (hop : isPrefixByte is64 op = false) (hleft : (splitPrefixes is64 ps).2 ≠ []) :
    decode is64 (ps ++ op :: rest) = .error (if isRetOpcode op then .prefixNotAdmitted else .notARet) := by
  refine decode_of_decodeOpcode_error ?_
  rw [splitPrefixes_append hop]
  exact decodeOpcode_of_prefixes hleft (prefixIn_of_mem_splitPrefixes hp) hop

/-- `66` and then REX, each at most once and REX in 64-bit mode only, are not admitted before a `RET` opcode in one case:
`66` before a near return in 64-bit mode (R76). -/
theorem near66_of_not_admitted {is64 : Bool} {p : Prefixes} {op : Byte} (hrex : p.rexAllowed is64 = true)
    (hop : isRetOpcode op = true) (hnot : ¬ prefixesAdmitted is64 (encodePrefixes p) op) :
    p.opSizeAllowed is64 false = false ∧ (op = 0xC2#8 ∨ op = 0xC3#8) := by
  obtain ⟨size, rex⟩ := p
  have h64 : ∀ r, rex = some r → is64 = true := by
    rintro r rfl
    simpa [Prefixes.rexAllowed] using hrex
  rw [isRetOpcode_iff] at hop
  simp only [prefixesAdmitted, not_or, not_and, not_exists] at hnot
  obtain ⟨hnone, h66, h1, h2⟩ := hnot
  cases size with
  | false =>
    cases rex with
    | none => exact absurd rfl hnone
    | some r => exact absurd rfl (h1 (h64 r rfl) r)
  | true =>
    cases rex with
    | none => simpa [Prefixes.opSizeAllowed, or_iff_not_imp_left] using h66 rfl
    | some r =>
      have hfar : op ∉ [0xCA#8, 0xCB#8] := fun h => h2 (h64 r rfl) h r rfl
      simp_all [Prefixes.opSizeAllowed]

/-- `66` before a near return in 64-bit mode is reported, also where the immediate is missing (R76; log 21). -/
theorem decode_of_near66 {is64 : Bool} {bs rest : List Byte} {op : Byte}
    (hbytes : (splitPrefixes is64 bs).2 = op :: rest)
    (hsize : (splitPrefixes is64 bs).1.opSizeAllowed is64 false = false) (hop : op = 0xC2#8 ∨ op = 0xC3#8) :
    decode is64 bs = .error .prefixNotAdmitted := by
  have hwf (i : Instr) (hp : i.prefixes = (splitPrefixes is64 bs).1) (hfar : i.isFar = false) :
      i.wellFormed is64 = false := by
    simp [Instr.wellFormed, hp, hfar, hsize]
  rcases hop with rfl | rfl
  · rcases rest with _ | ⟨lo, _ | ⟨hi, rest⟩⟩
    · exact decode_of_decodeOpcode_error (by simp [hbytes, decodeOpcode, hsize])
    · exact decode_of_decodeOpcode_error (by simp [hbytes, decodeOpcode, hsize])
    · exact decode_of_not_wellFormed (i := .retNearImm16 _ (immOfBytes lo hi)) (by rw [hbytes]; rfl) (hwf _ rfl rfl)
  · exact decode_of_not_wellFormed (i := .retNear _) (by rw [hbytes]; rfl) (hwf _ rfl rfl)

/-- Any prefixes not admitted before a `RET` opcode are refused by that name (R76, R78; log 21). -/
theorem decode_of_not_admitted {is64 : Bool} {ps rest : List Byte} {op : Byte} (hp : ∀ p ∈ ps, prefixIn is64 p)
    (hop : isRetOpcode op = true) (hnot : ¬ prefixesAdmitted is64 ps op) :
    decode is64 (ps ++ op :: rest) = .error .prefixNotAdmitted := by
  have hnone : isPrefixByte is64 op = false := not_isPrefixByte_of_isRetOpcode hop
  by_cases hleft : (splitPrefixes is64 ps).2 = []
  · have hps : encodePrefixes (splitPrefixes is64 ps).1 = ps := by
      simpa [hleft] using encodePrefixes_splitPrefixes is64 ps
    obtain ⟨hsize, hnear⟩ := near66_of_not_admitted (splitPrefixes_rexAllowed is64 ps) hop (hps.symm ▸ hnot)
    have hsplit := splitPrefixes_append hnone ps rest
    exact decode_of_near66 (rest := rest) (by rw [hsplit, hleft]; rfl) (by rw [hsplit]; exact hsize) hnear
  · rw [decode_of_prefixes_left hp hnone hleft, if_pos hop]

/-- A byte that is no `RET` opcode and not among the prefixes is, behind any of them, not a `RET` (R79). -/
theorem decode_of_other {is64 : Bool} {ps rest : List Byte} {op : Byte} (hp : ∀ p ∈ ps, prefixIn is64 p)
    (hop : isRetOpcode op = false) (hnone : isPrefixByte is64 op = false) :
    decode is64 (ps ++ op :: rest) = .error .notARet := by
  by_cases hleft : (splitPrefixes is64 ps).2 = []
  · refine decode_of_decodeOpcode_error ?_
    rw [splitPrefixes_append hnone, hleft, List.nil_append, decodeOpcode_of_not_opcode hop]
    simp [whyNotDecoded, hnone, hop]
  · rw [decode_of_prefixes_left hp hnone hleft, hop]
    rfl

/-- Settles O4: prefixes left over at the place of the opcode are refused there, and of those the decoder splits off
only `66` before a near return in 64-bit mode is not admitted. -/
theorem prefixesNotAdmittedAreRefused : Obligations.PrefixesNotAdmittedAreRefused := by
  refine ⟨fun is64 ps op rest hp hop hnot => decode_of_not_admitted hp (isRetOpcode_iff.mpr hop) hnot,
    fun is64 ps op rest hp hop hnone => ?_, fun r rest => ?_⟩
  · rw [prefixIn_iff, Bool.not_eq_true] at hnone
    rw [← isRetOpcode_iff, Bool.not_eq_true] at hop
    exact decode_of_other hp hop hnone
  · have hother : isRetOpcode (4#4 ++ r) = false ∧ isPrefixByte false (4#4 ++ r) = false := by
      revert r
      decide
    exact decode_of_other (ps := []) (by simp) hother.1 hother.2

/-! ## What a step refuses -/

/-- The refusal that reports a decoding error (R78, R79; logs 7 and 39). -/
def decodeRefusal (s : State) : DecodeError → Refusal
  | .truncated => s.refusalOfTruncated
  | .prefixNotAdmitted => .prefixNotAdmitted
  | .notARet => .notARet

/-- A step refuses bytes that do not decode (R217(b)). -/
theorem step_of_decode_error {s : State} {e : DecodeError} (hcs : s.cs.hidden.isSome = true)
    (hdec : decode s.in64 s.fetchWindow = .error e) : step s = .refused (decodeRefusal s e) := by
  have hfetch : s.fetch = .error (.refused (decodeRefusal s e)) := by
    cases e <;> simp [State.fetch, hcs, hdec, decodeRefusal]
  simp only [step, hfetch]

/-- Settles O6: the refusal of each decoding error; a window that ends early ends at a byte nothing has written. -/
theorem stepRefusesWhatIsNotARet : Obligations.StepRefusesWhatIsNotARet := by
  intro s hcs
  refine ⟨step_of_decode_error hcs, step_of_decode_error hcs, fun hdec hshort => ?_, fun hdec hfull => ?_⟩
  · rw [step_of_decode_error hcs hdec, decodeRefusal, State.refusalOfTruncated, if_pos hshort]
  · rw [step_of_decode_error hcs hdec, decodeRefusal, State.refusalOfTruncated, if_neg hfull.not_lt]

end Sys2Proof.Proofs
end

section
/-! SUPPORT. Operand sizes, and the operand 0. -/

namespace Sys2Proof.Proofs

open Sys2Proof.Machine Sys2Proof.Laws

/-! ## Operand size -/

section
variable {s : State} {p : Prefixes}

/-- Outside 64-bit mode `66` gives the other size than `CS.D` (R76; log 22). -/
theorem operandSize_legacy (h64 : s.in64 = false) (hrex : p.rex = none) (far : Bool) :
    s.operandSize far p = .ok (if s.cs.desc.db != p.opSize then .w32 else .w16) := by
  simp [State.operandSize, h64, hrex]

theorem operandSize_near64 (h64 : s.in64 = true) (hsize : p.opSize = false) : s.operandSize false p = .ok .w64 := by
  simp [State.operandSize, h64, hsize]

theorem operandSize_far64 (h64 : s.in64 = true) :
    s.operandSize true p = .ok (if rexW p then .w64 else if p.opSize then .w16 else .w32) := by
  simp [State.operandSize, h64]

/-- Where an operand size is answered the mode admits the prefixes, and where not it does not (R76). -/
theorem exists_operandSize_iff (i : Instr) :
    (∃ n, s.operandSize i.isFar i.prefixes = .ok n) ↔ i.wellFormed s.in64 = true := by
  unfold State.operandSize Instr.wellFormed Prefixes.rexAllowed Prefixes.opSizeAllowed
  cases s.in64 with
  | false => cases i.prefixes.rex <;> simp
  | true =>
    cases i.isFar with
    | true => simp
    | false => cases i.prefixes.opSize <;> simp

theorem rexW_eq_true {r : BitVec 4} (hrex : p.rex = some r) (h : r.getLsbD 3 = true) : rexW p = true := by
  rw [rexW, hrex]
  exact h

theorem rexW_eq_false (h : ∀ r, p.rex = some r → r.getLsbD 3 = false) : rexW p = false := by
  unfold rexW
  cases hrex : p.rex with
  | none => rfl
  | some r => exact h r hrex

end

/-- Settles O7: the table row by row; a size is refused exactly where the prefixes are. -/
theorem operandSizesThatArise : Obligations.OperandSizesThatArise := by
  intro s i
  refine ⟨exists_operandSize_iff i, fun h => ?_, fun h64 hrex => ?_, fun h64 hfar hsize => ?_, fun h64 hfar => ?_⟩
  · by_contra h64
    exact operandSize_ne_w64 (Bool.not_eq_true _ ▸ h64) h rfl
  · rw [operandSize_legacy h64 hrex]
    refine ⟨?_, ?_, ?_, ?_⟩ <;> intro hd hsize <;> simp [hd, hsize]
  · rw [hfar]
    exact operandSize_near64 h64 hsize
  · rw [hfar, operandSize_far64 h64]
    refine ⟨fun r hrex hw => by rw [rexW_eq_true hrex hw]; rfl, fun hw => ?_⟩
    rw [rexW_eq_false hw]
    exact ⟨fun hsize => by rw [hsize]; rfl, fun hsize => by rw [hsize]; rfl⟩

/-! ## The operand 0 -/

theorem release_none (s : State) (a : Width) : s.release a none = s := rfl

theorem nearReturn_zero (n : Width) (s : State) : nearReturn n (some 0) s = nearReturn n none s := by
  simp [nearReturn, release_none]

/-- The release of R115 with the operand 0, where it is not refused. -/
theorem releaseReal_zero {s : State} (h : s.ss.desc.db = false) : s.releaseReal (some 0) = s.releaseReal none := by
  simp [State.releaseReal, h]

/-- A sequence depends on its second part only for what the first one answers. -/
theorem bind_congr_of_ok {α β : Type} {x : Exec α} {f g : α → Exec β} (h : ∀ a, x = .ok a → f a = g a) :
    (x >>= f) = x >>= g := by
  cases x with
  | ok a => exact h a rfl
  | error e => rfl

/-- A far return in real-address or virtual-8086 mode does not write SS before its release (R117). -/
theorem realFarReturn_zero {s : State} (h : s.ss.desc.db = false) (n : Width) :
    realFarReturn n (some 0) s = realFarReturn n none s := by
  refine bind_congr fun _ => bind_congr_of_ok fun ⟨t, s1⟩ hpop1 =>
    bind_congr fun _ => bind_congr_of_ok fun ⟨c, s2⟩ hpop2 => ?_
  obtain ⟨-, rfl⟩ := pop_eq_ok.mp hpop1
  obtain ⟨-, rfl⟩ := pop_eq_ok.mp hpop2
  exact releaseReal_zero h

/-- The path of a far return after its code segment, with the operand 0 and without operand. -/
theorem farPath_zero (f : FarTarget) (s : State) :
    farPath { f with imm := some 0#16 } s = farPath { f with imm := none } s := by
  have hsame : s.sameLevel { f with imm := some 0#16 } = s.sameLevel { f with imm := none } := by
    simp [State.sameLevel, State.enterCode, release_none]
  have houter : ∀ cs esp ss, s.outerLevel { f with imm := some 0#16 } cs esp ss =
      s.outerLevel { f with imm := none } cs esp ss := by
    simp [State.outerLevel, State.enterCode, release_none]
  have hprot : protOuter { f with imm := some 0#16 } s = protOuter { f with imm := none } s := by
    simp [protOuter, houter, srcBytes]
  have hia32e : ia32eOuter { f with imm := some 0#16 } s = ia32eOuter { f with imm := none } s := by
    simp [ia32eOuter, State.ia32eTargetOk, State.ia32eStackSegment, houter, srcBytes]
  unfold farPath
  split
  · cases s.ia32e with
    | false => exact hprot
    | true => exact hia32e
  · cases s.ia32e with
    | false => exact bind_congr fun _ => hsame
    | true => exact bind_congr fun _ => hsame

theorem farReturn_zero {s : State} (h : s.segmented = true ∨ s.ss.desc.db = false) (n : Width) :
    farReturn n (some 0) s = farReturn n none s := by
  cases hmode : s.realOrV86 with
  | true =>
    have hdb : s.ss.desc.db = false := by simpa [State.segmented, hmode] using h
    rw [farReturn, farReturn, if_pos hmode, if_pos hmode, realFarReturn_zero hdb]
  | false =>
    rw [farReturn_eq_farPath hmode, farReturn_eq_farPath hmode]
    refine bind_congr fun _ => bind_congr fun ⟨ip, rcs⟩ => bind_congr fun d => ?_
    exact farPath_zero ⟨n, none, s.stackAddressSize, ip, rcs, d⟩ s

/-- Settles O20: both procedures use the operand only where 0 is as good as none. -/
theorem zeroOperandIsNoOperand : Obligations.ZeroOperandIsNoOperand := by
  refine fun p s => ⟨?_, fun h => ?_⟩
  · rw [exec_eq, exec_eq]
    exact congrArg finish (bind_congr fun _ => bind_congr fun n => nearReturn_zero n s)
  · rw [exec_eq, exec_eq]
    exact congrArg finish (bind_congr fun _ => bind_congr fun n => farReturn_zero h n)

end Sys2Proof.Proofs
end

section
/-! SUPPORT. Where memory changes; the near return: what it leaves when it completes, where it faults, what it
does not read (R90 to R98). -/

namespace Sys2Proof.Proofs

open Sys2Proof.Machine Sys2Proof.Laws

/-! ## Memory -/

/-- Memory after a completed form: as before, or an outer return with the shadow stack enabled has written the token
(R98, R117, R134, R145, R164, R175). -/
theorem exec_mem {i : Instr} {s t : State} (h : exec i s = .next t) :
    t.mem = s.mem ∨
      (i.isFar = true ∧ s.realOrV86 = false ∧ s.cpl < t.cpl ∧ s.shadowStackEnabled s.cpl = true ∧
        t.mem = s.mem.writeLE s.linearBits 8 (s.tokenAddress t.cpl).toNat (s.tokenAddress t.cpl).toNat) := by
  cases exec_effect h with
  | near _ ht => exact .inl (by rw [ht])
  | real _ _ sel ht => exact .inl (by rw [ht])
  | sameLevel _ _ _ _ _ _ _ _ _ _ ht => exact .inl (by rw [ht])
  | outerLevel n ip rcs d ss hfar hmode _ _ _ hlevel hmem ht =>
    have hcpl : t.cpl = rpl rcs := by rw [ht]
    rw [← hcpl] at hlevel hmem
    exact hmem.imp_right fun ⟨hen, hm⟩ => ⟨hfar, hmode, hlevel, hen, hm⟩

/-- Settles O16: each of the four reasons excludes the write of the token, and that write is of 8 bytes. -/
theorem memoryChangesOnlyInTheFreedToken : Obligations.MemoryChangesOnlyInTheFreedToken := by
  intro i s t h
  rcases exec_mem h with hm | ⟨hfar, hmode, hlevel, hen, hm⟩
  · exact ⟨fun _ => hm, fun b _ => by rw [hm]⟩
  · refine ⟨fun hcase => ?_, fun b hb => ?_⟩
    · rcases hcase with hnear | hreal | hsame | hoff
      · simp [hfar] at hnear
      · simp [hmode] at hreal
      · exact absurd (hsame ▸ hlevel) (BitVec.lt_irrefl _)
      · simp [hen] at hoff
    · rw [hm]
      exact readByte_writeLE_other s.mem 8 _ _ hb

/-! ## The near return that completes -/

/-- The state a near return that completes leaves, but for the draw counter (R93 to R96). -/
def nearCompleted (n : Width) (imm : Option (BitVec 16)) (v : Word) (s : State) : State :=
  State.release
    { s.addSp s.stackAddressSize n.bytes with
      rip := v
      ssp := if s.shadowStackEnabled s.cpl then s.ssp + BitVec.ofNat 64 (nearShadowBytes n) else s.ssp }
    s.stackAddressSize imm

/-- Its stack pointer is past the item and the released bytes, by one increment in place (R96). -/
theorem nearCompleted_rsp (n : Width) (imm : Option (BitVec 16)) (v : Word) (s : State) :
    (nearCompleted n imm v s).rsp = (s.addSp s.stackAddressSize (n.bytes + srcBytes imm)).rsp :=
  release_rsp_of_addSp imm rfl

/-- Its other changes are those of RIP and SSP (R98). -/
theorem nearCompleted_frame (n : Width) (imm : Option (BitVec 16)) (v : Word) (s : State) :
    nearCompleted n imm v s =
      { s with
        rip := v
        rsp := (nearCompleted n imm v s).rsp
        ssp := if s.shadowStackEnabled s.cpl then s.ssp + BitVec.ofNat 64 (nearShadowBytes n) else s.ssp } := by
  obtain ⟨r, hr⟩ := release_eq _ s.stackAddressSize imm
  rw [nearCompleted, hr]
  rfl

/-- Settles O21: the tests pass, and the state left has one increment of the stack pointer in it. -/
theorem nearReturnCompletes : Obligations.NearReturnCompletes := by
  intro i s n v hf hr hst hv ht hentry
  have hok : nearReturn n i.imm s = .ok (nearCompleted n i.imm v s) :=
    nearReturn_eq_ok.mpr ⟨hst, v, hv, ht, hentry, rfl⟩
  have hexec : exec i s = .next { nearCompleted n i.imm v s with draws := (nearCompleted n i.imm v s).draws + 1 } := by
    rw [exec_near hf hr, hok]
    rfl
  refine ⟨_, hexec, ?_, fun ha => ?_, fun ha => ?_, ?_⟩
  · simp only [State.sp, nearCompleted_rsp]
    exact addSp_sp s _ _
  · simp only [nearCompleted_rsp]
    exact addSp_hi ha s _
  · simp only [nearCompleted_rsp, addSp_rsp, ha, writeView_w16_mid]
  · rw [nearCompleted_frame]

/-! ## The near return that faults -/

/-- With a shadow stack an entry that is not the new pointer raises `#CP(NEAR_RET)` (R93 to R95). -/
theorem nearShadowStep_of_mismatch {s : State} {n : Width} {entry : Word} (hen : s.shadowStackEnabled s.cpl = true)
    (hentry : s.memRead .shadowRead s.ssp (nearShadowBytes n) = .ok entry) (hne : entry ≠ s.rip) :
    s.nearShadowStep n = .error (.fault (.cp .nearRet)) := by
  have hpop := shadowPop_eq_ok.mpr ⟨hentry, rfl⟩
  have htest : (s.rip == entry) = false := by simpa using hne.symm
  simp only [State.nearShadowStep, hen, if_true, hpop, ok_bind, htest, require_false, error_bind]

/-- Settles O22: each test with what precedes it passed. -/
theorem nearReturnFaultsInOrder : Obligations.NearReturnFaultsInOrder := by
  intro i s n hf hr
  rw [exec_near hf hr]
  simp only [finish_eq_fault]
  refine ⟨fun hst => ?_, fun hst v hv => ⟨fun ht => ?_, fun ht hen entry hentry hne => ?_⟩⟩
  · simp only [nearReturn, hst, require_false, error_bind]
  · have hpop : s.pop s.stackAddressSize n = .ok (v, s.addSp s.stackAddressSize n.bytes) := pop_eq_ok.mpr ⟨hv, rfl⟩
    simp only [nearReturn, hst, hpop, nearTargetOk_addSp, ht, require_true, require_false, ok_bind, error_bind]
  · have hip : truncTo n v = v := truncTo_of_lt (stackRead_lt hv)
    have hstep : ((s.addSp s.stackAddressSize n.bytes).writeIp n v).nearShadowStep n
        = .error (.fault (.cp .nearRet)) :=
      nearShadowStep_of_mismatch hen hentry (by rwa [writeIp_rip, hip])
    rw [nearReturn_of_target hst hv ht, hstep, error_bind]

/-! ## Operand size 16 -/

/-- The stack test at operand size 16 is that of the limits (R95). -/
theorem nearStackOk_w16 (s : State) (a : Width) : s.nearStackOk a .w16 = s.stackWithin a 2 := by
  simp [State.nearStackOk, Width.bytes]

/-- A near return at operand size 16 that completes, as R95 words it: `ssp` is SSP after it. -/
theorem exec_near16 {i : Instr} {s : State} {v ssp : Word} (hf : i.isFar = false) (hr : s.ready i .w16)
    (hst : s.nearStackOk s.stackAddressSize .w16 = true) (hv : s.stackRead s.stackAddressSize 0 .w16 = .ok v)
    (ht : s.nearTargetOk .w16 v = true)
    (hentry : s.shadowStackEnabled s.cpl = true → s.memRead .shadowRead s.ssp 4 = .ok v)
    (hssp : (if s.shadowStackEnabled s.cpl then s.ssp + 4#64 else s.ssp) = ssp) :
    ∃ t, exec i s = .next t ∧ t.rip = v ∧ t.rip.toNat < 2 ^ 16 ∧ t.ssp = ssp ∧
      t.sp s.stackAddressSize
        = truncTo s.stackAddressSize (s.sp s.stackAddressSize + BitVec.ofNat 64 (2 + srcBytes i.imm)) := by
  obtain ⟨t, hexec, hsp, -, -, hframe⟩ := nearReturnCompletes i s .w16 v hf hr hst hv ht hentry
  have hrip : t.rip = v := by rw [hframe]
  refine ⟨t, hexec, hrip, hrip ▸ stackRead_lt hv, ?_, hsp⟩
  rw [hframe, ← hssp]
  rfl

/-- Settles O23: O21 and O22 at operand size 16. -/
theorem nearReturnAtOperandSize16 : Obligations.NearReturnAtOperandSize16 := by
  intro i s hf hr
  obtain ⟨hstack, hrest⟩ := nearReturnFaultsInOrder i s .w16 hf hr
  rw [nearStackOk_w16] at hstack
  refine ⟨hstack, fun hst v hv => ?_⟩
  rw [← nearStackOk_w16] at hst
  obtain ⟨htarget, hmismatch⟩ := hrest hst v hv
  refine ⟨htarget, fun ht => ⟨fun hoff => ?_, fun hen e he => ⟨fun hne => ?_, ?_⟩⟩⟩
  · exact exec_near16 hf hr hst hv ht (by simp [hoff]) (by simp [hoff])
  · exact hmismatch ht hen e he hne.symm
  · rintro rfl
    exact exec_near16 hf hr hst hv ht (fun _ => he) (by simp [hen])

/-! ## What a near return does not read -/

/-- The state with the level, descriptor-table registers and data segment registers of `u`. -/
def withUnread (u s : State) : State :=
  { s with cpl := u.cpl, sys := { s.sys with gdtr := u.sys.gdtr, ldtr := u.sys.ldtr },
           ds := u.ds, es := u.es, fs := u.fs, gs := u.gs }

section
variable (u : State) {s : State}

/-- `Pop` reads the stack alone and changes the stack pointer alone (R53). -/
theorem withUnread_pop (a n : Width) : (withUnread u s).pop a n = Prod.map id (withUnread u) <$> s.pop a n := by
  have hread : (withUnread u s).stackRead a 0 n = s.stackRead a 0 n := rfl
  simp only [State.pop, hread]
  cases s.stackRead a 0 n <;> rfl

/-- A pop from the shadow stack reads it at SSP and changes SSP alone (R59). -/
theorem withUnread_shadowPop (n : Nat) :
    (withUnread u s).shadowPop n = Prod.map id (withUnread u) <$> s.shadowPop n := by
  have hread : (withUnread u s).memRead .shadowRead (withUnread u s).ssp n = s.memRead .shadowRead s.ssp n := rfl
  simp only [State.shadowPop, hread]
  cases s.memRead .shadowRead s.ssp n <;> rfl

theorem withUnread_release (a : Width) (imm : Option (BitVec 16)) :
    (withUnread u s).release a imm = withUnread u (s.release a imm) := by
  cases imm <;> rfl

/-- Of the level the shadow-stack step reads its enable alone (R93 to R95). -/
theorem withUnread_nearShadowStep (hen : s.shadowStackEnabled u.cpl = s.shadowStackEnabled s.cpl) (n : Width) :
    (withUnread u s).nearShadowStep n = withUnread u <$> s.nearShadowStep n := by
  have hen' : (withUnread u s).shadowStackEnabled (withUnread u s).cpl = s.shadowStackEnabled s.cpl := hen
  simp only [State.nearShadowStep, hen', withUnread_shadowPop]
  split
  · simp only [map_bind, bind_map_left]
    rfl
  · rfl

theorem withUnread_nearReturn (hen : s.shadowStackEnabled u.cpl = s.shadowStackEnabled s.cpl) (n : Width)
    (imm : Option (BitVec 16)) : nearReturn n imm (withUnread u s) = withUnread u <$> nearReturn n imm s := by
  have hsize : (withUnread u s).stackAddressSize = s.stackAddressSize := rfl
  have hstack : (withUnread u s).nearStackOk = s.nearStackOk := rfl
  simp only [nearReturn, map_bind, hsize, hstack, withUnread_pop, bind_map_left]
  refine bind_congr fun _ => bind_congr_of_ok fun (v, s1) hpop => bind_congr fun _ => ?_
  obtain ⟨-, rfl⟩ := pop_eq_ok.mp hpop
  have hstep := withUnread_nearShadowStep u (s := (s.addSp s.stackAddressSize n.bytes).writeIp n v) hen n
  refine (congrArg (· >>= _) hstep).trans ?_
  simp only [bind_map_left, withUnread_release]
  rfl

/-- Every outcome of a near return is that of the state with its own level and tables, but for them. -/
theorem exec_withUnread {i : Instr} (hf : i.isFar = false)
    (hen : s.shadowStackEnabled u.cpl = s.shadowStackEnabled s.cpl) :
    exec i (withUnread u s) = mapNext (withUnread u) (exec i s) := by
  have hfinish : ∀ x : Exec State, finish (withUnread u <$> x) = mapNext (withUnread u) (finish x) := by
    rintro ((f | r) | t) <;> rfl
  have hsegments : (withUnread u s).requireSegments = s.requireSegments := rfl
  have hsize : (withUnread u s).operandSize = s.operandSize := rfl
  simp only [exec_eq_near hf, runNear, hsegments, hsize, withUnread_nearReturn u hen, ← map_bind, hfinish]

end

/-- Settles O25: a near return commutes with the change, and no form writes a system register. -/
theorem nearReturnReadsNoDescriptorTable : Obligations.NearReturnReadsNoDescriptorTable := by
  intro i s c g l d e f h hf hen
  let u : State := { s with cpl := c, sys := { s.sys with gdtr := g, ldtr := l }, ds := d, es := e, fs := f, gs := h }
  refine (exec_withUnread u hf hen).trans (mapNext_congr fun t ht => ?_)
  obtain ⟨-, -, hsys, -⟩ := exec_frame ht
  simp only [withUnread, hsys, u]

end Sys2Proof.Proofs
end

section
/-! SUPPORT. The exceptions each form can raise (R90, R113, R180 to R187). -/

namespace Sys2Proof.Proofs

open Sys2Proof.Machine Sys2Proof.Laws

/-! ## The exceptions of an execution -/

/-- Every exception an execution ends in is in `P`. -/
def FaultsIn (P : Fault → Prop) {α : Type} (x : Exec α) : Prop := ∀ f, x = .error (.fault f) → P f

section
variable {P : Fault → Prop} {α β : Type}

@[simp] theorem faultsIn_ok (a : α) : FaultsIn P (.ok a : Exec α) := by simp [FaultsIn]

@[simp] theorem faultsIn_refuse (r : Refusal) : FaultsIn P (refuse r : Exec α) := by simp [FaultsIn]

@[simp] theorem faultsIn_require {b : Bool} {f : Fault} : FaultsIn P (require b f) ↔ (b = false → P f) := by
  simp [FaultsIn]

@[simp] theorem faultsIn_premise (b : Bool) (r : Refusal) : FaultsIn P (premise b r) := by simp [FaultsIn]

/-- The exceptions of a sequence are those of its parts, of the later ones on what the earlier ones answer. -/
@[simp] theorem faultsIn_bind {x : Exec α} {g : α → Exec β} :
    FaultsIn P (x >>= g) ↔ FaultsIn P x ∧ ∀ a, x = .ok a → FaultsIn P (g a) := by
  simp only [FaultsIn, bind_eq_error]
  constructor
  · exact fun h => ⟨fun f hf => h f (.inl hf), fun a ha f hf => h f (.inr ⟨a, ha, hf⟩)⟩
  · rintro ⟨hx, hg⟩ f (hf | ⟨a, ha, hf⟩)
    · exact hx f hf
    · exact hg a ha f hf

theorem faultsIn_ite {c : Prop} [Decidable c] {x y : Exec α} (hx : c → FaultsIn P x) (hy : ¬c → FaultsIn P y) :
    FaultsIn P (if c then x else y) := by
  split
  · exact hx ‹_›
  · exact hy ‹_›

/-- An operation that stops only where another does has its exceptions. -/
theorem FaultsIn.of_error {x : Exec α} {y : Exec β} (hx : FaultsIn P x) (h : ∀ e, y = .error e → x = .error e) :
    FaultsIn P y := fun f hf => hx f (h _ hf)

end

/-! ## Memory accesses -/

section
variable {P : Fault → Prop} (hmem : P .memFault) (s : State)
include hmem

theorem memRead_faultsIn (k : AccessKind) (a : Word) (n : Nat) : FaultsIn P (s.memRead k a n) := by
  intro f hf
  rcases memRead_eq_error hf with h | h <;> cases h
  exact hmem

theorem pop_faultsIn (a n : Width) : FaultsIn P (s.pop a n) :=
  (memRead_faultsIn hmem s _ _ _).of_error fun _ => pop_eq_error.mp

theorem shadowPop_faultsIn (n : Nat) : FaultsIn P (s.shadowPop n) :=
  (memRead_faultsIn hmem s _ _ _).of_error fun _ => shadowPop_eq_error.mp

end

/-! ## Near returns, and far returns in real-address and virtual-8086 mode -/

/-- The exceptions of a near return (R90): of the stack test, the target test, the shadow-stack compare, an access. -/
def NearFault (f : Fault) : Prop := f ∈ [.ss 0, .gp 0, .cp .nearRet, .memFault]

/-- The exceptions of a far return in real-address and virtual-8086 mode (R113). -/
def RealFault (f : Fault) : Prop := f ∈ [.ss 0, .gp 0, .memFault]

@[simp] theorem nearFault_iff {f : Fault} :
    NearFault f ↔ f = .ss 0 ∨ f = .gp 0 ∨ f = .cp .nearRet ∨ f = .memFault := by
  simp [NearFault]

@[simp] theorem realFault_iff {f : Fault} : RealFault f ↔ f = .ss 0 ∨ f = .gp 0 ∨ f = .memFault := by
  simp [RealFault]

theorem nearShadowStep_faultsIn (n : Width) (s : State) : FaultsIn NearFault (s.nearShadowStep n) :=
  faultsIn_ite (fun _ => by simp [shadowPop_faultsIn]) fun _ => by simp

theorem nearReturn_faultsIn (n : Width) (imm : Option (BitVec 16)) (s : State) :
    FaultsIn NearFault (nearReturn n imm s) := by
  simp [nearReturn, pop_faultsIn, nearShadowStep_faultsIn]

/-- The release of a far return in real-address and virtual-8086 mode can only be refused (R115). -/
theorem releaseReal_faultsIn (P : Fault → Prop) (imm : Option (BitVec 16)) (s : State) :
    FaultsIn P (s.releaseReal imm) := by
  cases imm <;> simp [State.releaseReal]

theorem realFarReturn_faultsIn (n : Width) (imm : Option (BitVec 16)) (s : State) :
    FaultsIn RealFault (realFarReturn n imm s) := by
  simp [realFarReturn, pop_faultsIn, releaseReal_faultsIn]

/-! ## Far returns in protected and IA-32e mode -/

/-- A selector error code has its two low bits clear (R189). -/
def CodeLowClear (f : Fault) : Prop := ∀ c, f = .ss c ∨ f = .gp c ∨ f = .np c → c &&& 3#16 = 0#16

/-- An exception that a far return can raise: not that of a near compare, and with its code as R189 says. -/
def FarFault (f : Fault) : Prop := f ≠ .cp .nearRet ∧ CodeLowClear f

/-- The error code of a selector has its two low bits clear (R189). -/
theorem selCode_low (sel : Selector) : selCode sel &&& 3#16 = 0#16 := by
  rw [selCode, BitVec.and_assoc]
  exact BitVec.and_zero

@[simp] theorem farFault_ss_zero : FarFault (.ss 0#16) := by simp [FarFault, CodeLowClear]
@[simp] theorem farFault_gp_zero : FarFault (.gp 0#16) := by simp [FarFault, CodeLowClear]

@[simp] theorem farFault_ss (sel : Selector) : FarFault (.ss (selCode sel)) := by
  simp [FarFault, CodeLowClear, selCode_low]

@[simp] theorem farFault_gp (sel : Selector) : FarFault (.gp (selCode sel)) := by
  simp [FarFault, CodeLowClear, selCode_low]

@[simp] theorem farFault_np (sel : Selector) : FarFault (.np (selCode sel)) := by
  simp [FarFault, CodeLowClear, selCode_low]

@[simp] theorem farFault_farRetIret : FarFault (.cp .farRetIret) := by simp [FarFault, CodeLowClear]
@[simp] theorem farFault_memFault : FarFault .memFault := by simp [FarFault, CodeLowClear]

theorem RealFault.farFault {f : Fault} (h : RealFault f) : FarFault f := by
  rcases realFault_iff.mp h with rfl | rfl | rfl
  · exact farFault_ss_zero
  · exact farFault_gp_zero
  · exact farFault_memFault

theorem NearFault.codeLowClear {f : Fault} (h : NearFault f) : CodeLowClear f := by
  rcases nearFault_iff.mp h with rfl | rfl | rfl | rfl
  · exact farFault_ss_zero.2
  · exact farFault_gp_zero.2
  · simp [CodeLowClear]
  · simp [CodeLowClear]

section
variable (s : State)

@[simp] theorem memRead_farFault (k : AccessKind) (a : Word) (n : Nat) : FaultsIn FarFault (s.memRead k a n) :=
  memRead_faultsIn farFault_memFault s k a n

@[simp] theorem stackRead_farFault (a n : Width) (k : Nat) : FaultsIn FarFault (s.stackRead a k n) :=
  memRead_farFault s _ _ _

@[simp] theorem sspLoad_farFault (k : Nat) : FaultsIn FarFault (s.sspLoad k) := memRead_farFault s _ _ _

@[simp] theorem readSelector_farFault (a n : Width) (k : Nat) : FaultsIn FarFault (s.readSelector a k n) :=
  (stackRead_farFault s a n k).of_error fun _ => readSelector_eq_error.mp

@[simp] theorem readDesc_farFault (sel : Selector) : FaultsIn FarFault (s.readDesc sel) :=
  (memRead_farFault s _ _ _).of_error fun _ => readDesc_eq_error.mp

@[simp] theorem loadSeg_farFault (sel : Selector) (d : Descriptor) : FaultsIn FarFault (loadSeg sel d) :=
  faultsIn_ite (fun _ => faultsIn_ok _) fun _ => faultsIn_refuse _

@[simp] theorem requireAccessed_farFault (r : SegReg) : FaultsIn FarFault (requireAccessed r) := faultsIn_premise _ _

@[simp] theorem readTarget_farFault (a n : Width) : FaultsIn FarFault (s.readTarget a n) := by
  simp [State.readTarget]

/-- The tests on the return code segment (R122 to R128, R151 to R159). -/
@[simp] theorem checkCodeSegment_farFault (rcs : Selector) : FaultsIn FarFault (s.checkCodeSegment rcs) := by
  simp [State.checkCodeSegment]

/-- The tests on the return stack segment (R137 to R139, R167 to R169). -/
@[simp] theorem checkStackSegment_farFault (rcs rss : Selector) :
    FaultsIn FarFault (s.checkStackSegment rcs rss) := by
  simp [State.checkStackSegment]

@[simp] theorem ia32eStackSegment_farFault (f : FarTarget) (rss : Selector) :
    FaultsIn FarFault (s.ia32eStackSegment f rss) :=
  faultsIn_ite (fun _ => by simp) fun _ => by simp

@[simp] theorem shadowFrame_farFault : FaultsIn FarFault s.shadowFrame := by
  simp [State.shadowFrame]

@[simp] theorem sameShadowStep_farFault : FaultsIn FarFault s.sameShadowStep :=
  faultsIn_ite (fun _ => by simp) fun _ => by simp

@[simp] theorem outerShadowTests_farFault (c : BitVec 2) : FaultsIn FarFault (s.outerShadowTests c) := by
  refine faultsIn_ite (fun _ => faultsIn_bind.mpr ⟨by simp, fun _ _ => ?_⟩) fun _ => by simp
  exact faultsIn_ite (fun _ => by simp) fun _ => by simp

@[simp] theorem switchSsp_farFault (saved : Option Word) : FaultsIn FarFault (s.switchSsp saved) := by
  refine faultsIn_ite (fun _ => ?_) fun _ => by simp
  split <;> simp

@[simp] theorem freeOldToken_farFault (en : Bool) (old : Word) : FaultsIn FarFault (s.freeOldToken en old) := by
  refine faultsIn_ite (fun _ => (memRead_farFault s .shadowLockedWrite old 8).of_error fun e he => ?_) fun _ => by simp
  unfold State.freeToken State.lockCmpxchg8b at he
  split at he
  · split at he <;> cases he
  · rename_i hread
    cases he
    exact hread

@[simp] theorem sameLevel_farFault (f : FarTarget) : FaultsIn FarFault (s.sameLevel f) := by
  simp [State.sameLevel]

@[simp] theorem outerLevel_farFault (f : FarTarget) (cs ss : SegReg) (esp : Word) :
    FaultsIn FarFault (s.outerLevel f cs esp ss) := by
  simp [State.outerLevel]

@[simp] theorem farPath_farFault (f : FarTarget) : FaultsIn FarFault (farPath f s) := by
  refine faultsIn_ite (fun _ => ?_) fun _ => ?_
  · cases s.ia32e with
    | false => simp [protOuter]
    | true => simp [ia32eOuter]
  · cases s.ia32e with
    | false => simp [protSame]
    | true => simp [ia32eSame]

theorem farReturn_faultsIn (n : Width) (imm : Option (BitVec 16)) : FaultsIn FarFault (farReturn n imm s) := by
  cases hmode : s.realOrV86 with
  | true =>
    rw [farReturn, if_pos hmode]
    exact fun f hf => (realFarReturn_faultsIn n imm s f hf).farFault
  | false =>
    rw [farReturn_eq_farPath hmode]
    simp

end

/-! ## The statement -/

/-- Settles O18: the exceptions of the near, the real-address and the far procedure. -/
theorem exceptionsOfEachForm : Obligations.ExceptionsOfEachForm := by
  intro i s f h
  rw [exec_eq, finish_eq_fault] at h
  obtain ⟨n, -, h⟩ := procedure_of_stop (by simp) (by simp) (by simp) h
  cases hf : i.isFar with
  | false =>
    simp only [hf, Bool.false_eq_true, if_false] at h
    have hnear := nearReturn_faultsIn n i.imm s f h
    exact ⟨fun _ => hnear, by simp, by simp, hnear.codeLowClear⟩
  | true =>
    simp only [hf, if_true] at h
    obtain ⟨hne, hcode⟩ := farReturn_faultsIn s n i.imm f h
    refine ⟨by simp, fun _ hmode => ?_, fun _ => hne, hcode⟩
    rw [farReturn, if_pos hmode] at h
    exact realFarReturn_faultsIn n i.imm s f h

end Sys2Proof.Proofs
end

section
/-! SUPPORT. The far return in real-address and virtual-8086 mode: what it leaves when it completes, where it stops,
what it does not read (R112 to R118). -/

namespace Sys2Proof.Proofs

open Sys2Proof.Machine Sys2Proof.Laws

/-! ## The procedure, test by test -/

/-- The state with both items popped and CS and RIP loaded from them, before the release (R113, R114, R116). -/
def realEntered (n : Width) (v c : Word) (s : State) : State :=
  ((s.addSp s.stackAddressSize (2 * n.bytes)).writeIp n v).loadCsReal (c.setWidth 16)

/-- The stack test passed and the first item read, the target test decides (R113, R114, R118). -/
theorem realFarReturn_of_stack {s : State} {n : Width} {v : Word}
    (hst : s.stackWithin s.stackAddressSize (2 * n.bytes) = true)
    (hv : s.stackRead s.stackAddressSize 0 n = .ok v) (imm : Option (BitVec 16)) :
    realFarReturn n imm s = (do
      require (s.codeWithin v s.cs.desc) (.gp 0)
      let (c, t) ← ((s.addSp s.stackAddressSize n.bytes).writeIp n v).pop s.stackAddressSize n
      (t.loadCsReal (c.setWidth 16)).releaseReal imm) := by
  have hpop : s.pop s.stackAddressSize n = .ok (v, s.addSp s.stackAddressSize n.bytes) := pop_eq_ok.mpr ⟨hv, rfl⟩
  simp only [realFarReturn, hst, hpop, require_true, ok_bind]
  rfl

/-- The target test passed and the second item read, the release is left (R115, R116). -/
theorem realFarReturn_of_items {s : State} {n : Width} {v c : Word}
    (hst : s.stackWithin s.stackAddressSize (2 * n.bytes) = true)
    (hv : s.stackRead s.stackAddressSize 0 n = .ok v) (ht : s.codeWithin v s.cs.desc = true)
    (hc : s.stackRead s.stackAddressSize n.bytes n = .ok c) (imm : Option (BitVec 16)) :
    realFarReturn n imm s = (realEntered n v c s).releaseReal imm := by
  have hpop : ((s.addSp s.stackAddressSize n.bytes).writeIp n v).pop s.stackAddressSize n
      = .ok (c, (s.addSp s.stackAddressSize (2 * n.bytes)).writeIp n v) := by
    refine pop_eq_ok.mpr ⟨(stackRead_addSp s s.stackAddressSize n n.bytes 0).trans hc, ?_⟩
    rw [two_mul, ← addSp_addSp]
    rfl
  simp only [realFarReturn_of_stack hst hv, ht, hpop, require_true, ok_bind]
  rfl

/-! ## The far return that completes -/

/-- Where SS.B allows a release its 16-bit stack pointer is the one in force (R77, R115). -/
theorem stackAddressSize_of_real {s : State} (hmode : s.realOrV86 = true) (hdb : s.ss.desc.db = false) :
    s.stackAddressSize = .w16 := by
  simp [State.stackAddressSize, not_in64_of_realOrV86 hmode, hdb]

/-- One increment in place takes the stack pointer past both items and the released bytes (R113 to R115). -/
theorem realEntered_release_rsp {s : State} {imm : Option (BitVec 16)} (hmode : s.realOrV86 = true)
    (himm : imm.isSome = true → s.ss.desc.db = false) (n : Width) (v c : Word) :
    ((realEntered n v c s).release .w16 imm).rsp = (s.addSp s.stackAddressSize (2 * n.bytes + srcBytes imm)).rsp := by
  have hwidth : (realEntered n v c s).release .w16 imm = (realEntered n v c s).release s.stackAddressSize imm := by
    cases imm with
    | none => rfl
    | some k => rw [stackAddressSize_of_real hmode (himm rfl)]
  rw [hwidth]
  exact release_rsp_of_addSp imm rfl

/-- The other changes are those of RIP, an item that fits, and CS, whose base alone is new in a valid hidden part (R116,
R117; log 30). -/
theorem realEntered_release_frame {s : State} {n : Width} {v c : Word} (hcs : s.cs.hidden.isSome = true)
    (hv : s.stackRead s.stackAddressSize 0 n = .ok v) (imm : Option (BitVec 16)) :
    (realEntered n v c s).release .w16 imm =
      { s with
        rip := v
        cs := { sel := c.setWidth 16
                hidden := some { s.cs.desc with base := (c.setWidth 16 : Selector).setWidth 32 <<< 4 } }
        rsp := ((realEntered n v c s).release .w16 imm).rsp } := by
  obtain ⟨d, hd⟩ := Option.isSome_iff_exists.mp hcs
  obtain ⟨r, hr⟩ := release_eq (realEntered n v c s) .w16 imm
  have hip : truncTo n v = v := truncTo_of_lt (stackRead_lt hv)
  rw [hr]
  simp [realEntered, State.loadCsReal, State.writeIp, State.addSp, SegReg.desc, hip, hd]

/-- A form that is ready has a valid hidden part of CS (R211). -/
theorem cs_valid_of_ready {i : Instr} {s : State} {n : Width} (hr : s.ready i n) : s.cs.hidden.isSome = true := by
  obtain ⟨_, hcs, _⟩ := bind_eq_ok.mp hr.1
  exact premise_eq_ok.mp hcs

/-- Settles O26: the tests pass, and the state left has one increment of the stack pointer in it. -/
theorem realFarReturnCompletes : Obligations.RealFarReturnCompletes := by
  intro i s n v c hf hr hmode hst hv ht hc himm
  have hok : realFarReturn n i.imm s = .ok ((realEntered n v c s).release .w16 i.imm) := by
    rw [realFarReturn_of_items hst hv ht hc]
    exact releaseReal_eq_ok.mpr ⟨himm, rfl⟩
  have hrsp := realEntered_release_rsp hmode himm n v c
  refine ⟨_, by rw [exec_real hf hr hmode, hok]; rfl, ?_, fun ha => ?_, fun ha => ?_, ?_⟩
  · simp only [State.sp, hrsp]
    exact addSp_sp s _ _
  · simp only [hrsp]
    exact addSp_hi ha s _
  · simp only [hrsp, addSp_rsp, ha, writeView_w16_mid]
  · rw [realEntered_release_frame (cs_valid_of_ready hr) hv]

/-! ## The far return that stops -/

/-- The release of an operand, of any value, is refused where SS.B is 1 (R115; logs 15 and 37). -/
theorem releaseReal_of_refused {s : State} {imm : Option (BitVec 16)} (himm : imm.isSome = true)
    (hdb : s.ss.desc.db = true) : s.releaseReal imm = .error (.refused .realStack16) := by
  cases imm with
  | none => exact absurd himm (by decide)
  | some k => simp [State.releaseReal, hdb]

/-- Settles O27: each stop with what precedes it passed. -/
theorem realFarReturnStopsInOrder : Obligations.RealFarReturnStopsInOrder := by
  intro i s n hf hr hmode
  rw [exec_real hf hr hmode, finish_eq_fault, finish_eq_fault, finish_eq_refused]
  refine ⟨fun hst => ?_, fun hst v hv => ⟨fun ht => ?_, fun ht c hc himm hdb => ?_⟩⟩
  · simp only [realFarReturn, hst, require_false, error_bind]
  · simp only [realFarReturn_of_stack hst hv, ht, require_false, error_bind]
  · rw [realFarReturn_of_items hst hv ht hc]
    exact releaseReal_of_refused himm hdb

/-! ## What it does not read -/

/-- The state with the level, the descriptor tables, SSP and the CET registers of `u`. -/
def withPrivilege (u s : State) : State :=
  { s with cpl := u.cpl, ssp := u.ssp,
           sys := { s.sys with gdtr := u.sys.gdtr, ldtr := u.sys.ldtr, cr4 := u.sys.cr4, uCet := u.sys.uCet,
                               sCet := u.sys.sCet, pl3Ssp := u.sys.pl3Ssp } }

section
variable (u s : State)

/-- `Pop` reads the stack alone and changes the stack pointer alone (R53). -/
theorem withPrivilege_pop (a n : Width) :
    (withPrivilege u s).pop a n = Prod.map id (withPrivilege u) <$> s.pop a n := by
  have hread : (withPrivilege u s).stackRead a 0 n = s.stackRead a 0 n := rfl
  simp only [State.pop, hread]
  cases s.stackRead a 0 n <;> rfl

/-- The release reads SS.B alone and changes the stack pointer alone (R115). -/
theorem withPrivilege_releaseReal (imm : Option (BitVec 16)) :
    (withPrivilege u s).releaseReal imm = withPrivilege u <$> s.releaseReal imm := by
  cases imm with
  | none => rfl
  | some k =>
    simp only [State.releaseReal, map_bind]
    rfl

/-- No test of the procedure and no load of it reads what has changed (R113). -/
theorem withPrivilege_realFarReturn (n : Width) (imm : Option (BitVec 16)) :
    realFarReturn n imm (withPrivilege u s) = withPrivilege u <$> realFarReturn n imm s := by
  have hsize : (withPrivilege u s).stackAddressSize = s.stackAddressSize := rfl
  have hstack : (withPrivilege u s).stackWithin = s.stackWithin := rfl
  have hcode : ∀ t, (withPrivilege u t).codeWithin = t.codeWithin := fun _ => rfl
  have hcs : ∀ t, (withPrivilege u t).cs = t.cs := fun _ => rfl
  have hip : ∀ t v, (withPrivilege u t).writeIp n v = withPrivilege u (t.writeIp n v) := fun _ _ => rfl
  have hload : ∀ t sel, (withPrivilege u t).loadCsReal sel = withPrivilege u (t.loadCsReal sel) := fun _ _ => rfl
  simp only [realFarReturn, map_bind, bind_map_left, Prod.map_fst, Prod.map_snd, id, hsize, hstack, hcode, hcs, hip,
    hload, withPrivilege_pop, withPrivilege_releaseReal]

end

/-- A change of the state reached that leaves the draw counter alone can be made before the outcome or after it. -/
theorem finish_map {g : State → State}
    (hg : ∀ t, g { t with draws := t.draws + 1 } = { g t with draws := (g t).draws + 1 }) (x : Exec State) :
    finish (g <$> x) = mapNext g (finish x) := by
  rcases x with (f | r) | t
  · rfl
  · rfl
  · exact congrArg _ (hg t).symm

/-- Every outcome of a far return in real-address or virtual-8086 mode is that of the state with its own level, tables
and shadow-stack registers, but for them. -/
theorem exec_withPrivilege {i : Instr} {s : State} (u : State) (hf : i.isFar = true) (hmode : s.realOrV86 = true) :
    exec i (withPrivilege u s) = mapNext (withPrivilege u) (exec i s) := by
  have hmode' : (withPrivilege u s).realOrV86 = true := hmode
  have hsegments : (withPrivilege u s).requireSegments = s.requireSegments := rfl
  have hsize : (withPrivilege u s).operandSize = s.operandSize := rfl
  rw [exec_eq_far hf, exec_eq_far hf, ← finish_map fun _ => rfl]
  simp only [runFar, farReturn, hmode, hmode', if_true, hsegments, hsize, withPrivilege_realFarReturn, map_bind]

/-- Settles O28: the far return commutes with the change, and no form writes a system register. -/
theorem realFarReturnReadsNoPrivilegeState : Obligations.RealFarReturnReadsNoPrivilegeState := by
  intro i s c g l ssp cr4 uCet sCet p hf hmode
  let u : State :=
    { s with cpl := c, ssp := ssp,
             sys := { s.sys with gdtr := g, ldtr := l, cr4 := cr4, uCet := uCet, sCet := sCet, pl3Ssp := p } }
  refine (exec_withPrivilege u hf hmode).trans (mapNext_congr fun t ht => ?_)
  obtain ⟨-, -, hsys, -⟩ := exec_frame ht
  simp only [withPrivilege, hsys, u]

end Sys2Proof.Proofs
end

section
/-! SUPPORT. Where the tests of a far return in protected and IA-32e mode stop it (R120 to R140, R150 to R170). -/

namespace Sys2Proof.Proofs

open Sys2Proof.Machine Sys2Proof.Laws

/-! ## The stack -/

/-- A stack test that fails for the whole frame ends an outer return before the stack selector is read (R135, R165). -/
theorem farPath_outer_of_stack_outside {s : State} {f : FarTarget} (hlevel : s.cpl < rpl f.rcs)
    (ha : f.a = s.stackAddressSize) (hst : s.farStackOk f.n (4 * f.n.bytes + srcBytes f.imm) = false) :
    farPath f s = .error (.fault (.ss 0)) := by
  obtain ⟨rest, hrest⟩ := farPath_outer hlevel ha
  rw [hrest, hst, require_false, error_bind]

/-- Settles O29: the first test of the far return, and the first of its outer path. -/
theorem farStackOutsideIsStackFault : Obligations.FarStackOutsideIsStackFault := by
  intro i s n hf hr hs
  rw [exec_farPath hf hr hs, finish_eq_fault]
  refine ⟨fun hst => ?_, fun ip rcs d h1 h2 h3 h4 hst => ?_⟩
  · rw [hst, require_false, error_bind]
  · simp only [h1, h2, h3, require_true, ok_bind]
    exact farPath_outer_of_stack_outside h4 rfl hst

/-! ## The return code segment -/

/-- Two tests in a row that raise the same exception are one test of both. -/
theorem require_require {α : Type} (a b : Bool) (f : Fault) (x : Exec α) :
    (require a f >>= fun _ => require b f >>= fun _ => x) = (require (a && b) f >>= fun _ => x) := by
  cases a <;> rfl

section
variable {s : State} {rcs : Selector} {d : Descriptor}

theorem checkCodeSegment_of_null (hnull : isNull rcs = true) :
    s.checkCodeSegment rcs = .error (.fault (.gp 0)) := by
  simp only [State.checkCodeSegment, hnull, Bool.not_true, require_false, error_bind]

theorem checkCodeSegment_of_beyondLimit (hnull : isNull rcs = false) (hlimit : s.beyondLimit rcs = true) :
    s.checkCodeSegment rcs = .error (.fault (.gp (selCode rcs))) := by
  simp only [State.checkCodeSegment, hnull, hlimit, Bool.not_false, Bool.not_true, require_true, require_false, ok_bind,
    error_bind]

theorem checkCodeSegment_of_not_canonical (hnull : isNull rcs = false) (hlimit : s.beyondLimit rcs = false)
    (hmode : s.ia32e = true) (hcanon : s.rangeCanonical (s.descAddr rcs) 8 = false) :
    s.checkCodeSegment rcs = .error (.fault (.gp (selCode rcs))) := by
  simp only [State.checkCodeSegment, hnull, hlimit, hmode, hcanon, Bool.not_false, Bool.not_true, Bool.or_self,
    require_true, require_false, ok_bind, error_bind]

/-- The type and privilege tests on a return code segment together (R124 to R127, R154 to R158). -/
def codeSegmentFits (s : State) (rcs : Selector) (d : Descriptor) : Bool :=
  d.isCode && (!(s.ia32e && d.l && d.db) && (!decide (rpl rcs < s.cpl) &&
    (!(d.ec && decide (rpl rcs < d.dpl)) && (d.ec || d.dpl == rpl rcs))))

/-- They fail where one of them does. -/
theorem codeSegmentFits_eq_false :
    codeSegmentFits s rcs d = false ↔
      (d.s && d.x) = false ∨ (s.ia32e = true ∧ d.l = true ∧ d.db = true) ∨ rpl rcs < s.cpl ∨
        (d.ec = true ∧ rpl rcs < d.dpl) ∨ (d.ec = false ∧ d.dpl ≠ rpl rcs) := by
  simp only [codeSegmentFits, Descriptor.isCode, Bool.and_eq_false_iff, Bool.or_eq_false_iff, Bool.not_eq_false',
    Bool.and_eq_true, decide_eq_true_eq, beq_eq_false_iff_ne, and_assoc]

/-- The descriptor read, its type and privilege are tested and then its presence (R124 to R128, R154 to R159). -/
theorem checkCodeSegment_of_readDesc (hnull : isNull rcs = false) (hlimit : s.beyondLimit rcs = false)
    (hcanon : s.ia32e = true → s.rangeCanonical (s.descAddr rcs) 8 = true) (hd : s.readDesc rcs = .ok d) :
    s.checkCodeSegment rcs = (do
      require (codeSegmentFits s rcs d) (.gp (selCode rcs))
      require d.p (.np (selCode rcs))
      .ok d) := by
  simp only [State.checkCodeSegment, hnull, hlimit, descriptorRange_of_imp hcanon, hd, Bool.not_false, require_true,
    ok_bind, require_require, codeSegmentFits]

end

/-- A far return ends where the tests on its code segment do (R122 to R128, R151 to R159). -/
theorem exec_of_code_fault {i : Instr} {s : State} {n : Width} {ip : Word} {rcs : Selector} {f : Fault}
    (hf : i.isFar = true) (hr : s.ready i n) (hs : s.segmented = true) (h1 : s.farStackOk n (2 * n.bytes) = true)
    (h2 : s.readTarget s.stackAddressSize n = .ok (ip, rcs)) (h : s.checkCodeSegment rcs = .error (.fault f)) :
    exec i s = .fault f := by
  rw [exec_after_read hf hr hs h1 h2, h, error_bind]
  rfl

/-- Settles O30: the first test on the code segment. -/
theorem nullCodeSelectorIsGeneralProtection : Obligations.NullCodeSelectorIsGeneralProtection :=
  fun _ _ _ _ _ hf hr hs h1 h2 hnull => exec_of_code_fault hf hr hs h1 h2 (checkCodeSegment_of_null hnull)

/-- Settles O31: each test with what precedes it passed. -/
theorem codeSegmentTestsInOrder : Obligations.CodeSegmentTestsInOrder := by
  intro i s n ip rcs hf hr hs h1 h2 hnull
  have hfault : ∀ f, s.checkCodeSegment rcs = .error (.fault f) → exec i s = .fault f :=
    fun _ => exec_of_code_fault hf hr hs h1 h2
  refine ⟨fun hlimit => ?_, fun hlimit => ⟨fun hmode hcanon => ?_, fun hcanon d hd => ⟨fun hbad => ?_, ?_⟩⟩⟩
  · exact hfault _ (checkCodeSegment_of_beyondLimit hnull hlimit)
  · exact hfault _ (checkCodeSegment_of_not_canonical hnull hlimit hmode hcanon)
  · refine hfault _ ?_
    rw [checkCodeSegment_of_readDesc hnull hlimit hcanon hd, codeSegmentFits_eq_false.mpr hbad, require_false,
      error_bind]
    rfl
  · rintro ⟨htype, hld, hrpl, hconf, hnonconf, hp⟩
    have hfits : codeSegmentFits s rcs d = true := by
      rw [← Bool.not_eq_false, codeSegmentFits_eq_false]
      simp [htype, hld, hrpl, hconf, hnonconf]
    refine hfault _ ?_
    rw [checkCodeSegment_of_readDesc hnull hlimit hcanon hd, hfits, hp, require_true, ok_bind, require_false,
      error_bind]
    rfl

/-! ## The return stack segment -/

section
variable {s : State} {rcs rss : Selector} {ds : Descriptor}

theorem checkStackSegment_of_beyondLimit (hlimit : s.beyondLimit rss = true) :
    s.checkStackSegment rcs rss = .error (.fault (.gp (selCode rss))) := by
  simp only [State.checkStackSegment, hlimit, Bool.not_true, require_false, error_bind]

theorem checkStackSegment_of_not_canonical (hlimit : s.beyondLimit rss = false) (hmode : s.ia32e = true)
    (hcanon : s.rangeCanonical (s.descAddr rss) 8 = false) :
    s.checkStackSegment rcs rss = .error (.fault (.gp (selCode rss))) := by
  simp only [State.checkStackSegment, hlimit, hmode, hcanon, Bool.not_false, Bool.not_true, Bool.or_self, require_true,
    require_false, ok_bind, error_bind]

/-- The tests of RPL, type and DPL on a return stack segment together (R138, R168). -/
def stackSegmentFits (rcs rss : Selector) (ds : Descriptor) : Bool :=
  rpl rss == rpl rcs && ds.isWritableData && ds.dpl == rpl rcs

/-- They fail where one of them does. -/
theorem stackSegmentFits_eq_false :
    stackSegmentFits rcs rss ds = false ↔
      rpl rss ≠ rpl rcs ∨ (ds.s && !ds.x && ds.rw) = false ∨ ds.dpl ≠ rpl rcs := by
  simp only [stackSegmentFits, Descriptor.isWritableData, Bool.and_eq_false_iff, beq_eq_false_iff_ne, or_assoc]

/-- The descriptor read, RPL, type and DPL are tested and then its presence (R138, R139, R168, R169). -/
theorem checkStackSegment_of_readDesc (hlimit : s.beyondLimit rss = false)
    (hcanon : s.ia32e = true → s.rangeCanonical (s.descAddr rss) 8 = true) (hd : s.readDesc rss = .ok ds) :
    s.checkStackSegment rcs rss = (do
      require (stackSegmentFits rcs rss ds) (.gp (selCode rss))
      require ds.p (.ss (selCode rss))
      .ok ds) := by
  simp only [State.checkStackSegment, hlimit, descriptorRange_of_imp hcanon, hd, Bool.not_false, require_true, ok_bind,
    stackSegmentFits]

/-- The register of a selector that is not null is that of the tests on its segment, in both modes (R136 to R139, R166
to R169). -/
theorem outerStackRegister_of_not_null {f : FarTarget} (hnull : isNull rss = false) :
    outerStackRegister s f rss = (do
      let ds ← s.checkStackSegment f.rcs rss
      .ok { sel := rss, hidden := some ds }) := by
  simp only [outerStackRegister, State.ia32eStackSegment, hnull, Bool.false_eq_true, if_false, Bool.not_false,
    require_true, ok_bind, ite_self]

/-- A null selector fails outside IA-32e mode (R136). -/
theorem outerStackRegister_of_null {f : FarTarget} (hmode : s.ia32e = false) (hnull : isNull rss = true) :
    outerStackRegister s f rss = .error (.fault (.gp 0)) := by
  simp only [outerStackRegister, hmode, hnull, Bool.false_eq_true, if_false, Bool.not_true, require_false, error_bind]

end

section
variable {i : Instr} {s : State} {n : Width} {ip : Word} {rcs rss : Selector} {d : Descriptor} (hf : i.isFar = true)
  (hr : s.ready i n) (hs : s.segmented = true) (h1 : s.farStackOk n (2 * n.bytes) = true)
  (h2 : s.readTarget s.stackAddressSize n = .ok (ip, rcs)) (h3 : s.checkCodeSegment rcs = .ok d)
  (h4 : s.cpl < rpl rcs) (h5 : s.farStackOk n (4 * n.bytes + srcBytes i.imm) = true)
  (h6 : s.readSelector s.stackAddressSize (3 * n.bytes + srcBytes i.imm) n = .ok rss)
include hf hr hs h1 h2 h3 h4 h5 h6

/-- An outer return ends where the tests on its stack segment do (R136 to R139, R166 to R169). -/
theorem exec_of_stack_fault {f : Fault}
    (h : outerStackRegister s { n := n, imm := i.imm, a := s.stackAddressSize, ip := ip, rcs := rcs, d := d } rss
      = .error (.fault f)) : exec i s = .fault f := by
  rw [exec_outer hf hr hs h1 h2 h3 h4 h5 h6, finish_eq_fault]
  exact bind_eq_error.mpr (.inl h)

/-- So it does where those of a selector that is not null do. -/
theorem exec_of_checkStackSegment {f : Fault} (hnull : isNull rss = false)
    (h : s.checkStackSegment rcs rss = .error (.fault f)) : exec i s = .fault f := by
  refine exec_of_stack_fault hf hr hs h1 h2 h3 h4 h5 h6 ?_
  rw [outerStackRegister_of_not_null hnull, h, error_bind]

end

/-- Settles O32: each test with what precedes it passed. -/
theorem stackSegmentTestsInOrder : Obligations.StackSegmentTestsInOrder := by
  intro i s n ip rcs rss d hf hr hs h1 h2 h3 h4 h5 h6 hnull
  have hfault : ∀ f, s.checkStackSegment rcs rss = .error (.fault f) → exec i s = .fault f :=
    fun _ => exec_of_checkStackSegment hf hr hs h1 h2 h3 h4 h5 h6 hnull
  refine ⟨fun hlimit => ?_, fun hlimit => ⟨fun hmode hcanon => ?_, fun hcanon ds hd => ⟨fun hbad => ?_, ?_⟩⟩⟩
  · exact hfault _ (checkStackSegment_of_beyondLimit hlimit)
  · exact hfault _ (checkStackSegment_of_not_canonical hlimit hmode hcanon)
  · refine hfault _ ?_
    rw [checkStackSegment_of_readDesc hlimit hcanon hd, stackSegmentFits_eq_false.mpr hbad, require_false, error_bind]
    rfl
  · rintro ⟨hrpl, htype, hdpl, hp⟩
    have hfits : stackSegmentFits rcs rss ds = true := by
      rw [← Bool.not_eq_false, stackSegmentFits_eq_false]
      simp [hrpl, htype, hdpl]
    refine hfault _ ?_
    rw [checkStackSegment_of_readDesc hlimit hcanon hd, hfits, hp, require_true, ok_bind, require_false, error_bind]
    rfl

/-- Settles O33: the first test on the stack segment in protected mode. -/
theorem nullStackSelectorInProtectedMode : Obligations.NullStackSelectorInProtectedMode :=
  fun _ _ _ _ _ _ _ hf hr hs hmode h1 h2 h3 h4 h5 h6 hnull =>
    exec_of_stack_fault hf hr hs h1 h2 h3 h4 h5 h6 (outerStackRegister_of_null hmode hnull)

/-! ## The target -/

section
variable {s : State} {ip : Word} {d : Descriptor}

/-- The target test fails at the limit, or in IA-32e mode at a pointer that is not canonical (R130, R160). -/
theorem farTargetOk_eq_false :
    s.farTargetOk ip d = false ↔ s.codeWithin ip d = false ∨ (s.ia32e = true ∧ s.canonical ip = false) := by
  cases h : s.codeWithin ip d <;> simp [State.farTargetOk, h]

/-- 64-bit code has no limit (R55, R160). -/
theorem codeWithin_of_long (hmode : s.ia32e = true) (hl : d.l = true) : s.codeWithin ip d = true := by
  have hlma : s.lma = true := by
    simp only [State.ia32e, Bool.and_eq_true] at hmode
    exact hmode.2
  simp [State.codeWithin, hl, hlma]

/-- A pointer of 32 bits is canonical (R56, R160). -/
theorem canonical_of_lt (h : ip.toNat < 2 ^ 32) : s.canonical ip = true := by
  rw [canonical_iff]
  left
  cases s.sys.vaBits <;> simp only [VaBits.bits] <;> omega

/-- A pointer popped at another operand size than 64 is canonical (R160, R170). -/
theorem canonical_of_readTarget {a n : Width} {rcs : Selector} (h : s.readTarget a n = .ok (ip, rcs))
    (hn : n ≠ .w64) : s.canonical ip = true := by
  have hlt := stackRead_lt (readTarget_eq_ok.mp h).1
  apply canonical_of_lt
  cases n with
  | w16 => simp only [Width.bits] at hlt; omega
  | w32 => exact hlt
  | w64 => exact absurd rfl hn

end

/-- Settles O35: the target test follows those of the code segment. -/
theorem sameLevelTargetOutsideIsGeneralProtection : Obligations.SameLevelTargetOutsideIsGeneralProtection := by
  intro i s n ip rcs d hf hr hs h1 h2 h3 h4
  refine ⟨fun hbad => ?_, codeWithin_of_long, canonical_of_readTarget h2⟩
  rw [exec_same hf hr hs h1 h2 h3 h4, farTargetOk_eq_false.mpr hbad, require_false, error_bind]
  rfl

/-- Settles O46: the target test follows those of the stack segment. -/
theorem outerTargetOutsideIsGeneralProtection : Obligations.OuterTargetOutsideIsGeneralProtection := by
  intro i s n ip rcs rss d ss hf hr hs h1 h2 h3 h4 h5 h6 h7
  refine ⟨fun hbad => ?_, codeWithin_of_long, canonical_of_readTarget h2⟩
  rw [exec_outer_passed hf hr hs h1 h2 h3 h4 h5 h6 h7, farTargetOk_eq_false.mpr hbad, require_false, error_bind]
  rfl

end Sys2Proof.Proofs
end

section
/-! SUPPORT. The far return to the same level in protected and IA-32e mode: the state it leaves, and its shadow-stack
step (R131 to R134, R161 to R164). -/

namespace Sys2Proof.Proofs

open Sys2Proof.Machine Sys2Proof.Laws

/-! ## The state before the shadow-stack step -/

/-- RIP and CS are those returned to, and the stack pointer is past both items and the released bytes by one increment
in place (R131, R132, R161, R162). -/
def sameEntered (s : State) (f : FarTarget) : State :=
  { s with
    rip := f.ip
    cs := { sel := f.rcs, hidden := some f.d }
    rsp := (s.addSp f.a (2 * f.n.bytes + srcBytes f.imm)).rsp }

/-- What a return to the same level writes before its shadow-stack step. -/
theorem enterCode_addSp_release {s : State} {f : FarTarget} (hip : truncTo f.n f.ip = f.ip) :
    ((s.enterCode f { sel := f.rcs, hidden := some f.d }).addSp f.a (2 * f.n.bytes)).release f.a f.imm
      = sameEntered s f := by
  set w := (s.enterCode f { sel := f.rcs, hidden := some f.d }).addSp f.a (2 * f.n.bytes) with hw
  have hrsp : (w.release f.a f.imm).rsp = (sameEntered s f).rsp := release_rsp_of_addSp f.imm rfl
  obtain ⟨r, hr⟩ := release_eq w f.a f.imm
  rw [hr] at hrsp ⊢
  obtain rfl : r = (sameEntered s f).rsp := hrsp
  simp only [hw, sameEntered, State.addSp, State.enterCode, State.writeIp, hip]

/-- The target and the code descriptor passed, the shadow-stack step is left (R130 to R133, R160 to R163). -/
theorem exec_same_passed {i : Instr} {s : State} {n : Width} {ip : Word} {rcs : Selector} {d : Descriptor}
    (hf : i.isFar = true) (hr : s.ready i n) (hs : s.segmented = true) (h1 : s.farStackOk n (2 * n.bytes) = true)
    (h2 : s.readTarget s.stackAddressSize n = .ok (ip, rcs)) (h3 : s.checkCodeSegment rcs = .ok d)
    (h4 : ¬ s.cpl < rpl rcs) (h5 : s.farTargetOk ip d = true) (h6 : d.accessed = true) :
    exec i s = finish (sameEntered s { n := n, imm := i.imm, a := s.stackAddressSize, ip := ip, rcs := rcs, d := d }
      ).sameShadowStep := by
  rw [exec_same hf hr hs h1 h2 h3 h4, h5, require_true, ok_bind, sameLevel_of_accessed h6,
    enterCode_addSp_release (truncTo_of_readTarget h2)]

/-! ## The shadow-stack step -/

section
variable {s : State} {savedCs savedLip savedSsp : Word}

/-- Without a shadow stack the step changes nothing (R133, R163). -/
theorem sameShadowStep_of_disabled (hen : s.shadowStackEnabled s.cpl = false) : s.sameShadowStep = .ok s :=
  sameShadowStep_eq_ok.mpr (.inl ⟨hen, rfl⟩)

/-- With one SSP is tested first (R133, R163). -/
theorem sameShadowStep_of_misaligned (hen : s.shadowStackEnabled s.cpl = true) (hal : s.sspAligned = false) :
    s.sameShadowStep = .error (.fault (.cp .farRetIret)) := by
  simp only [State.sameShadowStep, hen, hal, if_true, require_false, error_bind]

variable (hen : s.shadowStackEnabled s.cpl = true) (hal : s.sspAligned = true) (l1 : s.sspLoad 16 = .ok savedCs)
  (l2 : s.sspLoad 8 = .ok savedLip) (l3 : s.sspLoad 0 = .ok savedSsp)
include hen hal l1 l2 l3

/-- A frame that does not match, or whose saved SSP is misaligned, is the second exception of the step (R133, R163). -/
theorem sameShadowStep_of_mismatch
    (h : s.cs.sel.setWidth 64 ≠ savedCs ∨ s.lip ≠ savedLip ∨ savedSsp &&& 3#64 ≠ 0#64) :
    s.sameShadowStep = .error (.fault (.cp .farRetIret)) := by
  simp only [State.sameShadowStep, hen, hal, if_true, require_true, ok_bind, shadowFrame_of_loads l1 l2 l3, if_pos h,
    error_bind]

/-- A frame that matches leaves the range test of the saved SSP and its load (R133, R163). -/
theorem sameShadowStep_of_match
    (h : s.cs.sel.setWidth 64 = savedCs ∧ s.lip = savedLip ∧ savedSsp &&& 3#64 = 0#64) :
    s.sameShadowStep = (do
      require (s.newSspOk savedSsp) (.gp 0)
      .ok { s with ssp := savedSsp }) := by
  have hmatch : ¬(s.cs.sel.setWidth 64 ≠ savedCs ∨ s.lip ≠ savedLip ∨ savedSsp &&& 3#64 ≠ 0#64) := by
    simpa only [not_or, not_not] using h
  simp only [State.sameShadowStep, hen, hal, if_true, require_true, ok_bind, shadowFrame_of_loads l1 l2 l3,
    if_neg hmatch]
  rfl

end

/-- The linear instruction pointer that the step compares (R133, R163). -/
theorem sameEntered_lip (s : State) (f : FarTarget) : (sameEntered s f).lip = s.lipIn f.d f.ip :=
  lip_enter _ rfl rfl rfl rfl

/-- The range that the step asks of the saved SSP (R133, R163). -/
theorem sameEntered_newSspOk (s : State) (f : FarTarget) (v : Word) : (sameEntered s f).newSspOk v = s.sspOkIn f.d v :=
  newSspOk_enter (rcs := f.rcs) _ rfl rfl rfl v

/-- With a frame that passes the step changes SSP alone, and to the saved one (R133, R163). -/
theorem sameEntered_sameShadowStep {s : State} {f : FarTarget} {prev : Word}
    (h : s.shadowStackEnabled s.cpl = true →
      s.sspAligned = true ∧ s.farFrameIs f.rcs (s.lipIn f.d f.ip) prev ∧ s.sspOkIn f.d prev = true) :
    (sameEntered s f).sameShadowStep
      = .ok { sameEntered s f with ssp := if s.shadowStackEnabled s.cpl then prev else s.ssp } := by
  cases hen : s.shadowStackEnabled s.cpl with
  | false => exact sameShadowStep_of_disabled hen
  | true =>
    obtain ⟨hal, hframe, hok⟩ := h hen
    rw [← sameEntered_lip] at hframe
    rw [← sameEntered_newSspOk] at hok
    exact sameShadowStep_eq_ok.mpr (.inr ⟨hen, hal, prev, hframe, hok, rfl⟩)

/-- Settles O36: the tests and the step pass, and the state left has one increment of the stack pointer in it. -/
theorem sameLevelFarReturnCompletes : Obligations.SameLevelFarReturnCompletes := by
  intro i s n ip prev rcs d hf hr hs h1 h2 h3 h4 h5 h6 hshadow
  rw [exec_same_passed hf hr hs h1 h2 h3 h4 h5 h6, sameEntered_sameShadowStep hshadow]
  refine ⟨_, rfl, addSp_sp s _ _, fun ha => addSp_hi ha s _, fun ha => ?_, rfl⟩
  simp only [sameEntered, addSp_rsp, ha, writeView_w16_mid]

/-- Settles O37: each test of the step with what precedes it passed. -/
theorem sameLevelShadowStackStep : Obligations.SameLevelShadowStackStep := by
  intro i s n ip rcs d hf hr hs h1 h2 h3 h4 h5 h6
  rw [exec_same_passed hf hr hs h1 h2 h3 h4 h5 h6]
  set f : FarTarget := { n := n, imm := i.imm, a := s.stackAddressSize, ip := ip, rcs := rcs, d := d }
  set w := sameEntered s f
  have hal : w.sspAligned = (s.ssp &&& 7#64 == 0#64) := sspAligned_eq w
  refine ⟨fun hoff => ?_, fun hen => ⟨fun hmis => ?_, fun hok savedCs savedLip savedSsp l1 l2 l3 => ?_⟩⟩
  · rw [sameShadowStep_of_disabled (s := w) hoff]
    exact ⟨_, rfl, rfl⟩
  · rw [sameShadowStep_of_misaligned (s := w) hen (by simp [hal, hmis])]
    rfl
  · have hal : w.sspAligned = true := by simp [hal, hok]
    rw [← sameEntered_lip s f]
    refine ⟨fun hbad => ?_, fun hmatch => ?_⟩
    · rw [sameShadowStep_of_mismatch (s := w) hen hal l1 l2 l3 hbad]
      rfl
    · rw [sameShadowStep_of_match (s := w) hen hal l1 l2 l3 hmatch, sameEntered_newSspOk]
      refine ⟨fun hout => ?_, fun hin => ?_⟩
      · rw [hout]
        rfl
      · rw [hin]
        exact ⟨_, rfl, rfl⟩

end Sys2Proof.Proofs
end

section
/-! SUPPORT. The far return to an outer level in protected and IA-32e mode: the stack pointer it leaves, the token it
frees, the data segment registers it clears (R141 to R148, R171 to R178). -/

namespace Sys2Proof.Proofs

open Sys2Proof.Machine Sys2Proof.Laws

/-! ## The stack pointer -/

/-- Through any view a write of RSP itself changes nothing (R21). -/
theorem writeView_bits (a : Width) (r : StackPointer) : r.writeView a r.bits = r := by
  have hlo : r.bits.setWidth 16 = r.lo := by rw [← bits_lo r, BitVec.setWidth_eq_extractLsb' (by decide)]
  cases a with
  | w16 => simp only [StackPointer.writeView, hlo]
  | w32 => simp only [StackPointer.writeView, bits_mid, hlo]
  | w64 => exact ofBits_bits r

/-- A view is RSP truncated to its width (R21). -/
theorem view_eq_truncTo (a : Width) (r : StackPointer) : r.view a = truncTo a r.bits := by
  rw [← view_writeView a r r.bits, writeView_bits]

/-- A loaded stack pointer holds the popped value in the bits popped (R143, R173). -/
theorem truncTo_bits_load (n : Width) (draw : Nat) (v : Word) :
    truncTo n (StackPointer.load n draw v).bits = truncTo n v := by
  rw [← view_eq_truncTo, view_load]

/-- Of two words that agree in the bits of one width, the sums with a number, taken in another width, agree in the bits
of both. -/
theorem truncTo_truncTo_add {n : Width} {x y : Word} (h : truncTo n x = truncTo n y) (a : Width) (k : Word) :
    truncTo n (truncTo a (truncTo a x + k)) = truncTo n (truncTo a (y + k)) := by
  have hnat := congrArg BitVec.toNat h
  apply BitVec.eq_of_toNat_eq
  simp only [toNat_truncTo, BitVec.toNat_add] at hnat ⊢
  cases n <;> cases a <;> simp only [Width.bits] at hnat ⊢ <;> omega

/-- After a release the view in use is the one before plus the released bytes (R74, R96, R147, R177). -/
theorem release_sp (s : State) (a : Width) (imm : Option (BitVec 16)) :
    (s.release a imm).sp a = truncTo a (s.sp a + BitVec.ofNat 64 (srcBytes imm)) := by
  cases imm with
  | none =>
    have h := addSp_sp s a 0
    rwa [addSp_zero] at h
  | some v => exact addSp_sp s a v.toNat

/-- A release through SP or ESP leaves RSP[63:32] (R21; log 38). -/
theorem release_hi {a : Width} (h : a ≠ .w64) (s : State) (imm : Option (BitVec 16)) :
    (s.release a imm).rsp.hi = s.rsp.hi :=
  release_elim (P := fun t => t.rsp.hi = s.rsp.hi) rfl fun k => addSp_hi h s k

/-- A release through SP leaves the bits above it (R21; log 38). -/
theorem release_w16_mid (s : State) (imm : Option (BitVec 16)) : (s.release .w16 imm).rsp.mid = s.rsp.mid :=
  release_elim (P := fun t => t.rsp.mid = s.rsp.mid) rfl fun _ => rfl

theorem load_mid {n : Width} (h : n ≠ .w16) (draw : Nat) (v : Word) :
    (StackPointer.load n draw v).mid = v.extractLsb' 16 16 := by
  cases n with
  | w16 => exact absurd rfl h
  | w32 => rfl
  | w64 => rfl

/-! ## The return that completes -/

/-- The freed token is read back as its own address (R60, R145, R175). -/
theorem readLE_token (s : State) (m : Memory) (v : Word) :
    (m.writeLE s.linearBits 8 v.toNat v.toNat).readLE s.linearBits 8 v.toNat = some v.toNat := by
  have hbits : 8 ≤ 2 ^ s.linearBits := by
    unfold State.linearBits
    split <;> norm_num
  rw [readLE_writeLE m 8 v.toNat v.toNat hbits]
  exact congrArg some (Nat.mod_eq_of_lt v.isLt)

/-- The state of an outer return before its release: `esp` is the popped stack pointer, `v` the new SSP where the new
level has a shadow stack, `cur` the token found where the old one has (R141 to R146, R171 to R176). -/
def outerLoaded (s : State) (f : FarTarget) (esp v cur : Word) (ss : SegReg) : State :=
  { s with
    rip := f.ip
    cs := { sel := f.rcs, hidden := some f.d }
    ss := ss
    cpl := rpl f.rcs
    ds := s.ds.afterOuter s.ia32e (rpl f.rcs)
    es := s.es.afterOuter s.ia32e (rpl f.rcs)
    fs := s.fs.afterOuter s.ia32e (rpl f.rcs)
    gs := s.gs.afterOuter s.ia32e (rpl f.rcs)
    rsp := StackPointer.load f.n s.draws esp
    ssp := if s.shadowStackEnabled (rpl f.rcs) then v
      else if s.shadowStackEnabled s.cpl then s.tokenAddress (rpl f.rcs) else s.ssp
    mem := if s.shadowStackEnabled s.cpl = true ∧ cur = s.tokenAddress (rpl f.rcs) ||| 1#64 then
        s.mem.writeLE s.linearBits 8 (s.tokenAddress (rpl f.rcs)).toNat (s.tokenAddress (rpl f.rcs)).toNat
      else s.mem }

section
variable (s : State) (f : FarTarget) (esp v cur : Word) (ss : SegReg)

/-- The stack pointer is the popped one plus the released bytes in the bits both popped and in use (R147, R177). -/
theorem outerLoaded_release_sp (a : Width) :
    truncTo f.n (((outerLoaded s f esp v cur ss).release a f.imm).sp a)
      = truncTo f.n (truncTo a (esp + BitVec.ofNat 64 (srcBytes f.imm))) := by
  rw [release_sp, State.sp, view_eq_truncTo]
  exact truncTo_truncTo_add (truncTo_bits_load _ _ _) a _

/-- The freed token is read back as its own address, and where none is freed memory is as it was (R145, R175). -/
theorem outerLoaded_mem :
    if s.shadowStackEnabled s.cpl = true ∧ cur = s.tokenAddress (rpl f.rcs) ||| 1#64 then
      (outerLoaded s f esp v cur ss).mem.readLE s.linearBits 8 (s.tokenAddress (rpl f.rcs)).toNat
        = some (s.tokenAddress (rpl f.rcs)).toNat
    else (outerLoaded s f esp v cur ss).mem = s.mem := by
  split
  next hfree =>
    have hmem : (outerLoaded s f esp v cur ss).mem
        = s.mem.writeLE s.linearBits 8 (s.tokenAddress (rpl f.rcs)).toNat (s.tokenAddress (rpl f.rcs)).toNat :=
      if_pos hfree
    rw [hmem, readLE_token]
  next hkeep => exact if_neg hkeep

end

/-- Settles O38: the tests and the shadow-stack steps pass, and the state left is released from the loaded stack
pointer. -/
theorem outerFarReturnCompletes : Obligations.OuterFarReturnCompletes := by
  intro i s n ip esp prev v cur rcs rss d ss hf hr hs h1 h2 h3 h4 h5 h6 h7 h8 h9 h10 hold hnew
  set f : FarTarget := { n := n, imm := i.imm, a := s.stackAddressSize, ip := ip, rcs := rcs, d := d }
  set a := s.sasIn d ss
  have hrun : s.outerLevel f { sel := rcs, hidden := some d } esp ss
      = .ok ((outerLoaded s f esp v cur ss).release a i.imm) :=
    outerLevel_run (f := f) (truncTo_of_readTarget h2) h4 hold hnew
  rw [exec_outer_loaded hf hr hs h1 h2 h3 h4 h5 h6 h7 h8 h9 h10, hrun]
  refine ⟨_, rfl, outerLoaded_release_sp s f esp v cur ss a, fun himm => ?_, fun ha hn => ?_, fun ha hn => ?_, ?_, ?_,
    ?_⟩
  · have hesp : truncTo n esp = esp := truncTo_of_lt (stackRead_lt h10)
    rw [himm]
    exact (truncTo_bits_load n _ esp).trans hesp
  · rw [ha]
    exact (release_w16_mid _ _).trans (load_mid hn _ _)
  · refine (release_hi ha _ _).trans ?_
    subst hn
    rfl
  · exact release_ssp _ _ _
  · simp only [release_mem]
    exact outerLoaded_mem s f esp v cur ss
  · obtain ⟨r, hrel⟩ := release_eq (outerLoaded s f esp v cur ss) a i.imm
    rw [hrel]
    rfl

/-! ## The data segment registers -/

/-- What it means that the new level may not access a register's segment (R146, R176). -/
theorem inaccessible_iff {c : BitVec 2} {r : SegReg} :
    r.inaccessible c = true ↔ ∃ d, r.hidden = some d ∧ d.dpl < c ∧ d.s = true ∧ (d.x = false ∨ d.ec = false) := by
  unfold SegReg.inaccessible
  cases r.hidden <;> simp [Descriptor.isDataOrNonConforming]

/-- One register of the clearing loop in protected mode (R146). -/
theorem afterOuter_protected (c : BitVec 2) (r : SegReg) :
    r.afterOuter false c = if isNull r.sel = true ∨ r.inaccessible c = true then SegReg.cleared else r := by
  cases h : isNull r.sel <;> simp [SegReg.afterOuter, h]

/-- A return that raises CPL is to an outer level, and runs the clearing loop (R146, R176). -/
theorem dataSegs_of_outer {i : Instr} {s t : State} (h : exec i s = .next t) (hlevel : s.cpl < t.cpl) :
    t.es = s.es.afterOuter s.ia32e t.cpl ∧ t.fs = s.fs.afterOuter s.ia32e t.cpl ∧
      t.gs = s.gs.afterOuter s.ia32e t.cpl ∧ t.ds = s.ds.afterOuter s.ia32e t.cpl := by
  have hkept : t.cpl ≠ s.cpl := by
    rintro hcpl
    rw [hcpl] at hlevel
    exact BitVec.lt_irrefl _ hlevel
  cases exec_effect h with
  | near _ ht => exact absurd (by rw [ht]) hkept
  | real _ _ sel ht => exact absurd (by rw [ht]) hkept
  | sameLevel _ _ _ _ _ _ _ _ _ _ ht => exact absurd (by rw [ht]) hkept
  | outerLevel _ _ _ _ _ _ _ _ _ _ _ _ ht => rw [ht]; exact ⟨rfl, rfl, rfl, rfl⟩

/-- Settles O40: the four registers after the clearing loop, in protected mode. -/
theorem dataSegmentsAfterProtectedOuterReturn : Obligations.DataSegmentsAfterProtectedOuterReturn := by
  intro i s t h hlevel hmode x x' hx
  have hafter : x' = x.afterOuter false t.cpl := by
    obtain ⟨hes, hfs, hgs, hds⟩ := dataSegs_of_outer h hlevel
    rw [hmode] at hes hfs hgs hds
    simp only [List.mem_cons, Prod.mk.injEq, List.not_mem_nil, or_false] at hx
    rcases hx with ⟨rfl, rfl⟩ | ⟨rfl, rfl⟩ | ⟨rfl, rfl⟩ | ⟨rfl, rfl⟩
    · exact hes
    · exact hfs
    · exact hgs
    · exact hds
  have hnull : x.sel.extractLsb' 2 14 = 0#14 ↔ isNull x.sel = true := by simp [isNull]
  rw [hafter, afterOuter_protected, hnull, ← inaccessible_iff]
  exact ⟨fun hclear => if_pos hclear, fun hkeep => if_neg hkeep⟩

end Sys2Proof.Proofs
end

section
/-! SUPPORT. The outer far return in IA-32e mode where it differs from protected mode: the null stack selector (R166) and
the data segment registers that hold a null selector (R176). -/

namespace Sys2Proof.Proofs

open Sys2Proof.Machine Sys2Proof.Laws

/-! ## The null return stack segment selector -/

/-- A null selector names entry 0 of the GDT, so its error code is 0 (R61, R189). -/
theorem selCode_of_null {sel : Selector} (hnull : isNull sel = true) : selCode sel = 0 := by
  have hindex : sel.extractLsb' 2 14 = 0#14 := beq_iff_eq.mp hnull
  have hsplit : sel.extractLsb' 2 14 ++ sel.extractLsb' 0 2 = sel :=
    (BitVec.extractLsb'_append_extractLsb'_eq_extractLsb' (start₁ := 0) rfl).trans BitVec.extractLsb'_eq_self
  have hclear : ∀ r : BitVec 2, selCode (0#14 ++ r) = 0 := by decide
  rw [← hsplit, hindex]
  exact hclear _

/-- The tests that accept a null selector together (R166). -/
def nullStackSelectorFits (rcs rss : Selector) (d : Descriptor) : Bool :=
  d.l && (!(rpl rss == 3#2) && rpl rss == rpl rcs)

/-- They fail where one of them does. -/
theorem nullStackSelectorFits_eq_false {rcs rss : Selector} {d : Descriptor} :
    nullStackSelectorFits rcs rss d = false ↔ d.l = false ∨ rpl rss = 3#2 ∨ rpl rss ≠ rpl rcs := by
  simp only [nullStackSelectorFits, Bool.and_eq_false_iff, Bool.not_eq_false', beq_iff_eq, beq_eq_false_iff_ne]

/-- In IA-32e mode a null selector that passes them leaves SS without a descriptor (R166; log 17). -/
theorem outerStackRegister_of_null_ia32e {s : State} {f : FarTarget} {rss : Selector} (hmode : s.ia32e = true)
    (hnull : isNull rss = true) :
    outerStackRegister s f rss = (do
      require (nullStackSelectorFits f.rcs rss f.d) (.gp 0)
      .ok { sel := rss, hidden := none }) := by
  simp only [outerStackRegister, State.ia32eStackSegment, hmode, hnull, if_true, selCode_of_null hnull, require_require,
    nullStackSelectorFits]

/-- Settles O34: the tests that accept the null selector come first among those on the stack segment. -/
theorem nullStackSelectorInIa32eMode : Obligations.NullStackSelectorInIa32eMode := by
  intro i s n ip rcs rss d hf hr hs hmode h1 h2 h3 h4 h5 h6 hnull hbad
  refine exec_of_stack_fault hf hr hs h1 h2 h3 h4 h5 h6 ?_
  rw [outerStackRegister_of_null_ia32e hmode hnull, nullStackSelectorFits_eq_false.mpr hbad, require_false, error_bind]

/-! ## The data segment registers -/

/-- One register of the clearing loop in IA-32e mode (R176; log 20). -/
theorem afterOuter_ia32e (c : BitVec 2) (r : SegReg) :
    r.afterOuter true c = if isNull r.sel = false ∧ r.inaccessible c = true then SegReg.cleared else r := by
  cases h : isNull r.sel <;> simp [SegReg.afterOuter, h]

/-- Each of the four registers after a return to an outer level is what the clearing loop makes of it (R146, R176). -/
theorem afterOuter_of_mem_dataSegs {i : Instr} {s t : State} (h : exec i s = .next t) (hlevel : s.cpl < t.cpl)
    {x x' : SegReg} (hx : (x, x') ∈ [(s.es, t.es), (s.fs, t.fs), (s.gs, t.gs), (s.ds, t.ds)]) :
    x' = x.afterOuter s.ia32e t.cpl := by
  obtain ⟨hes, hfs, hgs, hds⟩ := dataSegs_of_outer h hlevel
  simp only [List.mem_cons, Prod.mk.injEq, List.not_mem_nil, or_false] at hx
  rcases hx with ⟨rfl, rfl⟩ | ⟨rfl, rfl⟩ | ⟨rfl, rfl⟩ | ⟨rfl, rfl⟩
  · exact hes
  · exact hfs
  · exact hgs
  · exact hds

/-- Settles O41: the four registers after the clearing loop, in IA-32e mode. -/
theorem dataSegmentsAfterIa32eOuterReturn : Obligations.DataSegmentsAfterIa32eOuterReturn := by
  intro i s t h hlevel hmode x x' hx
  have hnotNull : x.sel.extractLsb' 2 14 ≠ 0#14 ↔ isNull x.sel = false := by simp [isNull]
  rw [afterOuter_of_mem_dataSegs h hlevel hx, hmode, afterOuter_ia32e, hnotNull, ← inaccessible_iff]
  exact ⟨fun hclear => if_pos hclear, fun hkeep => if_neg hkeep⟩

end Sys2Proof.Proofs
end

section
/-! SUPPORT. What a return does to the level and the mode (R198), what raises `#CP(NEAR_RET)` (R186), and the numbers of
the exceptions (R188, R189). -/

namespace Sys2Proof.Proofs

open Sys2Proof.Machine Sys2Proof.Laws

/-! ## The level and the mode -/

/-- A form other than a far return of protected or IA-32e mode keeps CPL and the `L` bit of CS (R98, R116, R117). -/
theorem level_kept_unless_segmented_far {i : Instr} {s t : State} (h : exec i s = .next t)
    (hother : ¬(i.isFar = true ∧ s.segmented = true)) : t.cpl = s.cpl ∧ t.cs.desc.l = s.cs.desc.l := by
  cases exec_effect h with
  | near _ ht => rw [ht]; exact ⟨rfl, rfl⟩
  | real _ _ sel ht =>
    rw [ht]
    refine ⟨rfl, ?_⟩
    cases hd : s.cs.hidden <;> simp [State.loadCsReal, SegReg.desc, hd]
  | sameLevel _ _ _ _ hfar hmode => exact absurd ⟨hfar, by simp [State.segmented, hmode]⟩ hother
  | outerLevel _ _ _ _ _ hfar hmode => exact absurd ⟨hfar, by simp [State.segmented, hmode]⟩ hother

/-- A far return of protected or IA-32e mode sets CPL to the RPL of the popped selector, which is not below the old CPL
(R126, R129, R157, R159). -/
theorem level_of_segmented_far {i : Instr} {s t : State} (h : exec i s = .next t) (hfar : i.isFar = true)
    (hmode : s.segmented = true) :
    ∃ n ip rcs, s.ready i n ∧ s.readTarget s.stackAddressSize n = .ok (ip, rcs) ∧
      t.cs.sel = rcs ∧ t.cpl = rpl rcs ∧ ¬ t.cpl < s.cpl := by
  cases exec_effect h with
  | near hnear => simp [hfar] at hnear
  | real _ hreal => simp [State.segmented, hreal] at hmode
  | sameLevel n ip rcs d _ _ hready hread _ hlevel ht =>
    have hcpl : t.cpl = s.cpl := by rw [ht]
    exact ⟨n, ip, rcs, hready, hread, by rw [ht], hcpl.trans hlevel, hcpl ▸ BitVec.lt_irrefl _⟩
  | outerLevel n ip rcs d ss _ _ hready hread _ hlevel _ ht =>
    have hcpl : t.cpl = rpl rcs := by rw [ht]
    exact ⟨n, ip, rcs, hready, hread, by rw [ht], hcpl, hcpl ▸ BitVec.lt_asymm hlevel⟩

/-- A completed form changes 64-bit mode exactly when it is a far return in IA-32e mode whose new code segment has
another `L` bit (R31, R161). -/
theorem in64_changes_iff {i : Instr} {s t : State} (h : exec i s = .next t) :
    t.in64 ≠ s.in64 ↔ i.isFar = true ∧ s.ia32e = true ∧ t.cs.desc.l ≠ s.cs.desc.l := by
  obtain ⟨-, hfl, hsys, -⟩ := exec_frame h
  have hbits : t.in64 ≠ s.in64 ↔ s.ia32e = true ∧ t.cs.desc.l ≠ s.cs.desc.l := by
    rw [State.in64, State.in64, ia32e_congr hsys hfl]
    cases s.ia32e <;> simp
  have hfar : t.cs.desc.l ≠ s.cs.desc.l → i.isFar = true := fun hl =>
    by_contra fun hnear => hl (level_kept_unless_segmented_far h fun hseg => hnear hseg.1).2
  rw [hbits]
  exact ⟨fun ⟨hia, hl⟩ => ⟨hfar hl, hia, hl⟩, fun ⟨_, hia, hl⟩ => ⟨hia, hl⟩⟩

/-- A form is ready at one operand size only (R76). -/
theorem ready_inj {i : Instr} {s : State} {m n : Width} (hm : s.ready i m) (hn : s.ready i n) : m = n :=
  Except.ok.inj (hm.2.symm.trans hn.2)

/-- Settles O15: only a segmented far return loads CPL, and its tests have refused a selector of lower RPL. -/
theorem returnNeverGainsPrivilege : Obligations.ReturnNeverGainsPrivilege := by
  intro i s t h
  obtain ⟨-, hfl, hsys, -⟩ := exec_frame h
  refine ⟨fun hlower => ?_, fun hne => ?_, fun n ip rcs hfar hmode hready hread => ?_,
    pe_congr hsys, vm_congr hfl, lma_congr hsys, in64_changes_iff h⟩
  · by_cases hseg : i.isFar = true ∧ s.segmented = true
    · obtain ⟨_, _, _, -, -, -, -, hge⟩ := level_of_segmented_far h hseg.1 hseg.2
      exact hge hlower
    · rw [(level_kept_unless_segmented_far h hseg).1] at hlower
      exact BitVec.lt_irrefl _ hlower
  · exact by_contra fun hother => hne (level_kept_unless_segmented_far h hother).1
  · obtain ⟨m, ip', rcs', hready', hread', hsel, hcpl, -⟩ := level_of_segmented_far h hfar hmode
    obtain rfl := ready_inj hready hready'
    obtain ⟨rfl, rfl⟩ : ip = ip' ∧ rcs = rcs' := by simpa using hread.symm.trans hread'
    exact ⟨hcpl, hsel⟩

/-! ## `#CP(NEAR_RET)` -/

/-- The shadow-stack step of a near return raises `#CP(NEAR_RET)` on an entry that is not the new pointer only (R93 to
R95). -/
theorem mismatch_of_nearShadowStep {s : State} {n : Width}
    (h : s.nearShadowStep n = .error (.fault (.cp .nearRet))) :
    s.shadowStackEnabled s.cpl = true ∧
      ∃ e, s.memRead .shadowRead s.ssp (nearShadowBytes n) = .ok e ∧ s.rip ≠ e := by
  unfold State.nearShadowStep at h
  split at h
  · refine ⟨‹_›, ?_⟩
    rcases bind_eq_error.mp h with hpop | ⟨⟨e, t⟩, hpop, htest⟩
    · simpa using memRead_eq_error (shadowPop_eq_error.mp hpop)
    · obtain ⟨hread, rfl⟩ := shadowPop_eq_ok.mp hpop
      exact ⟨e, hread, by simpa [bind_eq_error] using htest⟩
  · simp at h

/-- The one source of `#CP(NEAR_RET)` in a near return is that step, on the pointer popped (R92 to R96). -/
theorem mismatch_of_nearReturn {s : State} {n : Width} {imm : Option (BitVec 16)}
    (h : nearReturn n imm s = .error (.fault (.cp .nearRet))) :
    s.shadowStackEnabled s.cpl = true ∧ ∃ v e, s.stackRead s.stackAddressSize 0 n = .ok v ∧
      s.memRead .shadowRead s.ssp (nearShadowBytes n) = .ok e ∧ v ≠ e := by
  unfold nearReturn at h
  obtain ⟨_, -, h⟩ := ok_of_avoids (by simp) h
  rcases bind_eq_error.mp h with hpop | ⟨⟨v, t⟩, hpop, h⟩
  · simpa using memRead_eq_error (pop_eq_error.mp hpop)
  obtain ⟨hv, rfl⟩ := pop_eq_ok.mp hpop
  obtain ⟨_, -, h⟩ := ok_of_avoids (by simp) h
  have hstep : ((s.addSp s.stackAddressSize n.bytes).writeIp n v).nearShadowStep n
      = .error (.fault (.cp .nearRet)) := by simpa [bind_eq_error] using h
  obtain ⟨hen, e, he, hne⟩ := mismatch_of_nearShadowStep hstep
  rw [writeIp_rip, truncTo_of_lt (stackRead_lt hv)] at hne
  exact ⟨hen, v, e, hv, he, hne⟩

/-- Settles O24: the compare is the one source of the exception, and O22 gives the converse. -/
theorem nearControlProtectionMeansMismatch : Obligations.NearControlProtectionMeansMismatch := by
  refine ⟨fun i s h => ?_, fun i s n v e hf hr hst hv ht hen he hne => ?_⟩
  · have hf : i.isFar = false := by
      obtain ⟨-, -, hnotFar, -⟩ := exceptionsOfEachForm i s _ h
      exact Bool.eq_false_iff.mpr fun hfar => hnotFar hfar rfl
    rw [exec_eq, finish_eq_fault] at h
    obtain ⟨n, hr, h⟩ := procedure_of_stop (by simp) (by simp) (by simp) h
    simp only [hf, Bool.false_eq_true, if_false] at h
    obtain ⟨hen, v, e, hmismatch⟩ := mismatch_of_nearReturn h
    exact ⟨hf, hen, n, v, e, hr, hmismatch⟩
  · obtain ⟨-, hrest⟩ := nearReturnFaultsInOrder i s n hf hr
    exact (hrest hst v hv).2 ht hen e he hne.symm

/-! ## Vector numbers and error codes -/

/-- Settles O45: each number is the table's row, and a selector's code is the selector with its two low bits clear. -/
theorem vectorsAndErrorCodes : Obligations.VectorsAndErrorCodes :=
  fun _ => ⟨rfl, rfl, rfl, fun _ => rfl, rfl, rfl, rfl, rfl, rfl, rfl, rfl⟩

end Sys2Proof.Proofs
end
